-- ==== Sys2Proof/Word.lean ====
section
/-! DEFINITION. The word types of the host bus and the buffers (20_memory.md R60, R61): bit vectors are used only for what the spec
adds, shifts, masks or shows to software as a word. -/

namespace Sys2Proof

/-- One byte of a buffer window (R61). -/
abbrev Byte := BitVec 8

/-- The 32-bit data and address width of the host bus (R60), and the width of a command word (R90). -/
abbrev Word := BitVec 32

end Sys2Proof
end

