-- ==== Sys2Proof/Syntax.lean ====
section
/-! DEFINITION. The nine commands of spec/opcode_table.json (30_encoding.md R93, R94), one constructor per row, with the operands each
row uses. -/

namespace Sys2Proof

/-- A plane index, 0..3: one of P0..P3 (10_state.md R20, 30_encoding.md R92). -/
abbrev PlaneIdx := Fin 4

/-- A frame index, 0..1: F0 or F1 (R20, R92). -/
abbrev FrameIdx := Fin 2

/-- The strength code STR, 0..7; codes 5 to 7 name no strength (R92, 43_compositor.md R160). -/
abbrev StrengthCode := Fin 8

/-- A command of the block, destination first as in the assembler syntax of R99. -/
inductive Instr where
  /-- NOP (44_housekeeping.md R180). -/
  | nop
  /-- THRESH Pd, Fs (40_thresholder.md R110). -/
  | thresh (pd : PlaneIdx) (fs : FrameIdx)
  /-- TDIFF Pd, Ps (41_temporal_differ.md R120). -/
  | tdiff (pd ps : PlaneIdx)
  /-- DILH Pd, Ps (42_morphology.md R132). -/
  | dilh (pd ps : PlaneIdx)
  /-- DILV Pd, Ps (R133). -/
  | dilv (pd ps : PlaneIdx)
  /-- EROH Pd, Ps (R134). -/
  | eroh (pd ps : PlaneIdx)
  /-- EROV Pd, Ps (R135). -/
  | erov (pd ps : PlaneIdx)
  /-- COMP Fd, Fs, Pm, strength (43_compositor.md R161). -/
  | comp (fd fs : FrameIdx) (pm : PlaneIdx) (str : StrengthCode)
  /-- CLEAR Pd (R181). -/
  | clear (pd : PlaneIdx)
  deriving DecidableEq, Repr

end Sys2Proof
end

