-- ==== Sys2Proof/WellFormed.lean ====
section
/-! DEFINITION. Which commands can be accepted at all, from the command's own operands: the two operand relations that
60_exceptions.md R199 checks. The geometry check of R195 concerns the state and is in Machine/Issue.lean. -/

namespace Sys2Proof

namespace Instr

/-- The plane operators need two different planes: PS = PD is E_ALIAS (60_exceptions.md R196). -/
def planesDiffer : Instr → Bool
  | .nop => true
  | .thresh _ _ => true
  | .tdiff pd ps => pd != ps
  | .dilh pd ps => pd != ps
  | .dilv pd ps => pd != ps
  | .eroh pd ps => pd != ps
  | .erov pd ps => pd != ps
  | .comp _ _ _ _ => true
  | .clear _ => true

/-- COMP needs a strength code of 0..4: 5, 6 and 7 are E_STRENGTH (R197). -/
def strengthNamed : Instr → Bool
  | .nop => true
  | .thresh _ _ => true
  | .tdiff _ _ => true
  | .dilh _ _ => true
  | .dilv _ _ => true
  | .eroh _ _ => true
  | .erov _ _ => true
  | .comp _ _ _ str => decide (str.val < 5)
  | .clear _ => true

/-- Neither operand relation of R199 rejects the command. -/
def wellFormed (i : Instr) : Bool := i.planesDiffer && i.strengthNamed

end Instr

end Sys2Proof
end

