-- ==== Sys2Proof/Decode.lean ====
section
/-! DEFINITION. The command decoder (30_encoding.md R90 to R95), written from the opcode table row by row, and the encoder. The decoder
is total on 32-bit words: a word no row matches is refused by name. -/

namespace Sys2Proof

/-- Why a word is no command of R94's table (R95). -/
inductive DecodeError where
  /-- OP is in 0x9..0xF (60_exceptions.md R193). -/
  | reservedOpcode
  /-- A valid OP with a non-zero reserved bit or unused field (R194). -/
  | reservedBits
  deriving DecidableEq, Repr

/-- OP, bits 3:0 (R91). -/
def opField (v : Word) : Nat := (v.extractLsb' 0 4).toNat

/-- PD, bits 5:4, zero-extended (R91, R92). -/
def pdField (v : Word) : PlaneIdx := (v.extractLsb' 4 2).toFin

/-- PS, bits 7:6, zero-extended (R91, R92). -/
def psField (v : Word) : PlaneIdx := (v.extractLsb' 6 2).toFin

/-- FS, bit 8 (R91, R92). -/
def fsField (v : Word) : FrameIdx := (v.extractLsb' 8 1).toFin

/-- FD, bit 9 (R91, R92). -/
def fdField (v : Word) : FrameIdx := (v.extractLsb' 9 1).toFin

/-- STR, bits 12:10, an unsigned code (R91, R92). -/
def strField (v : Word) : StrengthCode := (v.extractLsb' 10 3).toFin

/-- One row of spec/opcode_table.json: a word `v` encodes the row's instruction iff `(v and mask) = match` (R94). -/
structure OpcodeRow where
  mnemonic : String
  pattern : Word
  mask : Word
  /-- The instruction, its operands read from the fields the row uses (R94). -/
  operands : Word → Instr

/-- The table of R93 and R94 in the order of OP, with the match and mask of spec/opcode_table.json. -/
def opcodeTable : List OpcodeRow :=
  [ { mnemonic := "NOP", pattern := 0x00000000#32, mask := 0xFFFFFFFF#32
      operands := fun _ => .nop },
    { mnemonic := "THRESH", pattern := 0x00000001#32, mask := 0xFFFFFECF#32
      operands := fun v => .thresh (pdField v) (fsField v) },
    { mnemonic := "TDIFF", pattern := 0x00000002#32, mask := 0xFFFFFF0F#32
      operands := fun v => .tdiff (pdField v) (psField v) },
    { mnemonic := "DILH", pattern := 0x00000003#32, mask := 0xFFFFFF0F#32
      operands := fun v => .dilh (pdField v) (psField v) },
    { mnemonic := "DILV", pattern := 0x00000004#32, mask := 0xFFFFFF0F#32
      operands := fun v => .dilv (pdField v) (psField v) },
    { mnemonic := "EROH", pattern := 0x00000005#32, mask := 0xFFFFFF0F#32
      operands := fun v => .eroh (pdField v) (psField v) },
    { mnemonic := "EROV", pattern := 0x00000006#32, mask := 0xFFFFFF0F#32
      operands := fun v => .erov (pdField v) (psField v) },
    { mnemonic := "COMP", pattern := 0x00000007#32, mask := 0xFFFFE03F#32
      operands := fun v => .comp (fdField v) (fsField v) (psField v) (strField v) },
    { mnemonic := "CLEAR", pattern := 0x00000008#32, mask := 0xFFFFFFCF#32
      operands := fun v => .clear (pdField v) } ]

/-- Decoding a command word: the row of its OP, then that row's mask (R93 to R95). The operand relations that also reject a
command (R196, R197) are not decoding: `0x0000_0053` decodes to DILH P1, P1. -/
def decode (v : Word) : Except DecodeError Instr :=
  match opcodeTable[opField v]? with
  | none => .error .reservedOpcode
  | some row => if v &&& row.mask = row.pattern then .ok (row.operands v) else .error .reservedBits

/-- The number `n` placed at bit `k` of a word. -/
def placed (n k : Nat) : Word := BitVec.ofNat 32 n <<< k

/-- The word of a command, by the encoding lines of R99 and of each instruction's rule (R110, R120, R132 to R135, R161, R180,
R181). -/
def encode : Instr → Word
  | .nop => 0x00000000#32
  | .thresh pd fs => 0x00000001#32 ||| placed pd.val 4 ||| placed fs.val 8
  | .tdiff pd ps => 0x00000002#32 ||| placed pd.val 4 ||| placed ps.val 6
  | .dilh pd ps => 0x00000003#32 ||| placed pd.val 4 ||| placed ps.val 6
  | .dilv pd ps => 0x00000004#32 ||| placed pd.val 4 ||| placed ps.val 6
  | .eroh pd ps => 0x00000005#32 ||| placed pd.val 4 ||| placed ps.val 6
  | .erov pd ps => 0x00000006#32 ||| placed pd.val 4 ||| placed ps.val 6
  | .comp fd fs pm str =>
    0x00000007#32 ||| placed pm.val 6 ||| placed fs.val 8 ||| placed fd.val 9 ||| placed str.val 10
  | .clear pd => 0x00000008#32 ||| placed pd.val 4

/-- The command word whose low `nbits` bits are those of `w` and whose other bits are 0. -/
def tableWord (nbits w : Nat) : Word := BitVec.ofNat 32 (w % 2 ^ nbits)

/-- What the decoder reads from an instruction whose bits are `w`, numbered as spec/opcode_table.json numbers them; a command is
one 32-bit word (R90). -/
def decodeTableWord (nbits w : Nat) : Option Instr :=
  match decode (tableWord nbits w) with
  | .ok i => some i
  | .error _ => none

end Sys2Proof
end

