-- ==== Sys2Proof/Config.lean ====
section
/-! DEFINITION. What a build of the block fixes (00_scope.md R7): the parameters of the spec, their constraints, and the build the
machine of `State.reset` is: opaque numbers brought into their legal ranges, so that nothing can be proved of them but that they
are legal. -/

namespace Sys2Proof

/-- The pack-word width `W`: "one of 8, 32, 64" (R7). -/
inductive PackWidth where
  | w8
  | w32
  | w64
  deriving DecidableEq, Repr

/-- The width in bits (R7). -/
def PackWidth.bits : PackWidth → Nat
  | .w8 => 8
  | .w32 => 32
  | .w64 => 64

/-- The parameters of R7 that are not fixed by the spec. NPLANES = 4 and NFRAMES = 2 are in the types `PlaneIdx` and `FrameIdx`. -/
structure Config where
  packWidth : PackWidth
  maxWidth : Nat
  maxHeight : Nat
  fullNum : Nat
  fullDen : Nat
  deriving DecidableEq, Repr

namespace Config

/-- BP_STRIDE, bytes per row in a bitplane window: MAX_WIDTH / 8 (R7). -/
def stride (c : Config) : Nat := c.maxWidth / 8

/-- MAX_PIXELS, pixels per frame buffer: MAX_WIDTH * MAX_HEIGHT (R7). -/
def maxPixels (c : Config) : Nat := c.maxWidth * c.maxHeight

/-- The constraints R7 puts on the parameters. -/
def ok (c : Config) : Bool :=
  c.maxWidth % 64 == 0 && decide (64 ≤ c.maxWidth) && decide (c.maxWidth ≤ 65472) &&
  decide (1 ≤ c.maxHeight) && decide (c.maxHeight ≤ 65535) &&
  decide (c.maxWidth * c.maxHeight ≤ 8388608) &&
  decide (c.fullNum ≤ c.fullDen) && decide (1 ≤ c.fullDen) && decide (c.fullDen ≤ 255)

/-- Free value: which pack-word width the build has (log entry 4). -/
opaque rawPackWidth : Nat
/-- Free value: MAX_WIDTH before it is brought into R7's range (log entry 4). -/
opaque rawMaxWidth : Nat
/-- Free value: MAX_HEIGHT before it is brought into R7's range (log entry 4). -/
opaque rawMaxHeight : Nat
/-- Free value: FULL_NUM before it is brought into R7's range (log entry 4). -/
opaque rawFullNum : Nat
/-- Free value: FULL_DEN before it is brought into R7's range (log entry 4). -/
opaque rawFullDen : Nat

/-- Every multiple of 64 in 64..65472, as `r` varies (R7). -/
def legalMaxWidth (r : Nat) : Nat := 64 * (1 + r % 1023)

/-- Every height R7 allows beside the width `w`, as `r` varies. -/
def legalMaxHeight (w r : Nat) : Nat := 1 + r % min 65535 (8388608 / w)

/-- Each of the three pack-word widths of R7, as `r` varies. -/
def legalPackWidth (r : Nat) : PackWidth :=
  match r % 3 with
  | 0 => .w64
  | 1 => .w32
  | _ => .w8

/-- The legal build that five raw numbers give; every legal build is one of these (R7). -/
def ofRaw (rw rx ry rn rd : Nat) : Config where
  packWidth := legalPackWidth rw
  maxWidth := legalMaxWidth rx
  maxHeight := legalMaxHeight (legalMaxWidth rx) ry
  fullNum := rn % (2 + rd % 255)
  fullDen := 1 + rd % 255

/-- The build of the machine right after reset: free within R7's constraints (log entry 4). -/
def build : Config := ofRaw rawPackWidth rawMaxWidth rawMaxHeight rawFullNum rawFullDen

end Config

end Sys2Proof
end

