-- ==== Sys2Proof/Machine/State.lean ====
section
/-! DEFINITION. The state of the block (10_state.md R42) as plain data, the host's moves and bus answers (20_memory.md R76), the faults
(60_exceptions.md R202), and the state after reset (70_reset_and_hazards.md R221). -/

namespace Sys2Proof.Machine

/-- The four channels of a pixel, in the order R, G, B, A (10_state.md R39). -/
inductive Channel where
  | r
  | g
  | b
  | a
  deriving DecidableEq, Repr

/-- The width of a host access (20_memory.md R63, R64). -/
inductive AccessWidth where
  | w8
  | w16
  | w32
  deriving DecidableEq, Repr

/-- One access of the host to the bus, at a byte address (R60). A write hands over 32 data bits, of which an 8-bit or 16-bit access
uses the low ones (log entry 16). -/
inductive Access where
  | read (width : AccessWidth) (addr : Word)
  | write (width : AccessWidth) (addr : Word) (value : Word)
  deriving DecidableEq, Repr

/-- What can happen next to the block: a host access or a reset (R76, 70_reset_and_hazards.md R220), or the engine's turn to step
(30_encoding.md R97). The MODEL's own: it writes down one order of events as data (log entry 1). -/
inductive Input where
  | access (a : Access)
  | reset
  | engine
  deriving DecidableEq, Repr

/-- What the bus answered to the last host access (R60, R76): the MODEL's own record of it (log entry 3). -/
inductive Response where
  /-- No access has been answered since reset. -/
  | none
  /-- A write completed with an OK response. -/
  | ok
  /-- A read completed with an OK response and this data, zero-extended (log entry 16). -/
  | data (value : Word)
  deriving DecidableEq, Repr

/-- The kinds of bus error, in the order of R198. -/
inductive BusErrorKind where
  | unmapped
  | width
  | misaligned
  | busy
  deriving DecidableEq, Repr

/-- The command errors of R192, whose codes are in Machine/Flags.lean. -/
inductive CmdError where
  /-- E_OPCODE (R193). -/
  | opcode
  /-- E_RSVD (R194). -/
  | rsvd
  /-- E_DIM (R195). -/
  | dim
  /-- E_ALIAS (R196). -/
  | aliasing
  /-- E_STRENGTH (R197). -/
  | strength
  deriving DecidableEq, Repr

/-- The model's two faults (60_exceptions.md R202); a faulted state has no successor. -/
inductive Fault where
  /-- A read of frame byte F[f][i].c that holds no value: raised by a host read of a frame window (20_memory.md R66), by THRESH
  (R, G and B only) and by COMP (10_state.md R40). Safe: the chip returns some byte, the model proves nothing of such a run. -/
  | uninitRead (f : FrameIdx) (i : Nat) (c : Channel)
  /-- A host access that got a bus error (R198): raised by `hostAccess`. Safe: the block's state does not change on the chip, and
  the model proves nothing of what the host does next. -/
  | busError (kind : BusErrorKind)
  deriving DecidableEq, Repr

/-- Why the model gives no meaning. The spec needs no refusal: "every command word has a defined response"
(93_implementation_defined.md section 4). -/
inductive Refusal where
  /-- An instruction without a meaning in the dispatcher; no arm raises it in this model. Safe. -/
  | notModelled (mnemonic : String)
  deriving DecidableEq, Repr

/-- Buffer bytes by their address on the host bus (20_memory.md R62): plane bytes by R65 and frame bytes by R66. Canonical form:
addresses strictly rise, and no entry equals what an unlisted address reads as (`Memory.wf` in Machine/Ops.lean). -/
abbrev Memory := List Host.Cell

/-- The state of the block: the record of 10_state.md R42, the build it is (`cfg`, log entry 4), and the MODEL's own record of the
host's side of the bus (`inputs`, `response`; log entries 1 and 3). -/
structure State where
  /-- The parameters of the build (00_scope.md R7); no step changes them. -/
  cfg : Config
  /-- GEOMETRY.WIDTH (10_state.md R30). -/
  width : BitVec 16
  /-- GEOMETRY.HEIGHT (R30). -/
  height : BitVec 16
  /-- CTRL.IE_DONE (R32). -/
  ieDone : Bool
  /-- CTRL.IE_ERR (R32). -/
  ieErr : Bool
  /-- STATUS.BUSY (R33). -/
  busy : Bool
  /-- STATUS.DONE (R33). -/
  done : Bool
  /-- STATUS.ERR (R33). -/
  err : Bool
  /-- STATUS.ERRCODE (R33). -/
  errcode : BitVec 4
  /-- PEND, the pending-command latch, meaningful only while BUSY = 1 (R35). -/
  pend : Word
  /-- P0..P3 and F0, F1 (R36, R39), as the bytes of their windows. -/
  mem : Memory
  /-- The MODEL's own: the events still to come, first one first (log entry 1). -/
  inputs : List Input
  /-- The MODEL's own: the bus's answer to the last host access (log entry 3). -/
  response : Response
  deriving DecidableEq, Repr

/-- The block right after reset (70_reset_and_hazards.md R221): registers 0, planes 0, every frame byte without a value (nothing is
listed in `mem`). PEND is not valid; its bits are 0 by DESIGN CHOICE (log entry 5). No event is waiting and nothing has been
answered, by DESIGN CHOICE (log entries 3 and 11). -/
def State.reset : State where
  cfg := Config.build
  width := 0
  height := 0
  ieDone := false
  ieErr := false
  busy := false
  done := false
  err := false
  errcode := 0
  pend := 0
  mem := []
  inputs := []
  response := .none

end Sys2Proof.Machine
end

