-- ==== Sys2Proof/Machine/Flags.lean ====
section
/-! DEFINITION. The register words a host read returns (10_state.md R22 to R33), the error codes (60_exceptions.md R192) and the
interrupt output (10_state.md R41). Every reserved register bit reads 0 (R23). -/

namespace Sys2Proof.Machine

/-- The code STATUS.ERRCODE holds for a command error (R192). -/
def CmdError.code : CmdError → BitVec 4
  | .opcode => 1
  | .rsvd => 2
  | .dim => 3
  | .aliasing => 4
  | .strength => 5

/-- ID, the constant 0x464D_5644 (R27). -/
def idWord : Word := 0x464D5644#32

/-- PARAM: W in bits 7:0, NPLANES = 4 in 11:8, NFRAMES = 2 in 15:12 (R28). -/
def paramWord (c : Config) : Word := 0#16 ++ 2#4 ++ 4#4 ++ BitVec.ofNat 8 c.packWidth.bits

/-- MAXDIM: MAX_WIDTH in bits 15:0, MAX_HEIGHT in 31:16 (R29). -/
def maxdimWord (c : Config) : Word := BitVec.ofNat 16 c.maxHeight ++ BitVec.ofNat 16 c.maxWidth

/-- GEOMETRY: WIDTH in bits 15:0, HEIGHT in 31:16 (R30). -/
def geometryWord (s : State) : Word := s.height ++ s.width

/-- CTRL: IE_DONE in bit 0, IE_ERR in bit 1 (R32). -/
def ctrlWord (s : State) : Word := 0#30 ++ BitVec.ofBool s.ieErr ++ BitVec.ofBool s.ieDone

/-- STATUS: BUSY in bit 0, DONE in 1, ERR in 2, ERRCODE in 7:4 (R33). -/
def statusWord (s : State) : Word :=
  0#24 ++ s.errcode ++ 0#1 ++ BitVec.ofBool s.err ++ BitVec.ofBool s.done ++ BitVec.ofBool s.busy

/-- The interrupt output, a level (R41). -/
def irq (s : State) : Bool := (s.done && s.ieDone) || (s.err && s.ieErr)

end Sys2Proof.Machine
end

