-- ==== Sys2Proof/Machine/Ops.lean ====
section
/-! DEFINITION. The named operations over buffer memory and over STATUS that every instruction and every host access is made of:
reading and writing bytes, clearing planes, and the four ways STATUS changes: a command is accepted, completed or rejected, and the
host clears bits. -/

namespace Sys2Proof.Machine

/-- First byte of the bitplane windows (20_memory.md R62). -/
def planesBase : Nat := 0x01000000

/-- First byte of bitplane window `p`: 1 MiB each (R62). -/
def planeBase (p : PlaneIdx) : Nat := planesBase + 0x00100000 * p.val

/-- First byte of the frame windows (R62). -/
def framesBase : Nat := 0x10000000

/-- First byte of frame window `f`: 64 MiB each (R62). -/
def frameBase (f : FrameIdx) : Nat := framesBase + 0x04000000 * f.val

/-- Is the address in one of the four bitplane windows (R62)? -/
def inPlanes (a : Nat) : Bool := decide (planesBase ≤ a) && decide (a < planesBase + 4 * 0x00100000)

/-- What an unlisted address reads as: a plane byte is 0 (10_state.md R36), a frame byte holds no value (R40). -/
def blank (a : Nat) : Option Byte := if inPlanes a then some 0#8 else none

/-- The byte at an address, none where it holds no value (R40). -/
def readByte : Memory → Nat → Option Byte
  | [], a => blank a
  | c :: m, a => if c.1 = a then some c.2 else readByte m a

/-- Puts one cell in front of the first cell with a higher address. -/
def insertCell (c : Host.Cell) : Memory → Memory
  | [] => [c]
  | d :: m => if c.1 < d.1 then c :: d :: m else d :: insertCell c m

/-- Writes one byte; a byte equal to what the unlisted address reads as is not listed, which keeps the canonical form. -/
def writeByte (m : Memory) (a : Nat) (v : Byte) : Memory :=
  let others := m.filter (fun c => c.1 != a)
  if blank a = some v then others else insertCell (a, v) others

/-- Writes consecutive bytes from an address up, the first byte lowest (20_memory.md R61). -/
def writeBytes (m : Memory) (a : Nat) : List Byte → Memory
  | [] => m
  | v :: vs => writeBytes (writeByte m a v) (a + 1) vs

/-- Drops every cell from `lo` up to but not including `hi`, so that those bytes read as unlisted again. -/
def clearRange (lo hi : Nat) (m : Memory) : Memory := m.filter (fun c => decide (c.1 < lo) || decide (hi ≤ c.1))

/-- Sets every bit of every plane to 0, over the whole storage (10_state.md R31). -/
def clearPlanes (m : Memory) : Memory := clearRange planesBase (planesBase + 4 * 0x00100000) m

/-- Sets every bit of one plane to 0, over the whole storage (44_housekeeping.md R181). -/
def clearPlane (p : PlaneIdx) (m : Memory) : Memory := clearRange (planeBase p) (planeBase p + 0x00100000) m

/-- Addresses strictly rise and every address is at least `lo`. -/
def risingFrom : Nat → Memory → Bool
  | _, [] => true
  | lo, c :: m => decide (lo ≤ c.1) && risingFrom (c.1 + 1) m

/-- The canonical form: addresses strictly rise, and no cell equals what its address reads as when unlisted. -/
def Memory.wf (m : Memory) : Bool := risingFrom 0 m && m.all (fun c => decide (blank c.1 ≠ some c.2))

/-- Accepting a command: PEND <- v, DONE <- 0, BUSY <- 1 (30_encoding.md R96). -/
def accept (v : Word) (s : State) : State := { s with pend := v, done := false, busy := true }

/-- Completing a command: BUSY <- 0, DONE <- 1 (R97). -/
def complete (s : State) : State := { s with busy := false, done := true }

/-- THE BLOCK'S ONE EXCEPTION ENTRY: rejecting a command sets ERR and ERRCODE and nothing else (60_exceptions.md R191). At issue,
where the spec rejects, BUSY is 0 already and stays 0; the engine, which in no reachable state holds a command that is rejected,
uses the same operation and ends with BUSY = 0 (log entry 6). -/
def reject (e : CmdError) (s : State) : State := { s with busy := false, err := true, errcode := e.code }

/-- A write of `v` to STATUS (10_state.md R34): bit 1 clears DONE, bit 2 clears ERR and ERRCODE. Clearing ERR is the host's return
from an error (60_exceptions.md R206). -/
def writeStatus (v : Word) (s : State) : State :=
  { s with
    done := s.done && !v.getLsbD 1
    err := s.err && !v.getLsbD 2
    errcode := if v.getLsbD 2 then 0 else s.errcode }

end Sys2Proof.Machine
end

