-- ==== Sys2Proof/Machine/Operands.lean ====
section
/-! DEFINITION. The operands of the commands: pixels of a plane, with and without the zero guards (00_scope.md R10 to R12), bytes of a
frame (R11), and the ratio a strength code names (43_compositor.md R160); and writing a whole plane or frame region. -/

namespace Sys2Proof.Machine

/-- Is (x, y) in the active region (R10)? -/
def active (s : State) (x y : Nat) : Bool := decide (x < s.width.toNat) && decide (y < s.height.toNat)

/-- WIDTH * HEIGHT, the number of pixels of a frame under the current geometry (10_state.md R39). -/
def framePixels (s : State) : Nat := s.width.toNat * s.height.toNat

/-- The window byte that holds byte `b` of row `y` of plane `p` (20_memory.md R65). -/
def planeByteAddr (c : Config) (p : PlaneIdx) (y b : Nat) : Nat := planeBase p + (y * c.stride + b)

/-- P[p](x, y) as it is stored: bit `x mod 8` of byte `x div 8` of row `y` (00_scope.md R16, 20_memory.md R65). -/
def planeBit (s : State) (p : PlaneIdx) (x y : Nat) : Bool :=
  ((readByte s.mem (planeByteAddr s.cfg p y (x / 8))).getD 0#8).getLsbD (x % 8)

/-- The guarded read Pg(p, x, y), for every integer x and y: 0 outside the active region (R12). -/
def guarded (s : State) (p : PlaneIdx) (x y : Int) : Bool :=
  if 0 ≤ x ∧ 0 ≤ y then active s x.toNat y.toNat && planeBit s p x.toNat y.toNat else false

/-- The byte whose bit `j` is `f j`: bit 0 is the leftmost pixel (R16). -/
def packBits (f : Nat → Bool) : Byte := BitVec.ofBoolListLE [f 0, f 1, f 2, f 3, f 4, f 5, f 6, f 7]

/-- What byte `b` of row `y` of plane `p` becomes when `f x` is written to each of its pixels in the active region: a bit outside the
active region is not written (42_morphology.md R137, 20_memory.md R69). -/
def maskedByte (s : State) (p : PlaneIdx) (y b : Nat) (f : Nat → Bool) : Byte :=
  packBits fun j => if active s (8 * b + j) y then f (8 * b + j) else planeBit s p (8 * b + j) y

/-- The bytes of the active part of row `y` of plane `p` after `f x` is written to its pixels. -/
def maskedRow (s : State) (p : PlaneIdx) (y : Nat) (f : Nat → Bool) : List Byte :=
  (List.range ((s.width.toNat + 7) / 8)).map fun b => maskedByte s p y b f

/-- Buffer memory after P[p](x, y) <- out x y for every (x, y) of the active region. `out` is computed from the state before, so all
reads precede all writes (30_encoding.md R97, 41_temporal_differ.md R120). -/
def writePlane (s : State) (p : PlaneIdx) (out : Nat → Nat → Bool) : Memory :=
  (List.range s.height.toNat).foldl
    (fun m y => writeBytes m (planeByteAddr s.cfg p y 0) (maskedRow s p y fun x => out x y)) s.mem

/-- The number of a channel: R 0, G 1, B 2, A 3 (20_memory.md R66). -/
def Channel.index : Channel → Nat
  | .r => 0
  | .g => 1
  | .b => 2
  | .a => 3

/-- The channel with a given number (R66). -/
def channelAt : Nat → Channel
  | 0 => .r
  | 1 => .g
  | 2 => .b
  | _ => .a

/-- The window byte that holds channel `c` of pixel `i` of frame `f` (R66). -/
def frameByteAddr (f : FrameIdx) (i : Nat) (c : Channel) : Nat := frameBase f + (4 * i + c.index)

/-- F[f][i].c, none where the byte holds no value (10_state.md R40). -/
def frameByte (s : State) (f : FrameIdx) (i : Nat) (c : Channel) : Option Byte := readByte s.mem (frameByteAddr f i c)

/-- F[f][i].c where it is known to hold a value. -/
def frameVal (s : State) (f : FrameIdx) (i : Nat) (c : Channel) : Byte := (frameByte s f i c).getD 0#8

/-- The first of the given channels of the first pixels 0..n-1 of frame `f` that holds no value, pixel by pixel and channel by
channel in the order of the pseudocode of R110 and R161 (log entry 9). -/
def firstUnset (s : State) (f : FrameIdx) (n : Nat) (cs : List Channel) : Option (Nat × Channel) :=
  (List.range n).findSome? fun i => (cs.find? fun c => (frameByte s f i c).isNone).map fun c => (i, c)

/-- Reads the given channels of pixels 0..n-1 of frame `f`: fault UninitRead where one holds no value (R40), else the result. -/
def readingFrame (s : State) (f : FrameIdx) (n : Nat) (cs : List Channel) (result : Memory) : Except Fault Memory :=
  match firstUnset s f n cs with
  | some ic => .error (.uninitRead f ic.1 ic.2)
  | none => .ok result

/-- A pixel as its four bytes, R first (10_state.md R39). -/
structure Pixel where
  r : Byte
  g : Byte
  b : Byte
  a : Byte
  deriving DecidableEq, Repr

/-- The four bytes in window order (20_memory.md R66). -/
def Pixel.bytes (p : Pixel) : List Byte := [p.r, p.g, p.b, p.a]

/-- F[f][i], where all four bytes hold a value. -/
def framePixel (s : State) (f : FrameIdx) (i : Nat) : Pixel where
  r := frameVal s f i .r
  g := frameVal s f i .g
  b := frameVal s f i .b
  a := frameVal s f i .a

/-- Buffer memory after F[f][i] <- out i for every pixel i of the current geometry. -/
def writeFrame (s : State) (f : FrameIdx) (out : Nat → Pixel) : Memory :=
  (List.range (framePixels s)).foldl (fun m i => writeBytes m (frameByteAddr f i .r) (out i).bytes) s.mem

/-- The ratio (num, den) a strength code names; codes 5 to 7 name none (43_compositor.md R160). -/
def strengthRatio (c : Config) (str : StrengthCode) : Option (Nat × Nat) :=
  match str.val with
  | 0 => some (8, 9)
  | 1 => some (4, 5)
  | 2 => some (2, 3)
  | 3 => some (1, 2)
  | 4 => some (c.fullNum, c.fullDen)
  | _ => none

/-- One channel attenuated: (c * num) div den, exact and truncating (R161, R163). -/
def attenuate (ratio : Nat × Nat) (v : Byte) : Byte := BitVec.ofNat 8 (v.toNat * ratio.1 / ratio.2)

/-- Every channel of a pixel attenuated, alpha included (R161). -/
def Pixel.attenuated (ratio : Nat × Nat) (p : Pixel) : Pixel where
  r := attenuate ratio p.r
  g := attenuate ratio p.g
  b := attenuate ratio p.b
  a := attenuate ratio p.a

end Sys2Proof.Machine
end

