-- ==== Sys2Proof/Machine/Issue.lean ====
section
/-! DEFINITION. Issuing a command (30_encoding.md R96), validating a command word (60_exceptions.md R199), and running an instruction:
its issue checks, its effect on the buffers, its completion. -/

namespace Sys2Proof.Machine

/-- Is the geometry valid: 1 <= WIDTH <= MAX_WIDTH and 1 <= HEIGHT <= MAX_HEIGHT (R195)? -/
def dimsOk (s : State) : Bool :=
  decide (1 ≤ s.width.toNat) && decide (1 ≤ s.height.toNat) &&
  decide (s.width.toNat ≤ s.cfg.maxWidth) && decide (s.height.toNat ≤ s.cfg.maxHeight)

/-- The check of a THRESH (R195). -/
def dimError (s : State) : Option CmdError := if dimsOk s then none else some .dim

/-- The checks of a plane-to-plane command, geometry first (R195, R196, R199). -/
def planeError (s : State) (pd ps : PlaneIdx) : Option CmdError :=
  if dimsOk s then if ps = pd then some .aliasing else none else some .dim

/-- The checks of a COMP, geometry first (R195, R197, R199). -/
def compError (s : State) (str : StrengthCode) : Option CmdError :=
  if dimsOk s then if 5 ≤ str.val then some .strength else none else some .dim

/-- The lines of R199 that follow decoding: the first of E_DIM, E_ALIAS and E_STRENGTH that applies to the command. -/
def issueError (s : State) : Instr → Option CmdError
  | .nop => none
  | .thresh _ _ => dimError s
  | .tdiff pd ps => planeError s pd ps
  | .dilh pd ps => planeError s pd ps
  | .dilv pd ps => planeError s pd ps
  | .eroh pd ps => planeError s pd ps
  | .erov pd ps => planeError s pd ps
  | .comp _ _ _ str => compError s str
  | .clear _ => none

/-- The command error a word that does not decode gets (R193, R194). -/
def decodeCmdError : DecodeError → CmdError
  | .reservedOpcode => .opcode
  | .reservedBits => .rsvd

/-- The validation of a command word (R199): the first error that applies, none for code 0. -/
def validate (v : Word) (s : State) : Option CmdError :=
  match decode v with
  | .error e => some (decodeCmdError e)
  | .ok i => issueError s i

/-- What a write of `v` to CMD does while BUSY = 0 (R96, R200): discarded while ERR = 1, else rejected with the code of R199, else
accepted. The bus error while BUSY = 1 is the bus's (Machine/Bus.lean). -/
def issue (v : Word) (s : State) : State :=
  if s.err then s
  else match validate v s with
    | some e => reject e s
    | none => accept v s

/-- Running one command: `result` is what its pseudocode makes of the buffers. A command that its own issue checks refuse is
rejected and touches no buffer (R191); the engine meets one only in states no run reaches (log entry 6). Otherwise the buffers are
replaced as one update and the command completes (R97), or the model faults with no next state (R202). -/
def runCommand (check : Option CmdError) (result : Except Fault Memory) (s : State) : Host.Outcome State Fault Refusal :=
  match check with
  | some e => .next (reject e s)
  | none =>
    match result with
    | .ok m => .next (complete { s with mem := m })
    | .error f => .fault f

end Sys2Proof.Machine
end

