-- ==== Sys2Proof/Machine/Bus.lean ====
section
/-! DEFINITION. The host bus (20_memory.md): where an address leads, which bus error an access gets (60_exceptions.md R198), and what a
read returns and a write does. -/

namespace Sys2Proof.Machine

/-- The seven registers of 10_state.md R22. -/
inductive Register where
  | id
  | param
  | maxdim
  | geometry
  | ctrl
  | status
  | cmd
  deriving DecidableEq, Repr

/-- What an address leads to: a register, or a byte offset of a plane or frame window (R62). -/
inductive Target where
  | register (r : Register)
  | plane (p : PlaneIdx) (o : Nat)
  | frame (f : FrameIdx) (o : Nat)
  deriving DecidableEq, Repr

/-- The register at a byte offset of the register region; none for the reserved offsets (10_state.md R22, R26). The offset names the
register whose word holds it (log entry 8). -/
def registerAt (o : Nat) : Option Register :=
  match o / 4 with
  | 0 => some .id
  | 1 => some .param
  | 2 => some .maxdim
  | 4 => some .geometry
  | 5 => some .ctrl
  | 6 => some .status
  | 7 => some .cmd
  | _ => none

/-- The address map (20_memory.md R62), with the storage limits of R67; none is unmapped. -/
def locate (c : Config) (a : Nat) : Option Target :=
  if a < 0x1000 then (registerAt a).map .register
  else if inPlanes a then
    let o := (a - planesBase) % 0x00100000
    if o < c.maxHeight * c.stride then some (.plane (Fin.ofNat 4 ((a - planesBase) / 0x00100000)) o) else none
  else if framesBase ≤ a ∧ a < framesBase + 2 * 0x04000000 then
    let o := (a - framesBase) % 0x04000000
    if o < 4 * c.maxPixels then some (.frame (Fin.ofNat 2 ((a - framesBase) / 0x04000000)) o) else none
  else none

/-- The size of an access in bytes (R63, R64). -/
def AccessWidth.bytes : AccessWidth → Nat
  | .w8 => 1
  | .w16 => 2
  | .w32 => 4

/-- The byte address of an access. -/
def Access.address : Access → Nat
  | .read _ a => a.toNat
  | .write _ a _ => a.toNat

/-- The width of an access. -/
def Access.accessWidth : Access → AccessWidth
  | .read w _ => w
  | .write w _ _ => w

/-- Is the access refused while BUSY = 1 when it leads here: a write to GEOMETRY or CMD, or any window access (R68)? -/
def refusedWhileBusy : Access → Target → Bool
  | .write _ _ _, .register .geometry => true
  | .write _ _ _, .register .cmd => true
  | _, .register _ => false
  | _, .plane _ _ => true
  | _, .frame _ _ => true

/-- The bus error of an access that leads to a register: `Width` unless it is 32 bits wide and 4-aligned (R63), or to a window:
`Misaligned` unless naturally aligned (R64); then `Busy` (R68). -/
def targetError (s : State) (acc : Access) (t : Target) : Option BusErrorKind :=
  let shape : Option BusErrorKind :=
    match t with
    | .register _ => if acc.accessWidth = .w32 ∧ acc.address % 4 = 0 then none else some .width
    | .plane _ _ => if acc.address % acc.accessWidth.bytes = 0 then none else some .misaligned
    | .frame _ _ => if acc.address % acc.accessWidth.bytes = 0 then none else some .misaligned
  match shape with
  | some k => some k
  | none => if s.busy && refusedWhileBusy acc t then some .busy else none

/-- The bus error of an access, the first that applies in the order Unmapped, Width, Misaligned, Busy (60_exceptions.md R198). -/
def busError (s : State) (acc : Access) : Option BusErrorKind :=
  match locate s.cfg acc.address with
  | none => some .unmapped
  | some t => targetError s acc t

/-- The number whose bytes are given lowest first (20_memory.md R61). -/
def littleEndian : List Byte → Nat
  | [] => 0
  | b :: bs => b.toNat + 256 * littleEndian bs

/-- The first `n` bytes of a data word, lowest first (R61). -/
def dataBytes (v : Word) (n : Nat) : List Byte := (List.range n).map fun k => v.extractLsb' (8 * k) 8

/-- The value of a register (10_state.md R22 to R33); CMD reads 0 (R25). -/
def readRegister (s : State) : Register → Word
  | .id => idWord
  | .param => paramWord s.cfg
  | .maxdim => maxdimWord s.cfg
  | .geometry => geometryWord s
  | .ctrl => ctrlWord s
  | .status => statusWord s
  | .cmd => 0

/-- A write to GEOMETRY: both fields are stored and every plane is cleared, as one effect (10_state.md R31). -/
def writeGeometry (v : Word) (s : State) : State :=
  { s with width := v.extractLsb' 0 16, height := v.extractLsb' 16 16, mem := clearPlanes s.mem }

/-- A write to CTRL: bits 0 and 1 are stored (10_state.md R32). -/
def writeCtrl (v : Word) (s : State) : State := { s with ieDone := v.getLsbD 0, ieErr := v.getLsbD 1 }

/-- A write to a register; ID, PARAM and MAXDIM ignore it (10_state.md R23, R24). -/
def writeRegister (v : Word) (s : State) : Register → State
  | .id => s
  | .param => s
  | .maxdim => s
  | .geometry => writeGeometry v s
  | .ctrl => writeCtrl v s
  | .status => writeStatus v s
  | .cmd => issue v s

/-- The byte a host reads at offset `o` of plane window `p`: value[j] = Pg(p, 8*b + j, y) (20_memory.md R65). -/
def planeWindowByte (s : State) (p : PlaneIdx) (o : Nat) : Byte :=
  packBits fun j => guarded s p ((8 * (o % s.cfg.stride) + j : Nat) : Int) ((o / s.cfg.stride : Nat) : Int)

/-- What the bytes at offset `o` on become when a host writes `vs` there: bits outside the active region are dropped (R65, R69). -/
def planeWindowWrite (s : State) (p : PlaneIdx) (o : Nat) (vs : List Byte) : List Byte :=
  vs.zipIdx.map fun vk =>
    let b := (o + vk.2) % s.cfg.stride
    maskedByte s p ((o + vk.2) / s.cfg.stride) b fun x => vk.1.getLsbD (x - 8 * b)

/-- The bytes a host reads at offset `o` of frame window `f`, or the offset of the first that holds no value (R66). -/
def frameWindowBytes (s : State) (f : FrameIdx) (o : Nat) : Nat → Except Nat (List Byte)
  | 0 => .ok []
  | n + 1 =>
    match readByte s.mem (frameBase f + o) with
    | none => .error o
    | some v =>
      match frameWindowBytes s f (o + 1) n with
      | .ok vs => .ok (v :: vs)
      | .error e => .error e

/-- What a read that gets an OK response returns; a read of a frame byte that holds no value faults (R66). -/
def readTarget (s : State) (n : Nat) : Target → Except Fault Word
  | .register r => .ok (readRegister s r)
  | .plane p o => .ok (BitVec.ofNat 32 (littleEndian ((List.range n).map fun k => planeWindowByte s p (o + k))))
  | .frame f o =>
    match frameWindowBytes s f o n with
    | .ok vs => .ok (BitVec.ofNat 32 (littleEndian vs))
    | .error e => .error (.uninitRead f (e / 4) (channelAt (e % 4)))

/-- What a write that gets an OK response does. -/
def writeTarget (s : State) (n : Nat) (v : Word) : Target → State
  | .register r => writeRegister v s r
  | .plane p o => { s with mem := writeBytes s.mem (planeBase p + o) (planeWindowWrite s p o (dataBytes v n)) }
  | .frame f o => { s with mem := writeBytes s.mem (frameBase f + o) (dataBytes v n) }

/-- An access that gets an OK response, at the target its address leads to. No read changes the block (R70); the answer is recorded
in `response`. -/
def accessTarget (s : State) (acc : Access) (t : Target) : Host.Outcome State Fault Refusal :=
  match acc with
  | .read w _ =>
    match readTarget s w.bytes t with
    | .ok v => .next { s with response := .data v }
    | .error f => .fault f
  | .write w _ v => .next { writeTarget s w.bytes v t with response := .ok }

/-- One host access: a bus error is a model fault (60_exceptions.md R198, R202), else the access is performed. -/
def hostAccess (acc : Access) (s : State) : Host.Outcome State Fault Refusal :=
  match locate s.cfg acc.address with
  | none => .fault (.busError .unmapped)
  | some t =>
    match targetError s acc t with
    | some k => .fault (.busError k)
    | none => accessTarget s acc t

end Sys2Proof.Machine
end

