-- ==== Sys2Proof/Machine/Compositor.lean ====
section
/-! DEFINITION. The Compositor, COMP (43_compositor.md). -/

namespace Sys2Proof.Machine

/-- What pixel `i` of the destination becomes (R161): the source pixel attenuated where the mask bit at
(i mod WIDTH, i div WIDTH) is set, else the source pixel. -/
def composited (s : State) (fs : FrameIdx) (pm : PlaneIdx) (ratio : Nat × Nat) (i : Nat) : Pixel :=
  if planeBit s pm (i % s.width.toNat) (i / s.width.toNat) then (framePixel s fs i).attenuated ratio else framePixel s fs i

/-- The buffers after COMP (R161): all four bytes of each source pixel are read (fault UninitRead where one holds no value), and the
pixels 0..WIDTH*HEIGHT-1 of F[FD] are written. A code that names no ratio never gets here: `issueError` rejects it (R197). -/
def compResult (fd fs : FrameIdx) (pm : PlaneIdx) (str : StrengthCode) (s : State) : Except Fault Memory :=
  match strengthRatio s.cfg str with
  | none => .ok s.mem
  | some ratio =>
    readingFrame s fs (framePixels s) [.r, .g, .b, .a] (writeFrame s fd (composited s fs pm ratio))

/-- COMP Fd, Fs, Pm, strength (R161, R162: Fd = Fs is allowed). -/
def execComp (fd fs : FrameIdx) (pm : PlaneIdx) (str : StrengthCode) (s : State) : Host.Outcome State Fault Refusal :=
  runCommand (issueError s (.comp fd fs pm str)) (compResult fd fs pm str s) s

end Sys2Proof.Machine
end

