-- ==== Sys2Proof/Machine/Housekeeping.lean ====
section
/-! DEFINITION. The housekeeping commands NOP and CLEAR (44_housekeeping.md). -/

namespace Sys2Proof.Machine

/-- NOP: no buffer changes; BUSY and DONE as for every command (R180). -/
def execNop (s : State) : Host.Outcome State Fault Refusal := runCommand (issueError s .nop) (.ok s.mem) s

/-- CLEAR Pd: every bit of the plane to 0, over its whole storage (R181). -/
def execClear (pd : PlaneIdx) (s : State) : Host.Outcome State Fault Refusal :=
  runCommand (issueError s (.clear pd)) (.ok (clearPlane pd s.mem)) s

end Sys2Proof.Machine
end

