-- ==== Sys2Proof/Machine/Morphology.lean ====
section
/-! DEFINITION. The Morphological Refiner: DILH, DILV, EROH, EROV (42_morphology.md). -/

namespace Sys2Proof.Machine

/-- The OR of the horizontal neighbourhood (R130, R132). -/
def dilateRow (s : State) (ps : PlaneIdx) (x y : Nat) : Bool :=
  guarded s ps ((x : Int) - 1) y || guarded s ps x y || guarded s ps ((x : Int) + 1) y

/-- The OR of the vertical neighbourhood (R131, R133). -/
def dilateCol (s : State) (ps : PlaneIdx) (x y : Nat) : Bool :=
  guarded s ps x ((y : Int) - 1) || guarded s ps x y || guarded s ps x ((y : Int) + 1)

/-- The AND of the horizontal neighbourhood (R130, R134). -/
def erodeRow (s : State) (ps : PlaneIdx) (x y : Nat) : Bool :=
  guarded s ps ((x : Int) - 1) y && guarded s ps x y && guarded s ps ((x : Int) + 1) y

/-- The AND of the vertical neighbourhood (R131, R135). -/
def erodeCol (s : State) (ps : PlaneIdx) (x y : Nat) : Bool :=
  guarded s ps x ((y : Int) - 1) && guarded s ps x y && guarded s ps x ((y : Int) + 1)

/-- DILH Pd, Ps: horizontal dilation (R132). -/
def execDilh (pd ps : PlaneIdx) (s : State) : Host.Outcome State Fault Refusal :=
  runCommand (issueError s (.dilh pd ps)) (.ok (writePlane s pd (dilateRow s ps))) s

/-- DILV Pd, Ps: vertical dilation (R133). -/
def execDilv (pd ps : PlaneIdx) (s : State) : Host.Outcome State Fault Refusal :=
  runCommand (issueError s (.dilv pd ps)) (.ok (writePlane s pd (dilateCol s ps))) s

/-- EROH Pd, Ps: horizontal erosion (R134). -/
def execEroh (pd ps : PlaneIdx) (s : State) : Host.Outcome State Fault Refusal :=
  runCommand (issueError s (.eroh pd ps)) (.ok (writePlane s pd (erodeRow s ps))) s

/-- EROV Pd, Ps: vertical erosion (R135). -/
def execErov (pd ps : PlaneIdx) (s : State) : Host.Outcome State Fault Refusal :=
  runCommand (issueError s (.erov pd ps)) (.ok (writePlane s pd (erodeCol s ps))) s

end Sys2Proof.Machine
end

