-- ==== Sys2Proof/Machine/TemporalDiffer.lean ====
section
/-! DEFINITION. The Temporal Differ, TDIFF (41_temporal_differ.md). -/

namespace Sys2Proof.Machine

/-- out(x, y) of R120: the pixel xor the pixel above it; row -1 reads 0. -/
def rowDiff (s : State) (ps : PlaneIdx) (x y : Nat) : Bool :=
  guarded s ps x y ^^ guarded s ps x ((y : Int) - 1)

/-- TDIFF Pd, Ps: P[PD](x, y) <- P[PS](x, y) xor P[PS](x, y-1) (R120). -/
def execTdiff (pd ps : PlaneIdx) (s : State) : Host.Outcome State Fault Refusal :=
  runCommand (issueError s (.tdiff pd ps)) (.ok (writePlane s pd (rowDiff s ps))) s

end Sys2Proof.Machine
end

