-- ==== Sys2Proof/Machine/Threshold.lean ====
section
/-! DEFINITION. The Thresholder, THRESH (40_thresholder.md). -/

namespace Sys2Proof.Machine

/-- Is any of R, G, B of pixel `i` non-zero: `(r or g or b) != 0` (R110, R111)? The alpha byte is not read. -/
def pixelLit (s : State) (f : FrameIdx) (i : Nat) : Bool :=
  (frameVal s f i .r ||| frameVal s f i .g ||| frameVal s f i .b) != 0#8

/-- THRESH Pd, Fs: P[PD](x, y) <- the pixel y*WIDTH + x is lit (R110); fault UninitRead where one of its R, G, B bytes holds no
value. -/
def execThresh (pd : PlaneIdx) (fs : FrameIdx) (s : State) : Host.Outcome State Fault Refusal :=
  runCommand (issueError s (.thresh pd fs))
    (readingFrame s fs (framePixels s) [.r, .g, .b]
      (writePlane s pd fun x y => pixelLit s fs (y * s.width.toNat + x))) s

end Sys2Proof.Machine
end

