-- ==== Sys2Proof/Machine/Dispatch.lean ====
section
/-! DEFINITION. One arm per command: what the engine does with it (30_encoding.md R97). -/

namespace Sys2Proof.Machine

/-- `perform` of R97 with the completion it ends in, by command. -/
def exec (i : Instr) (s : State) : Host.Outcome State Fault Refusal :=
  match i with
  | .nop => Sys2Proof.Machine.execNop s
  | .thresh pd fs => Sys2Proof.Machine.execThresh pd fs s
  | .tdiff pd ps => Sys2Proof.Machine.execTdiff pd ps s
  | .dilh pd ps => Sys2Proof.Machine.execDilh pd ps s
  | .dilv pd ps => Sys2Proof.Machine.execDilv pd ps s
  | .eroh pd ps => Sys2Proof.Machine.execEroh pd ps s
  | .erov pd ps => Sys2Proof.Machine.execErov pd ps s
  | .comp fd fs pm str => Sys2Proof.Machine.execComp fd fs pm str s
  | .clear pd => Sys2Proof.Machine.execClear pd s

end Sys2Proof.Machine
end

