-- ==== Sys2Proof/Machine/Engine.lean ====
section
/-! DEFINITION. The engine's step (30_encoding.md R97), the reset event (70_reset_and_hazards.md R220 to R222), and what one event does
to the block. -/

namespace Sys2Proof.Machine

/-- The engine's step while BUSY = 1: the command in PEND runs (R97). A PEND that is no command, which no run reaches, gets the
rejection R199 gives its word (log entry 6). -/
def performPending (s : State) : Host.Outcome State Fault Refusal :=
  match decode s.pend with
  | .ok i => exec i s
  | .error e => .next (reject (decodeCmdError e) s)

/-- The engine's turn: its step is enabled exactly when BUSY = 1 (R97); with BUSY = 0 nothing happens (60_exceptions.md R212). -/
def engineTurn (s : State) : Host.Outcome State Fault Refusal :=
  if s.busy then performPending s else .next s

/-- Reset: every piece of state as R221 says, whether BUSY is 0 or 1 (R220, R222). The build is the same and the events still to
come stay (log entry 14). -/
def applyReset (s : State) : State := { State.reset with cfg := s.cfg, inputs := s.inputs }

/-- One event. -/
def applyInput (i : Input) (s : State) : Host.Outcome State Fault Refusal :=
  match i with
  | .access a => hostAccess a s
  | .reset => .next (applyReset s)
  | .engine => engineTurn s

/-- One step of the block with its surroundings: the next event happens; where none is left the engine has its turn, so that an
accepted command completes (weak fairness, 70_reset_and_hazards.md R236; log entry 2). -/
def stepNext (s : State) : Host.Outcome State Fault Refusal :=
  match s.inputs with
  | [] => engineTurn s
  | i :: rest => applyInput i { s with inputs := rest }

/-- `s` with the command word placed where the engine takes its next command from: in PEND, as an acceptance puts it there (R96), the
engine's turn being next (log entry 11). -/
def placePending (v : Word) (s : State) : State := { accept v s with inputs := .engine :: s.inputs }

end Sys2Proof.Machine
end

