-- ==== Sys2Proof/Machine/Step.lean ====
section
/-! DEFINITION. One step of the machine, and a command placed where the next step takes it from. -/

namespace Sys2Proof.Machine

/-- One event of the block: a host access, a reset or the engine's step (Machine/Engine.lean). -/
def step (s : State) : Host.Outcome State Fault Refusal := stepNext s

/-- `s` with the instruction whose bits are `w` stored where `step` takes its next instruction: the latch PEND (10_state.md R35). -/
def State.withFetchWord (s : State) (nbits w : Nat) : State := placePending (tableWord nbits w) s

end Sys2Proof.Machine
end

