-- ==== Sys2Proof/Machine/HostOps.lean ====
section
/-! DEFINITION. The host side the spec defines for programs: the assembler (30_encoding.md R99), the pseudo-instructions (R100) and the
host operations (R101). Nothing here is part of the block; each definition gives the commands or the host accesses it stands for. -/

namespace Sys2Proof.Machine

/-- The five strength names (R99, 43_compositor.md R160). -/
inductive StrengthName where
  | subtle
  | low
  | medium
  | high
  | full
  deriving DecidableEq, Repr

/-- The code of a strength name (R160). -/
def StrengthName.code : StrengthName → Nat
  | .subtle => 0
  | .low => 1
  | .medium => 2
  | .high => 3
  | .full => 4

/-- A strength operand: a name, or `#n` (R99). -/
inductive StrengthOperand where
  | name (n : StrengthName)
  | code (n : Nat)
  deriving DecidableEq, Repr

/-- A source line of R99: a mnemonic with its operands as numbers, destination first; `P4` is plane operand 4. -/
inductive AsmLine where
  | nop
  | thresh (pd fs : Nat)
  | tdiff (pd ps : Nat)
  | dilh (pd ps : Nat)
  | dilv (pd ps : Nat)
  | eroh (pd ps : Nat)
  | erov (pd ps : Nat)
  | comp (fd fs pm : Nat) (str : StrengthOperand)
  | clear (pd : Nat)
  deriving DecidableEq, Repr

/-- Why the assembler refuses a line (R99). -/
inductive AsmError where
  /-- An operand out of range, such as P4, F2 or #5. -/
  | operandOutOfRange
  /-- A plane-to-plane mnemonic whose source and destination are the same plane, also in the expansion of a pseudo-instruction
  (R100, log entry 19). -/
  | samePlane
  deriving DecidableEq, Repr

/-- A plane operand, P0..P3 (R99). -/
def planeOperand (n : Nat) : Except AsmError PlaneIdx := if h : n < 4 then .ok ⟨n, h⟩ else .error .operandOutOfRange

/-- A frame operand, F0 or F1 (R99). -/
def frameOperand (n : Nat) : Except AsmError FrameIdx := if h : n < 2 then .ok ⟨n, h⟩ else .error .operandOutOfRange

/-- A strength operand: a name or #0..#4 (R99). -/
def strengthOperand : StrengthOperand → Except AsmError StrengthCode
  | .name n => .ok (Fin.ofNat 8 n.code)
  | .code n => if n < 5 then .ok (Fin.ofNat 8 n) else .error .operandOutOfRange

/-- The two planes of a plane-to-plane mnemonic, which must differ (R99). -/
def planePair (pd ps : Nat) (build : PlaneIdx → PlaneIdx → Instr) : Except AsmError Instr := do
  let d ← planeOperand pd
  let s ← planeOperand ps
  if d = s then .error .samePlane else .ok (build d s)

/-- The assembler (R99). -/
def assemble : AsmLine → Except AsmError Instr
  | .nop => .ok .nop
  | .thresh pd fs => do return .thresh (← planeOperand pd) (← frameOperand fs)
  | .tdiff pd ps => planePair pd ps .tdiff
  | .dilh pd ps => planePair pd ps .dilh
  | .dilv pd ps => planePair pd ps .dilv
  | .eroh pd ps => planePair pd ps .eroh
  | .erov pd ps => planePair pd ps .erov
  | .comp fd fs pm str => do
    return .comp (← frameOperand fd) (← frameOperand fs) (← planeOperand pm) (← strengthOperand str)
  | .clear pd => do return .clear (← planeOperand pd)

/-- An expansion through scratch plane `pt`, refused where R100's constraint fails: `pt` must be none of `planes`. Such an expansion
would hold a line with one plane twice, which R99 refuses under this name (log entry 19). -/
def throughScratch (pt : PlaneIdx) (planes : List PlaneIdx) (expansion : List Instr) : Except AsmError (List Instr) :=
  if pt ∈ planes then .error .samePlane else .ok expansion

/-- DIL2 Pd, Ps, Pt: the 3×3 box dilation; Pt != Ps, Pt != Pd (R100). -/
def dil2 (pd ps pt : PlaneIdx) : Except AsmError (List Instr) := throughScratch pt [ps, pd] [.dilh pt ps, .dilv pd pt]

/-- ERO2 Pd, Ps, Pt: the 3×3 box erosion; Pt != Ps, Pt != Pd (R100). -/
def ero2 (pd ps pt : PlaneIdx) : Except AsmError (List Instr) := throughScratch pt [ps, pd] [.eroh pt ps, .erov pd pt]

/-- CLOSE Pa, Pt: box dilation then box erosion in place, with Pt as scratch; Pa != Pt (R100). -/
def closePlane (pa pt : PlaneIdx) : Except AsmError (List Instr) := do
  let dilation ← dil2 pa pa pt
  let erosion ← ero2 pa pa pt
  return dilation ++ erosion

/-- REFINE n, Pa, Pt: n copies of CLOSE, nothing when n = 0; Pa != Pt, which holds for n = 0 too (R100). -/
def refinePlane (n : Nat) (pa pt : PlaneIdx) : Except AsmError (List Instr) := do
  let pass ← closePlane pa pt
  return (List.replicate n pass).flatten

/-- A source line with a pseudo-instruction of R100, its operands as numbers. -/
inductive PseudoLine where
  | dil2 (pd ps pt : Nat)
  | ero2 (pd ps pt : Nat)
  | close (pa pt : Nat)
  | refine (n pa pt : Nat)
  deriving DecidableEq, Repr

/-- The commands a pseudo-instruction line stands for (R100); an operand out of range is refused as in R99. -/
def assemblePseudo : PseudoLine → Except AsmError (List Instr)
  | .dil2 pd ps pt => do Sys2Proof.Machine.dil2 (← planeOperand pd) (← planeOperand ps) (← planeOperand pt)
  | .ero2 pd ps pt => do Sys2Proof.Machine.ero2 (← planeOperand pd) (← planeOperand ps) (← planeOperand pt)
  | .close pa pt => do closePlane (← planeOperand pa) (← planeOperand pt)
  | .refine n pa pt => do refinePlane n (← planeOperand pa) (← planeOperand pt)

/-- WR a, v (R101). -/
def wr (a v : Word) : List Input := [.access (.write .w32 a v)]

/-- WRB a, v (R101). -/
def wrb (a v : Word) : List Input := [.access (.write .w8 a v)]

/-- RD a (R101). -/
def rd (a : Word) : List Input := [.access (.read .w32 a)]

/-- WAIT (R101): the engine has its turn and the host's poll of STATUS then finds BUSY = 0, so the loop is one poll long
(log entry 2). -/
def waitIdle : List Input := .engine :: rd 0x018#32

/-- GEOM w, h (R101). -/
def geom (w h : BitVec 16) : List Input := waitIdle ++ wr 0x010#32 (h ++ w)

/-- PIX f, i, (r, g, b, a) (R101). -/
def pix (f : FrameIdx) (i : Nat) (p : Pixel) : List Input :=
  wr (BitVec.ofNat 32 (frameByteAddr f i .r)) (p.a ++ p.b ++ p.g ++ p.r)

/-- A command mnemonic in a host program (R101). -/
def command (i : Instr) : List Input := waitIdle ++ wr 0x01C#32 (encode i)

/-- A sequence of commands in a host program. -/
def commands : List Instr → List Input
  | [] => []
  | i :: is => command i ++ commands is

end Sys2Proof.Machine
end

