-- ==== Sys2Proof/Machine/WordLevel.lean ====
section
/-! DEFINITION. The document's word-level form of the plane operators (10_state.md R38, 42_morphology.md R136, R138): informative in
the spec, and no part of a step. It is here so that R139, which says that it computes the pixel rules' bits for every pack width,
can be stated of the machine's own operators. -/

namespace Sys2Proof.Machine

/-- ceil(WIDTH / W), the interior pack words of a row (R38). -/
def interiorWords (W : Nat) (s : State) : Nat := (s.width.toNat + W - 1) / W

/-- pitch, words per row with one padding word (R38). -/
def pitch (W : Nat) (s : State) : Nat := interiorWords W s + 1

/-- Physical word (r, k): guard rows and padding words and bits are 0, pixel x of row y is bit x mod W of word x div W of physical
row y + 1 (R38). -/
def physicalWord (W : Nat) (s : State) (p : PlaneIdx) (r k : Nat) : BitVec W :=
  BitVec.ofFnLE fun j : Fin W =>
    if k < interiorWords W s then guarded s p ((W * k + j.val : Nat) : Int) ((r : Int) - 1) else false

/-- The word at index i = r*pitch + k (R38). -/
def packedWord (W : Nat) (s : State) (p : PlaneIdx) (i : Nat) : BitVec W :=
  physicalWord W s p (i / pitch W s) (i % pitch W s)

/-- The index of interior word k of logical row y (R138). -/
def wordIndex (W : Nat) (s : State) (y k : Nat) : Nat := (y + 1) * pitch W s + k

/-- L, the left neighbours: carry-in from the last bit of the previous word (R138). -/
def leftWord (W : Nat) (s : State) (p : PlaneIdx) (y k : Nat) : BitVec W :=
  let i := wordIndex W s y k
  (packedWord W s p i <<< 1) ||| (packedWord W s p (i - 1) >>> (W - 1))

/-- R, the right neighbours: carry-in from the first bit of the next word (R138). -/
def rightWord (W : Nat) (s : State) (p : PlaneIdx) (y k : Nat) : BitVec W :=
  let i := wordIndex W s y k
  (packedWord W s p i >>> 1) ||| ((packedWord W s p (i + 1) &&& 1#W) <<< (W - 1))

/-- The last line of R138: the padding bits of the last interior word are cleared. -/
def maskLast (W : Nat) (s : State) (k : Nat) (v : BitVec W) : BitVec W :=
  if k + 1 = interiorWords W s ∧ s.width.toNat % W ≠ 0 then v &&& BitVec.ofNat W (2 ^ (s.width.toNat % W) - 1) else v

/-- DILH by words (R138). -/
def dilhWord (W : Nat) (s : State) (p : PlaneIdx) (y k : Nat) : BitVec W :=
  maskLast W s k (leftWord W s p y k ||| packedWord W s p (wordIndex W s y k) ||| rightWord W s p y k)

/-- EROH by words (R138). -/
def erohWord (W : Nat) (s : State) (p : PlaneIdx) (y k : Nat) : BitVec W :=
  maskLast W s k (leftWord W s p y k &&& packedWord W s p (wordIndex W s y k) &&& rightWord W s p y k)

/-- DILV by words (R138). -/
def dilvWord (W : Nat) (s : State) (p : PlaneIdx) (y k : Nat) : BitVec W :=
  let i := wordIndex W s y k
  packedWord W s p (i - pitch W s) ||| packedWord W s p i ||| packedWord W s p (i + pitch W s)

/-- EROV by words (R138). -/
def erovWord (W : Nat) (s : State) (p : PlaneIdx) (y k : Nat) : BitVec W :=
  let i := wordIndex W s y k
  packedWord W s p (i - pitch W s) &&& packedWord W s p i &&& packedWord W s p (i + pitch W s)

/-- TDIFF by words (R138, 41_temporal_differ.md R120). -/
def tdiffWord (W : Nat) (s : State) (p : PlaneIdx) (y k : Nat) : BitVec W :=
  let i := wordIndex W s y k
  packedWord W s p i ^^^ packedWord W s p (i - pitch W s)

end Sys2Proof.Machine
end

