-- ==== Sys2Proof/Safety.lean ====
section
/-! DEFINITION. The terms claims are made in: which bytes a plane or frame occupies, when a frame can be read; and what holds of every
state a run reaches: the invariants of the block, one by one and together. -/

namespace Sys2Proof.Machine

/-- Is the address a byte that holds a pixel of the active region of plane `p`? -/
def activeByte (s : State) (p : PlaneIdx) (a : Nat) : Prop :=
  ∃ x y, active s x y = true ∧ a = planeByteAddr s.cfg p y (x / 8)

/-- The geometry lies within the build's limits. -/
abbrev geometryFits (s : State) : Prop := s.width.toNat ≤ s.cfg.maxWidth ∧ s.height.toNat ≤ s.cfg.maxHeight

/-- A channel of a pixel. -/
def Pixel.get (p : Pixel) : Channel → Byte
  | .r => p.r
  | .g => p.g
  | .b => p.b
  | .a => p.a

/-- Do the given channels of pixels 0..n-1 of frame `f` all hold a value? -/
def frameSet (s : State) (f : FrameIdx) (n : Nat) (cs : List Channel) : Prop :=
  ∀ i c, i < n → c ∈ cs → (frameByte s f i c).isSome = true

/-- A byte of the storage of a plane or of a frame: planes are MAX_HEIGHT rows of MAX_WIDTH bits (10_state.md R36), frames MAX_PIXELS
pixels (R39). -/
def inStorage (c : Config) (a : Nat) : Bool :=
  (List.finRange 4).any (fun p => decide (planeBase p ≤ a) && decide (a < planeBase p + c.maxHeight * c.stride)) ||
  (List.finRange 2).any (fun f => decide (frameBase f ≤ a) && decide (a < frameBase f + 4 * c.maxPixels))

/-- Buffer memory lists bytes of the buffers' storage only (R36, R39). -/
def State.storageOk (s : State) : Bool := s.mem.all fun c => inStorage s.cfg c.1

/-- Every bit of every plane outside the active region is 0 (R37). -/
def State.paddingZero (s : State) : Prop :=
  ∀ (p : PlaneIdx) (x y : Nat), x < s.cfg.maxWidth → y < s.cfg.maxHeight → active s x y = false → planeBit s p x y = false

/-- While BUSY = 1, PEND holds a command that validation accepts under the current geometry (R35, 30_encoding.md R96). -/
def State.pendingAccepted (s : State) : Prop := s.busy = true → validate s.pend s = none

/-- While a command is pending, neither DONE nor ERR is set (30_encoding.md R96, 60_exceptions.md R200). -/
def State.busyAlone (s : State) : Prop := s.busy = true → s.done = false ∧ s.err = false

/-- ERRCODE is 0 when ERR = 0 and a produced code, 1..5, when ERR = 1 (10_state.md R33, 60_exceptions.md R192). -/
def State.errcodeOk (s : State) : Prop :=
  if s.err then 1 ≤ s.errcode.toNat ∧ s.errcode.toNat ≤ 5 else s.errcode = 0

/-- All of it: the build is legal (00_scope.md R7), memory is canonical, and the five properties above. -/
structure State.Inv (s : State) : Prop where
  cfg : s.cfg.ok = true
  canonical : s.mem.wf = true
  storage : s.storageOk = true
  padding : s.paddingZero
  pending : s.pendingAccepted
  alone : s.busyAlone
  errcode : s.errcodeOk

/-- Does the host see an OK response: the access is no bus error and no read of a byte without a value? -/
def answered (o : Host.Outcome State Fault Refusal) : Bool :=
  match o with
  | .next _ => true
  | .fault _ => false
  | .refused _ => false

end Sys2Proof.Machine
end

