-- ==== Sys2Proof/Certificates/Slice0/Obligations.lean ====
section
/-! DEFINITION. The statements for the provers, from the numbered rules of spec/. The helpers first say in the spec's own terms what a
statement claims (pixels, fields, addresses), so that a statement does not repeat the definitions it is about. -/

namespace Sys2Proof.Claims

open Sys2Proof.Machine

/-! ### Terms of the statements -/

/-- A command has completed and written plane `pd`: every register and status bit is as before but BUSY = 0 and DONE = 1
(30_encoding.md R97); each pixel of the active region of `pd` is `out`, each other bit of every plane's storage is as before; and
every byte that holds no pixel of the active region of `pd` is as before, in all of memory. -/
structure PlaneWritten (s t : State) (pd : PlaneIdx) (out : Nat → Nat → Bool) : Prop where
  registers : t = { s with mem := t.mem, busy := false, done := true }
  pixels : ∀ (q : PlaneIdx) (x y : Nat), x < s.cfg.maxWidth → y < s.cfg.maxHeight →
    planeBit t q x y = if q = pd ∧ x < s.width.toNat ∧ y < s.height.toNat then out x y else planeBit s q x y
  bytes : ∀ a, ¬ activeByte s pd a → readByte t.mem a = readByte s.mem a

/-- A command has completed and written frame `fd`: registers as in `PlaneWritten`; each byte of the pixels 0..WIDTH*HEIGHT-1 of `fd`
is `out`, and every other byte of memory is as before. -/
structure FrameWritten (s t : State) (fd : FrameIdx) (out : Nat → Channel → Byte) : Prop where
  registers : t = { s with mem := t.mem, busy := false, done := true }
  pixels : ∀ i c, i < s.width.toNat * s.height.toNat → frameByte t fd i c = some (out i c)
  bytes : ∀ a, (∀ i c, i < s.width.toNat * s.height.toNat → a ≠ frameByteAddr fd i c) →
    readByte t.mem a = readByte s.mem a

/-- 1 <= WIDTH <= MAX_WIDTH and 1 <= HEIGHT <= MAX_HEIGHT (60_exceptions.md R195). -/
abbrev validGeometry (s : State) : Prop :=
  1 ≤ s.width.toNat ∧ s.width.toNat ≤ s.cfg.maxWidth ∧ 1 ≤ s.height.toNat ∧ s.height.toNat ≤ s.cfg.maxHeight

/-- The pixel to the left in the row, 0 at x = 0 (42_morphology.md R130). -/
def leftOf (s : State) (p : PlaneIdx) (x y : Nat) : Bool := decide (0 < x) && planeBit s p (x - 1) y

/-- The pixel to the right in the row, 0 at x = WIDTH-1 (R130). -/
def rightOf (s : State) (p : PlaneIdx) (x y : Nat) : Bool := decide (x + 1 < s.width.toNat) && planeBit s p (x + 1) y

/-- The pixel above, 0 at row 0 (R131). -/
def above (s : State) (p : PlaneIdx) (x y : Nat) : Bool := decide (0 < y) && planeBit s p x (y - 1)

/-- The pixel below, 0 at row HEIGHT-1 (R131). -/
def below (s : State) (p : PlaneIdx) (x y : Nat) : Bool := decide (y + 1 < s.height.toNat) && planeBit s p x (y + 1)

/-- The bits of a word from `lo` up, `n` of them, as a number (00_scope.md R9). -/
def field (v : Word) (lo n : Nat) : Nat := (v.extractLsb' lo n).toNat

/-- The mask of an opcode's row (spec/opcode_table.json). -/
def maskOf : Nat → Word
  | 0 => 0xFFFFFFFF#32
  | 1 => 0xFFFFFECF#32
  | 7 => 0xFFFFE03F#32
  | 8 => 0xFFFFFFCF#32
  | _ => 0xFFFFFF0F#32

/-- `validate` as R199 writes it: by the table's masks, with `match(op)` = op for every row. -/
def validateByMask (v : Word) (s : State) : Nat :=
  let op := field v 0 4
  if 9 ≤ op then 1
  else if v &&& maskOf op ≠ BitVec.ofNat 32 op then 2
  else if (1 ≤ op ∧ op ≤ 7) ∧ ¬ validGeometry s then 3
  else if (2 ≤ op ∧ op ≤ 6) ∧ field v 6 2 = field v 4 2 then 4
  else if op = 7 ∧ 5 ≤ field v 10 3 then 5
  else 0

/-- The code `validate` reports, 0 for none (R192). -/
def codeOf : Option CmdError → Nat
  | none => 0
  | some e => e.code.toNat

/-- Is a reserved bit or a field the opcode does not use non-zero (30_encoding.md R94, R95)? -/
def unusedBitSet (v : Word) : Prop :=
  field v 13 19 ≠ 0 ∨
    match field v 0 4 with
    | 0 => field v 4 2 ≠ 0 ∨ field v 6 2 ≠ 0 ∨ field v 8 1 ≠ 0 ∨ field v 9 1 ≠ 0 ∨ field v 10 3 ≠ 0
    | 1 => field v 6 2 ≠ 0 ∨ field v 9 1 ≠ 0 ∨ field v 10 3 ≠ 0
    | 7 => field v 4 2 ≠ 0
    | 8 => field v 6 2 ≠ 0 ∨ field v 8 1 ≠ 0 ∨ field v 9 1 ≠ 0 ∨ field v 10 3 ≠ 0
    | _ => field v 8 1 ≠ 0 ∨ field v 9 1 ≠ 0 ∨ field v 10 3 ≠ 0

/-- The CMD write of R96. -/
abbrev cmdWrite (v : Word) : Access := .write .w32 0x01C#32 v

/-- Is the byte address a register, a plane byte or a frame byte (20_memory.md R62, 10_state.md R22, R26, 20_memory.md R67)? -/
def mapped (c : Config) (a : Nat) : Bool :=
  decide (a < 0x00C) || (decide (0x010 ≤ a) && decide (a < 0x020)) ||
  decide (0x01000000 ≤ a ∧ a < 0x01000000 + c.maxHeight * (c.maxWidth / 8)) ||
  decide (0x01100000 ≤ a ∧ a < 0x01100000 + c.maxHeight * (c.maxWidth / 8)) ||
  decide (0x01200000 ≤ a ∧ a < 0x01200000 + c.maxHeight * (c.maxWidth / 8)) ||
  decide (0x01300000 ≤ a ∧ a < 0x01300000 + c.maxHeight * (c.maxWidth / 8)) ||
  decide (0x10000000 ≤ a ∧ a < 0x10000000 + 4 * (c.maxWidth * c.maxHeight)) ||
  decide (0x14000000 ≤ a ∧ a < 0x14000000 + 4 * (c.maxWidth * c.maxHeight))

/-- Is the access a write to GEOMETRY or to CMD, or to a window (20_memory.md R68)? -/
def heldOffWhileBusy (acc : Access) : Bool :=
  decide (0x1000 ≤ acc.address) ||
    match acc with
    | .read _ _ => false
    | .write _ a _ => a == 0x010#32 || a == 0x01C#32

/-- The bus error of R198: the first cause in the order Unmapped, Width, Misaligned, Busy, from the address, the width and BUSY. -/
def firstCause (s : State) (acc : Access) : Option BusErrorKind :=
  if !mapped s.cfg acc.address then some .unmapped
  else if acc.address < 0x1000 ∧ (acc.accessWidth ≠ .w32 ∨ acc.address % 4 ≠ 0) then some .width
  else if 0x1000 ≤ acc.address ∧ acc.address % acc.accessWidth.bytes ≠ 0 then some .misaligned
  else if s.busy ∧ heldOffWhileBusy acc then some .busy
  else none

/-- The ratio of a strength code as R160's table has it; `n` and `d` are FULL_NUM and FULL_DEN. -/
def ratioOf (n d : Nat) : Nat → Nat × Nat
  | 0 => (8, 9)
  | 1 => (4, 5)
  | 2 => (2, 3)
  | 3 => (1, 2)
  | _ => (n, d)

/-- What COMP makes of channel `c` of pixel `i` (43_compositor.md R161). -/
def compByte (s : State) (fs : FrameIdx) (pm : PlaneIdx) (str : StrengthCode) (i : Nat) (c : Channel) : Byte :=
  let ratio := ratioOf s.cfg.fullNum s.cfg.fullDen str.val
  let v := frameVal s fs i c
  if planeBit s pm (i % s.width.toNat) (i / s.width.toNat) then BitVec.ofNat 8 (v.toNat * ratio.1 / ratio.2) else v

/-- The OR of the 3×3 neighbourhood, 0 outside the active region (42_morphology.md R141). -/
def boxDilate (s : State) (p : PlaneIdx) (x y : Nat) : Bool :=
  ([-1, 0, 1] : List Int).any fun i => ([-1, 0, 1] : List Int).any fun j => guarded s p ((x : Int) + i) ((y : Int) + j)

/-- The AND of the 3×3 neighbourhood, 0 outside the active region (R141). -/
def boxErode (s : State) (p : PlaneIdx) (x y : Nat) : Bool :=
  ([-1, 0, 1] : List Int).all fun i => ([-1, 0, 1] : List Int).all fun j => guarded s p ((x : Int) + i) ((y : Int) + j)

/-- Running commands one after the other on the engine; every one must answer a next state. -/
def runs (s : State) : List Instr → State → Prop
  | [], t => t = s
  | i :: is, t => ∃ u, exec i s = .next u ∧ runs u is t

/-- After the commands `is` plane `p` of the active region holds `out`. -/
def leaves (s : State) (is : List Instr) (p : PlaneIdx) (out : Nat → Nat → Bool) : Prop :=
  ∃ t, runs s is t ∧ t.width = s.width ∧ t.height = s.height ∧ t.cfg = s.cfg ∧
    ∀ x y, x < s.width.toNat → y < s.height.toNat → planeBit t p x y = out x y

/-- The step is the engine's turn: it is the next event, or no event is left (log entry 2). -/
def engineHasTurn (s : State) : Prop := s.inputs = [] ∨ ∃ rest, s.inputs = .engine :: rest

/-- The fields of a command word: OP, PD, PS, FS, FD, STR and the reserved bits (30_encoding.md R91). -/
def fieldsOf (v : Word) : List Nat :=
  [field v 0 4, field v 4 2, field v 6 2, field v 8 1, field v 9 1, field v 10 3, field v 13 19]

/-- The assembler takes the line and gives a word with these fields. -/
def assemblesTo (l : AsmLine) (fields : List Nat) : Prop := ∃ i, assemble l = .ok i ∧ fieldsOf (encode i) = fields

/-- The plane-to-plane mnemonics by OP (30_encoding.md R99). -/
def planeMnemonics : List (Nat × (Nat → Nat → AsmLine)) :=
  [(2, .tdiff), (3, .dilh), (4, .dilv), (5, .eroh), (6, .erov)]

/-- The strength operands by code: each name and each `#n` (30_encoding.md R99, 43_compositor.md R160). -/
def strengthOperands : List (Nat × StrengthOperand) :=
  [(0, .name .subtle), (1, .name .low), (2, .name .medium), (3, .name .high), (4, .name .full),
    (0, .code 0), (1, .code 1), (2, .code 2), (3, .code 3), (4, .code 4)]

/-- Every command of an expansion passes validation in every state with a valid geometry, and the whole runs to the end there. -/
def runnable (is : List Instr) : Prop :=
  ∀ s : State, validGeometry s → (∀ i ∈ is, validate (encode i) s = none) ∧ ∃ t, runs s is t

/-- Is the channel read before channel `c` of pixel `i`, pixel by pixel in the order R, G, B, A? -/
abbrev readBefore (j : Nat) (d : Channel) (i : Nat) (c : Channel) : Prop := j < i ∨ (j = i ∧ d.index < c.index)

end Sys2Proof.Claims

open Sys2Proof Sys2Proof.Machine Sys2Proof.Claims

/-! ### Encoding -/

/-- A few words written out from the encoding tables decode to their commands (30_encoding.md R91, R94, R99). -/
def Obligations.SampleWordsDecode : Prop :=
  decode 0x00000000#32 = .ok .nop ∧ decode 0x00000131#32 = .ok (.thresh 3 1) ∧ decode 0x00000012#32 = .ok (.tdiff 1 0) ∧
  decode 0x00000063#32 = .ok (.dilh 2 1) ∧ decode 0x00000094#32 = .ok (.dilv 1 2) ∧ decode 0x000000E5#32 = .ok (.eroh 2 3) ∧
  decode 0x000000B6#32 = .ok (.erov 3 2) ∧ decode 0x00000E87#32 = .ok (.comp 1 0 2 3) ∧ decode 0x00000038#32 = .ok (.clear 3) ∧
  decode 0x00000009#32 = .error .reservedOpcode ∧ decode 0x00000010#32 = .error .reservedBits

/-- Decoding an encoded command gives it back, for every command and every operand (R91 to R94): no field is dropped. -/
def Obligations.DecodeOfEncodeIsIdentity : Prop := ∀ i : Instr, decode (encode i) = .ok i

/-- A word that decodes is the encoding of what it decodes to: no two words mean the same command (R94, R95). -/
def Obligations.EncodeOfDecodeIsIdentity : Prop := ∀ (v : Word) (i : Instr), decode v = .ok i → encode i = v

/-! ### Validation and issue -/

/-- 60_exceptions.md R199: the code reported is the first that applies, in the order of R199, with the masks of the opcode table. -/
def Obligations.ValidationReportsFirstCode : Prop := ∀ (v : Word) (s : State), codeOf (validate v s) = validateByMask v s

/-- 60_exceptions.md R193 to R197: which words and geometries raise each command error, field by field. E_DIM, E_ALIAS and E_STRENGTH
are for the words that no earlier cause rejects (R199); NOP and CLEAR are not checked against the geometry. -/
def Obligations.CommandErrorCausesByField : Prop :=
  ∀ (v : Word) (s : State),
    (validate v s = some .opcode ↔ 9 ≤ field v 0 4) ∧
    (validate v s = some .rsvd ↔ field v 0 4 ≤ 8 ∧ unusedBitSet v) ∧
    (validate v s = some .dim ↔
      (1 ≤ field v 0 4 ∧ field v 0 4 ≤ 7) ∧ ¬ unusedBitSet v ∧
        (s.width = 0 ∨ s.height = 0 ∨ s.cfg.maxWidth < s.width.toNat ∨ s.cfg.maxHeight < s.height.toNat)) ∧
    (validate v s = some .aliasing ↔
      (2 ≤ field v 0 4 ∧ field v 0 4 ≤ 6) ∧ ¬ unusedBitSet v ∧ validGeometry s ∧ field v 6 2 = field v 4 2) ∧
    (validate v s = some .strength ↔
      field v 0 4 = 7 ∧ ¬ unusedBitSet v ∧ validGeometry s ∧ 5 ≤ field v 10 3)

/-- 30_encoding.md R96: a write of v to CMD gets bus error Busy, or is discarded, rejected or accepted; and validation reads v, GEOMETRY
and MAXDIM only. -/
def Obligations.CmdWriteIssuesCommand : Prop :=
  (∀ (v : Word) (s : State),
    hostAccess (cmdWrite v) s =
      if s.busy then .fault (.busError .busy)
      else if s.err then .next { s with response := .ok }
      else match validate v s with
        | some e => .next { s with err := true, errcode := e.code, response := .ok }
        | none => .next { s with pend := v, done := false, busy := true, response := .ok }) ∧
  (∀ (v : Word) (s t : State), t.width = s.width → t.height = s.height → t.cfg.maxWidth = s.cfg.maxWidth →
    t.cfg.maxHeight = s.cfg.maxHeight → validate v t = validate v s)

/-- 60_exceptions.md R191: a rejected command changes ERR and ERRCODE and nothing else of the block. -/
def Obligations.RejectedCommandIsPrecise : Prop :=
  ∀ (v : Word) (s : State) (e : CmdError), s.busy = false → s.err = false → validate v s = some e →
    ∃ t, hostAccess (cmdWrite v) s = .next t ∧ t.err = true ∧ t.errcode = e.code ∧
      { t with err := s.err, errcode := s.errcode, response := s.response } = s

/-- 60_exceptions.md R200, R206: while ERR = 1 a CMD write is discarded, not even ERRCODE changes; a STATUS write with bit 2 set clears
ERR and ERRCODE, and the next CMD write is validated again. -/
def Obligations.ErrorIsStickyUntilCleared : Prop :=
  ∀ (v w : Word) (s : State), s.busy = false → s.err = true → w.getLsbD 2 = true →
    hostAccess (cmdWrite v) s = .next { s with response := .ok } ∧
    ∃ t, hostAccess (.write .w32 0x018#32 w) s = .next t ∧ t.err = false ∧ t.errcode = 0 ∧
      (validate v s = none →
        ∃ u, hostAccess (cmdWrite v) t = .next u ∧ u.busy = true ∧ u.done = false ∧ u.pend = v ∧ u.mem = s.mem) ∧
      (∀ e, validate v s = some e → ∃ u, hostAccess (cmdWrite v) t = .next u ∧ u.err = true ∧ u.errcode = e.code)

/-! ### The engine -/

/-- 30_encoding.md R97: when the engine has its turn (it is the next event, or no event is left) and BUSY = 1, a step is the execution of
the command PEND decodes to, on the state without that event; with BUSY = 0 the turn changes nothing. The turn when no event is left is
DEDUCED from the fairness of 70_reset_and_hazards.md R236 (log entry 2). -/
def Obligations.StepExecutesPendingCommand : Prop :=
  ∀ (s : State) (i : Instr) (rest : List Input), decode s.pend = .ok i → s.busy = true →
    (s.inputs = .engine :: rest → step s = exec i { s with inputs := rest }) ∧
    (s.inputs = [] → step s = exec i s) ∧
    (step { s with busy := false, inputs := .engine :: rest } = .next { s with busy := false, inputs := rest })

/-- The command word that `withFetchWord` places is the one the next step executes (log entry 11; 10_state.md R35). -/
def Obligations.PlacedCommandIsExecutedNext : Prop :=
  ∀ (s : State) (w : Nat) (i : Instr), w < 2 ^ 32 → decodeTableWord 32 w = some i →
    step (s.withFetchWord 32 w) = exec i { s with pend := BitVec.ofNat 32 w, done := false, busy := true }

/-- 30_encoding.md R97: when the engine has its turn, its step on an accepted command clears BUSY and sets DONE and changes buffers only,
the event of the turn being taken from the list; it can fail only by reading a frame byte that holds no value (10_state.md R40). That
the engine also has its turn when no event is left is not R97 but DEDUCED from the fairness of 70_reset_and_hazards.md R236
(log entry 2). -/
def Obligations.EngineStepCompletesCommand : Prop :=
  ∀ s : State, engineHasTurn s → s.busy = true → validate s.pend s = none →
    (∃ m, step s = .next { s with inputs := s.inputs.tail, mem := m, busy := false, done := true }) ∨
    (∃ f i c, frameByte s f i c = none ∧ step s = .fault (.uninitRead f i c))

/-- A command whose own checks refuse it takes that rejection on the engine: the MODEL's choice (log entry 6) for states that no run
reaches, with the code of 60_exceptions.md R199 and no buffer touched. -/
def Obligations.RefusedCommandTakesItsRejection : Prop :=
  ∀ (i : Instr) (s : State) (e : CmdError), validate (encode i) s = some e →
    exec i s = .next { s with busy := false, err := true, errcode := e.code }

/-! ### The commands -/

/-- 44_housekeeping.md R180: NOP's word is 0; a word with OP = 0 is accepted under every geometry if it is 0 and is E_RSVD otherwise;
the CMD write sets BUSY and clears DONE, and performing it clears BUSY and sets DONE and changes nothing else, so that irq is raised
when IE_DONE = 1. -/
def Obligations.NopOnlySetsDone : Prop :=
  encode .nop = 0 ∧
  (∀ (v : Word) (s : State), field v 0 4 = 0 → validate v s = if v = 0 then none else some .rsvd) ∧
  (∀ s : State, s.busy = false → s.err = false →
    hostAccess (cmdWrite 0) s = .next { s with pend := 0, done := false, busy := true, response := .ok }) ∧
  (∀ s : State, exec .nop s = .next { s with busy := false, done := true }) ∧
  (∀ s t : State, exec .nop s = .next t → s.ieDone = true → irq t = true)

/-- 44_housekeeping.md R181: CLEAR's word; a word with OP = 8 is accepted under every geometry unless it has an unused bit set, which is
E_RSVD; the CMD write sets BUSY and clears DONE; CLEAR completes, leaving every byte of the plane's window 0 and every other byte of
memory and every other register as before. -/
def Obligations.ClearZeroesWholePlane : Prop :=
  (∀ (v : Word) (s : State), field v 0 4 = 8 →
    (unusedBitSet v → validate v s = some .rsvd) ∧ (¬ unusedBitSet v → validate v s = none)) ∧
  ∀ pd : PlaneIdx,
    encode (.clear pd) = (0x00000008#32 ||| (BitVec.ofNat 32 pd.val <<< 4)) ∧
    (∀ s : State, s.busy = false → s.err = false → hostAccess (cmdWrite (encode (.clear pd))) s =
      .next { s with pend := encode (.clear pd), done := false, busy := true, response := .ok }) ∧
    (∀ s : State, ∃ t, exec (.clear pd) s = .next t ∧ t = { s with mem := t.mem, busy := false, done := true } ∧
      (∀ a, readByte t.mem a =
        if 0x01000000 + 0x00100000 * pd.val ≤ a ∧ a < 0x01000000 + 0x00100000 * (pd.val + 1) then some 0#8
        else readByte s.mem a) ∧
      (s.cfg.ok = true → ∀ (q : PlaneIdx) (x y : Nat), x < s.cfg.maxWidth → y < s.cfg.maxHeight →
        planeBit t q x y = if q = pd then false else planeBit s q x y))

/-- 40_thresholder.md R110, R111: under a valid geometry, with the R, G and B bytes of the frame's pixels written, THRESH completes and
sets each pixel of the destination where one of R, G, B is non-zero. Alpha bytes may hold no value. -/
def Obligations.ThreshMarksLitPixels : Prop :=
  ∀ (s : State) (pd : PlaneIdx) (fs : FrameIdx), s.cfg.ok = true → validGeometry s →
    frameSet s fs (s.width.toNat * s.height.toNat) [.r, .g, .b] →
    ∃ t, exec (.thresh pd fs) s = .next t ∧
      PlaneWritten s t pd fun x y =>
        let i := y * s.width.toNat + x
        decide (frameVal s fs i .r ≠ 0 ∨ frameVal s fs i .g ≠ 0 ∨ frameVal s fs i .b ≠ 0)

/-- 10_state.md R40, 40_thresholder.md R110: THRESH under a valid geometry faults on an R, G or B byte of the frame that holds no value.
Which byte the fault names, the first in reading order, is DEDUCED (log entry 9). -/
def Obligations.ThreshFaultsOnUnwrittenByte : Prop :=
  ∀ (s : State) (pd : PlaneIdx) (fs : FrameIdx) (i : Nat) (c : Channel), validGeometry s →
    i < s.width.toNat * s.height.toNat → c ≠ .a → frameByte s fs i c = none →
    (∀ j d, d ≠ .a → readBefore j d i c → (frameByte s fs j d).isSome = true) →
    exec (.thresh pd fs) s = .fault (.uninitRead fs i c)

/-- 41_temporal_differ.md R120, R121: with different planes under a valid geometry TDIFF completes, and each pixel becomes the source
pixel xor the one above; row 0 is copied. -/
def Obligations.TdiffXorsWithRowAbove : Prop :=
  ∀ (s : State) (pd ps : PlaneIdx), s.cfg.ok = true → validGeometry s → ps ≠ pd →
    ∃ t, exec (.tdiff pd ps) s = .next t ∧
      PlaneWritten s t pd fun x y => planeBit s ps x y ^^ above s ps x y

/-- 42_morphology.md R132: DILH has OP = 3 and completes with the OR of each pixel and its two neighbours in the row. -/
def Obligations.DilhOrsRowNeighbours : Prop :=
  ∀ (pd ps : PlaneIdx), field (encode (.dilh pd ps)) 0 4 = 3 ∧
    ∀ s : State, s.cfg.ok = true → validGeometry s → ps ≠ pd →
      ∃ t, exec (.dilh pd ps) s = .next t ∧
        PlaneWritten s t pd fun x y => leftOf s ps x y || planeBit s ps x y || rightOf s ps x y

/-- 42_morphology.md R133: DILV has OP = 4 and completes with the OR of each pixel and the ones above and below. -/
def Obligations.DilvOrsColumnNeighbours : Prop :=
  ∀ (pd ps : PlaneIdx), field (encode (.dilv pd ps)) 0 4 = 4 ∧
    ∀ s : State, s.cfg.ok = true → validGeometry s → ps ≠ pd →
      ∃ t, exec (.dilv pd ps) s = .next t ∧
        PlaneWritten s t pd fun x y => above s ps x y || planeBit s ps x y || below s ps x y

/-- 42_morphology.md R134: EROH has OP = 5 and completes with the AND of each pixel and its two neighbours in the row; so x = 0 and
x = WIDTH-1 become 0. -/
def Obligations.ErohAndsRowNeighbours : Prop :=
  ∀ (pd ps : PlaneIdx), field (encode (.eroh pd ps)) 0 4 = 5 ∧
    ∀ s : State, s.cfg.ok = true → validGeometry s → ps ≠ pd →
      ∃ t, exec (.eroh pd ps) s = .next t ∧
        (PlaneWritten s t pd fun x y => leftOf s ps x y && planeBit s ps x y && rightOf s ps x y) ∧
        ∀ y, y < s.height.toNat → planeBit t pd 0 y = false ∧ planeBit t pd (s.width.toNat - 1) y = false

/-- 42_morphology.md R135: EROV has OP = 6 and completes with the AND of each pixel and the ones above and below; so the first and the
last row become 0. -/
def Obligations.ErovAndsColumnNeighbours : Prop :=
  ∀ (pd ps : PlaneIdx), field (encode (.erov pd ps)) 0 4 = 6 ∧
    ∀ s : State, s.cfg.ok = true → validGeometry s → ps ≠ pd →
      ∃ t, exec (.erov pd ps) s = .next t ∧
        (PlaneWritten s t pd fun x y => above s ps x y && planeBit s ps x y && below s ps x y) ∧
        ∀ x, x < s.width.toNat → planeBit t pd x 0 = false ∧ planeBit t pd x (s.height.toNat - 1) = false

/-- 43_compositor.md R161, R165: under a valid geometry, with a named strength and all four bytes of the source frame's pixels written,
COMP completes: each masked pixel is attenuated in all four channels with floor division, each other pixel is copied; FD = FS is
allowed. -/
def Obligations.CompAttenuatesMaskedPixels : Prop :=
  ∀ (s : State) (fd fs : FrameIdx) (pm : PlaneIdx) (str : StrengthCode), s.cfg.ok = true → validGeometry s → str.val < 5 →
    frameSet s fs (s.width.toNat * s.height.toNat) [.r, .g, .b, .a] →
    ∃ t, exec (.comp fd fs pm str) s = .next t ∧ FrameWritten s t fd (compByte s fs pm str)

/-- 10_state.md R40, 43_compositor.md R161: COMP under a valid geometry and a named strength faults on any byte of the source frame's
pixels that holds no value. Which byte the fault names is DEDUCED (log entry 9). -/
def Obligations.CompFaultsOnUnwrittenByte : Prop :=
  ∀ (s : State) (fd fs : FrameIdx) (pm : PlaneIdx) (str : StrengthCode) (i : Nat) (c : Channel), validGeometry s →
    str.val < 5 → i < s.width.toNat * s.height.toNat → frameByte s fs i c = none →
    (∀ j d, readBefore j d i c → (frameByte s fs j d).isSome = true) →
    exec (.comp fd fs pm str) s = .fault (.uninitRead fs i c)

/-- 43_compositor.md R160, R163: the code of each strength name and the ratio of each code, num <= den and den >= 1; codes 5 to 7 name
none and are rejected; and for every strength the product fits 16 bits and the attenuated byte is the exact floor quotient, at most
the byte itself. -/
def Obligations.StrengthRatiosAttenuateExactly : Prop :=
  [StrengthName.subtle, .low, .medium, .high, .full].map StrengthName.code = [0, 1, 2, 3, 4] ∧
  (∀ (c : Config) (str : StrengthCode),
    strengthRatio c str = if str.val < 5 then some (ratioOf c.fullNum c.fullDen str.val) else none) ∧
  (∀ (s : State) (fd fs : FrameIdx) (pm : PlaneIdx) (str : StrengthCode), validGeometry s → 5 ≤ str.val →
    validate (encode (.comp fd fs pm str)) s = some .strength) ∧
  (∀ (c : Config) (str : StrengthCode) (ratio : Nat × Nat) (v : Byte), c.ok = true → strengthRatio c str = some ratio →
    ratio.1 ≤ ratio.2 ∧ 1 ≤ ratio.2 ∧ v.toNat * ratio.1 ≤ 65025 ∧
    (attenuate ratio v).toNat = v.toNat * ratio.1 / ratio.2 ∧ attenuate ratio v ≤ v)

/-- 43_compositor.md R162: COMP with FD = FS computes the same pixels as COMP into the other frame, and leaves each unmasked pixel as it
was. -/
def Obligations.CompInPlaceEqualsCopy : Prop :=
  ∀ (s : State) (fd fs : FrameIdx) (pm : PlaneIdx) (str : StrengthCode), s.cfg.ok = true → validGeometry s → str.val < 5 →
    fd ≠ fs → frameSet s fs (s.width.toNat * s.height.toNat) [.r, .g, .b, .a] →
    ∃ t u, exec (.comp fs fs pm str) s = .next t ∧ exec (.comp fd fs pm str) s = .next u ∧
      ∀ i c, i < s.width.toNat * s.height.toNat →
        frameByte t fs i c = frameByte u fd i c ∧ frameByte u fs i c = frameByte s fs i c ∧
        (planeBit s pm (i % s.width.toNat) (i / s.width.toNat) = false → frameByte t fs i c = frameByte s fs i c)

/-- 43_compositor.md R164: after COMP each pixel of the frame is the source pixel where the mask bit is 0 and the attenuated source pixel
where it is 1; the two coincide for a ratio with num = den, which only strength full with FULL_NUM = FULL_DEN has. -/
def Obligations.CompPartitionsPixels : Prop :=
  (∀ (s t : State) (fd fs : FrameIdx) (pm : PlaneIdx) (str : StrengthCode) (ratio : Nat × Nat),
    s.cfg.ok = true → validGeometry s → strengthRatio s.cfg str = some ratio → exec (.comp fd fs pm str) s = .next t →
    ∀ x y, x < s.width.toNat → y < s.height.toNat →
      (planeBit s pm x y = false → framePixel t fd (y * s.width.toNat + x) = framePixel s fs (y * s.width.toNat + x)) ∧
      (planeBit s pm x y = true →
        framePixel t fd (y * s.width.toNat + x) = (framePixel s fs (y * s.width.toNat + x)).attenuated ratio)) ∧
  (∀ (c : Config) (str : StrengthCode) (n d : Nat), c.ok = true → strengthRatio c str = some (n, d) →
    (n = d → str.val = 4 ∧ c.fullNum = c.fullDen ∧ ∀ p : Pixel, p.attenuated (n, d) = p))

/-! ### Laws of the plane operators -/

/-- 42_morphology.md R140: each dilation keeps every set pixel, each erosion sets no new one, and all four operators are monotone: a
source that grows bit by bit gives an output that does not shrink. -/
def Obligations.RefinerOperatorsAreExtensiveAndMonotone : Prop :=
  ∀ (s s' : State) (pd ps : PlaneIdx), s.cfg.ok = true → validGeometry s → ps ≠ pd →
    s'.cfg = s.cfg → s'.width = s.width → s'.height = s.height →
    (∀ x y, x < s.width.toNat → y < s.height.toNat → planeBit s ps x y = true → planeBit s' ps x y = true) →
    (∀ op ∈ [Instr.dilh, Instr.dilv, Instr.eroh, Instr.erov],
      ∃ t t', exec (op pd ps) s = .next t ∧ exec (op pd ps) s' = .next t' ∧
        ∀ x y, x < s.width.toNat → y < s.height.toNat → planeBit t pd x y = true → planeBit t' pd x y = true) ∧
    (∀ op ∈ [Instr.dilh, Instr.dilv], ∃ t, exec (op pd ps) s = .next t ∧
      ∀ x y, x < s.width.toNat → y < s.height.toNat → planeBit s ps x y = true → planeBit t pd x y = true) ∧
    (∀ op ∈ [Instr.eroh, Instr.erov], ∃ t, exec (op pd ps) s = .next t ∧
      ∀ x y, x < s.width.toNat → y < s.height.toNat → planeBit t pd x y = true → planeBit s ps x y = true)

/-- 42_morphology.md R141: the horizontal and the vertical pass commute, and together they are the 3×3 box operators with zero outside
the active region. -/
def Obligations.PassesCommuteToBoxOperators : Prop :=
  ∀ (s : State) (pd ps pt : PlaneIdx), s.cfg.ok = true → validGeometry s → pt ≠ ps → pt ≠ pd →
    leaves s [.dilh pt ps, .dilv pd pt] pd (boxDilate s ps) ∧ leaves s [.dilv pt ps, .dilh pd pt] pd (boxDilate s ps) ∧
    leaves s [.eroh pt ps, .erov pd pt] pd (boxErode s ps) ∧ leaves s [.erov pt ps, .eroh pd pt] pd (boxErode s ps)

/-- 42_morphology.md R142, the opening: dilating an erosion sets no pixel that was not set, along rows, along columns and for the box
operators. -/
def Obligations.OpeningIsBelowTheMask : Prop :=
  ∀ (s : State) (pd ps pt pu pv : PlaneIdx), s.cfg.ok = true → validGeometry s → pt ≠ ps → pd ≠ pt → pu ≠ pt → pv ≠ pu →
    pd ≠ pv →
    ∃ a b c, runs s [.eroh pt ps, .dilh pd pt] a ∧ runs s [.erov pt ps, .dilv pd pt] b ∧
      runs s [.eroh pt ps, .erov pu pt, .dilh pv pu, .dilv pd pv] c ∧
      ∀ x y, x < s.width.toNat → y < s.height.toNat →
        (planeBit a pd x y = true ∨ planeBit b pd x y = true ∨ planeBit c pd x y = true → planeBit s ps x y = true)

/-- 42_morphology.md R142, the closing (90_conflicts.md C1): eroding a dilation keeps every set pixel away from the border and is 0 on
the border, along rows, along columns and for the box operators. -/
def Obligations.ClosingHoldsAwayFromBorder : Prop :=
  ∀ (s : State) (pd ps pt pu pv : PlaneIdx), s.cfg.ok = true → validGeometry s → pt ≠ ps → pd ≠ pt → pu ≠ pt → pv ≠ pu →
    pd ≠ pv →
    ∃ a b c, runs s [.dilh pt ps, .eroh pd pt] a ∧ runs s [.dilv pt ps, .erov pd pt] b ∧
      runs s [.dilh pt ps, .dilv pu pt, .eroh pv pu, .erov pd pv] c ∧
      ∀ x y, x < s.width.toNat → y < s.height.toNat →
        (if 1 ≤ x ∧ x + 2 ≤ s.width.toNat then planeBit s ps x y = true → planeBit a pd x y = true
          else planeBit a pd x y = false) ∧
        (if 1 ≤ y ∧ y + 2 ≤ s.height.toNat then planeBit s ps x y = true → planeBit b pd x y = true
          else planeBit b pd x y = false) ∧
        (if (1 ≤ x ∧ x + 2 ≤ s.width.toNat) ∧ (1 ≤ y ∧ y + 2 ≤ s.height.toNat) then
          planeBit s ps x y = true → planeBit c pd x y = true
          else planeBit c pd x y = false)

/-- 42_morphology.md R139: the word-level algorithms of R138 compute, for every pack width, exactly the bits of the pixel rules that the
machine's commands use, and leave every padding bit of the last word 0; bit j of L is the pixel at x-1 and bit j of R the pixel at
x+1. -/
def Obligations.WordFormsComputePixelRules : Prop :=
  ∀ (w : PackWidth) (s : State) (p : PlaneIdx) (y k j : Nat), y < s.height.toNat → k < interiorWords w.bits s → j < w.bits →
    let x := w.bits * k + j
    let inside := decide (x < s.width.toNat)
    (leftWord w.bits s p y k).getLsbD j = guarded s p ((x : Int) - 1) y ∧
    (rightWord w.bits s p y k).getLsbD j = guarded s p ((x : Int) + 1) y ∧
    (dilhWord w.bits s p y k).getLsbD j = (inside && dilateRow s p x y) ∧
    (erohWord w.bits s p y k).getLsbD j = (inside && erodeRow s p x y) ∧
    (dilvWord w.bits s p y k).getLsbD j = (inside && dilateCol s p x y) ∧
    (erovWord w.bits s p y k).getLsbD j = (inside && erodeCol s p x y) ∧
    (tdiffWord w.bits s p y k).getLsbD j = (inside && rowDiff s p x y)

/-! ### Invariants -/

/-- The invariants hold right after reset (70_reset_and_hazards.md R221). -/
def Obligations.InvariantsHoldAtReset : Prop := State.reset.Inv

/-- Every step keeps all the invariants, in every state that has them (10_state.md R33, R35, R36, R37, R39). -/
def Obligations.StepKeepsInvariants : Prop := ∀ s t : State, s.Inv → step s = .next t → t.Inv

/-- Every step keeps buffer memory in its canonical form, in every state whatever. -/
def Obligations.StepKeepsMemoryCanonical : Prop :=
  ∀ s t : State, s.mem.wf = true → step s = .next t → t.mem.wf = true

/-- 10_state.md R37, 42_morphology.md R137: every plane bit outside the active region is 0 after reset, and every step keeps it so,
whatever the step does to the geometry. -/
def Obligations.StepKeepsPaddingZero : Prop :=
  State.reset.paddingZero ∧
  ∀ s t : State, s.cfg.ok = true → s.paddingZero → step s = .next t → t.paddingZero

/-- 10_state.md R35, 30_encoding.md R96, R97: every step keeps PEND acceptable and DONE and ERR clear while BUSY = 1; so the engine never
meets a command that validation rejects, and never computes a plane operator in place. -/
def Obligations.StepKeepsPendingAccepted : Prop :=
  ∀ s t : State, s.pendingAccepted → s.busyAlone → step s = .next t →
    t.pendingAccepted ∧ t.busyAlone ∧
    (t.busy = true → ∃ i, decode t.pend = .ok i ∧ i.wellFormed = true ∧ ∀ pd, i ≠ .tdiff pd pd ∧ i ≠ .dilh pd pd)

/-- 10_state.md R33, 60_exceptions.md R192: every step keeps ERRCODE 0 while ERR = 0 and in 1..5 while ERR = 1. -/
def Obligations.StepKeepsErrorCodeProduced : Prop :=
  ∀ s t : State, s.errcodeOk → step s = .next t → t.errcodeOk

/-! ### Reset -/

/-- 70_reset_and_hazards.md R221: what reset leaves, in `State.reset` and after a reset event in any state. That no event waits, that
PEND's bits are 0 and that nothing is answered are the MODEL's choices (log entries 3, 5, 11) and no part of this. -/
def Obligations.ResetLeavesGivenValues : Prop :=
  ∀ (s : State) (rest : List Input), s.inputs = .reset :: rest →
    ∃ t, step s = .next t ∧ t.cfg = s.cfg ∧ t.inputs = rest ∧
      ∀ u ∈ [t, State.reset],
        u.width = 0 ∧ u.height = 0 ∧ u.ieDone = false ∧ u.ieErr = false ∧ u.busy = false ∧ u.done = false ∧ u.err = false ∧
        u.errcode = 0 ∧ irq u = false ∧
        (u.cfg.ok = true → ∀ (p : PlaneIdx) (x y : Nat), x < u.cfg.maxWidth → y < u.cfg.maxHeight → planeBit u p x y = false) ∧
        (∀ f i c, frameByte u f i c = none) ∧
        readRegister u .id = 0x464D5644#32 ∧ readRegister u .param = paramWord u.cfg ∧ readRegister u .maxdim = maxdimWord u.cfg

/-- 70_reset_and_hazards.md R222: a reset while a command is pending gives the same state whether the command completed before the reset
or never ran. -/
def Obligations.ResetAbandonsPendingCommand : Prop :=
  ∀ (s t : State) (rest : List Input), s.busy = true → s.inputs = .engine :: .reset :: rest → step s = .next t →
    ∃ u, step t = .next u ∧ step { s with inputs := .reset :: rest } = .next u ∧ u.busy = false

/-! ### The host bus -/

/-- 60_exceptions.md R198 with 10_state.md R26 and 20_memory.md R62 to R64, R67, R68: an access gets the first bus error that applies, in
the order Unmapped, Width, Misaligned, Busy, and no other; and an aligned window access stays within one row of a plane and within one
pixel of a frame. That the first byte's address decides which word or window byte the access is at is DEDUCED (log entry 8). -/
def Obligations.BusErrorIsFirstCause : Prop :=
  (∀ (s : State) (acc : Access), s.cfg.ok = true →
    ∀ k, hostAccess acc s = .fault (.busError k) ↔ firstCause s acc = some k) ∧
  (∀ (c : Config) (w : AccessWidth) (o k : Nat), c.ok = true → o % w.bytes = 0 → k < w.bytes →
    (o + k) / c.stride = o / c.stride ∧ (o + k) / 4 = o / 4)

/-- 20_memory.md R68: while BUSY = 1 every mapped, aligned window access and every write to GEOMETRY or CMD gets bus error Busy, while
reads of every register and writes to CTRL and STATUS still get an OK response. -/
def Obligations.BusyHoldsOffTheHost : Prop :=
  ∀ s : State, s.busy = true → s.cfg.ok = true →
    (∀ acc : Access, 0x1000 ≤ acc.address → mapped s.cfg acc.address = true → acc.address % acc.accessWidth.bytes = 0 →
      hostAccess acc s = .fault (.busError .busy)) ∧
    (∀ v : Word, hostAccess (.write .w32 0x010#32 v) s = .fault (.busError .busy) ∧
      hostAccess (cmdWrite v) s = .fault (.busError .busy)) ∧
    (∀ a ∈ [0x000#32, 0x004#32, 0x008#32, 0x010#32, 0x014#32, 0x018#32, 0x01C#32],
      ∃ v, hostAccess (.read .w32 a) s = .next { s with response := .data v }) ∧
    (∀ v : Word, ∀ a ∈ [0x014#32, 0x018#32], ∃ t, hostAccess (.write .w32 a v) s = .next t ∧ t.busy = true ∧ t.pend = s.pend)

/-- 10_state.md R24, R25, R27, R28, R29: writes to ID, PARAM and MAXDIM change nothing of the block; ID reads its constant, PARAM and
MAXDIM their fields and CMD 0, in every state and without a side effect. -/
def Obligations.ConstantRegistersReadTheirFields : Prop :=
  ∀ (s : State) (v : Word), s.cfg.ok = true →
    (∀ a ∈ [0x000#32, 0x004#32, 0x008#32], hostAccess (.write .w32 a v) s = .next { s with response := .ok }) ∧
    hostAccess (.read .w32 0x000#32) s = .next { s with response := .data 0x464D5644#32 } ∧
    hostAccess (.read .w32 0x01C#32) s = .next { s with response := .data 0 } ∧
    ∃ p m : Word, hostAccess (.read .w32 0x004#32) s = .next { s with response := .data p } ∧
      hostAccess (.read .w32 0x008#32) s = .next { s with response := .data m } ∧
      field p 0 8 = s.cfg.packWidth.bits ∧ field p 8 4 = 4 ∧ field p 12 4 = 2 ∧ field p 16 16 = 0 ∧
      (s.cfg.packWidth = .w64 → p = 0x00002440#32) ∧
      field m 0 16 = s.cfg.maxWidth ∧ field m 16 16 = s.cfg.maxHeight

/-- 10_state.md R30, R31: a GEOMETRY write while BUSY = 0 stores both fields, whatever their values, and clears every bit of every plane,
even when the value is the one held; a later read returns the value written; the frames and the other registers keep theirs. While
BUSY = 1 it gets bus error Busy. -/
def Obligations.GeometryWriteClearsPlanes : Prop :=
  ∀ (s : State) (v : Word),
    (s.busy = true → hostAccess (.write .w32 0x010#32 v) s = .fault (.busError .busy)) ∧
    (s.busy = false → ∃ t, hostAccess (.write .w32 0x010#32 v) s = .next t ∧
      t = { s with width := t.width, height := t.height, mem := t.mem, response := .ok } ∧
      t.width.toNat = field v 0 16 ∧ t.height.toNat = field v 16 16 ∧
      (s.cfg.ok = true → ∀ (p : PlaneIdx) (x y : Nat), x < s.cfg.maxWidth → y < s.cfg.maxHeight → planeBit t p x y = false) ∧
      (∀ a, a < 0x01000000 ∨ 0x01400000 ≤ a → readByte t.mem a = readByte s.mem a) ∧
      hostAccess (.read .w32 0x010#32) t = .next { t with response := .data v })

/-- 10_state.md R32: a CTRL write stores the two enables at once, whether BUSY is 0 or 1, and changes nothing else; the reserved bits
read 0. -/
def Obligations.CtrlWriteStoresEnables : Prop :=
  ∀ (s : State) (v : Word), ∃ t, hostAccess (.write .w32 0x014#32 v) s = .next t ∧
    t = { s with ieDone := v.getLsbD 0, ieErr := v.getLsbD 1, response := .ok } ∧
    hostAccess (.read .w32 0x014#32) t = .next { t with response := .data (v &&& 3#32) }

/-- 10_state.md R33: STATUS reads BUSY in bit 0, DONE in bit 1, ERR in bit 2, ERRCODE in 7:4 and 0 elsewhere, without a side effect. -/
def Obligations.StatusReadsItsFields : Prop :=
  ∀ s : State, ∃ v : Word, hostAccess (.read .w32 0x018#32) s = .next { s with response := .data v } ∧
    v.getLsbD 0 = s.busy ∧ v.getLsbD 1 = s.done ∧ v.getLsbD 2 = s.err ∧ v.getLsbD 3 = false ∧
    v.extractLsb' 4 4 = s.errcode ∧ field v 8 24 = 0

/-- 10_state.md R34: a STATUS write acts on its two W1C bits only, whether BUSY is 0 or 1; once it has cleared ERR the block accepts
commands again. -/
def Obligations.StatusWriteClearsOnlyOnes : Prop :=
  ∀ (s : State) (v : Word), ∃ t, hostAccess (.write .w32 0x018#32 v) s = .next t ∧
    t = { s with
      done := if v.getLsbD 1 then false else s.done
      err := if v.getLsbD 2 then false else s.err
      errcode := if v.getLsbD 2 then 0 else s.errcode
      response := .ok } ∧
    (v.getLsbD 2 = true → s.busy = false → ∀ w : Word, validate w s = none →
      ∃ u, hostAccess (cmdWrite w) t = .next u ∧ u.busy = true ∧ u.pend = w)

/-- 10_state.md R41 (60_exceptions.md R203, R204): irq follows its inputs: it is 0 after reset and high exactly when a pending bit and
its enable are both 1; a write that clears both pending bits or both enables makes it low at once, and setting the enable of a
pending bit makes it high at once. -/
def Obligations.IrqFollowsPendingAndEnables : Prop :=
  irq State.reset = false ∧ ∀ (s t : State) (v : Word),
    (irq s = true ↔ (s.done = true ∧ s.ieDone = true) ∨ (s.err = true ∧ s.ieErr = true)) ∧
    (hostAccess (.write .w32 0x018#32 v) s = .next t → v.getLsbD 1 = true → v.getLsbD 2 = true → irq t = false) ∧
    (hostAccess (.write .w32 0x014#32 v) s = .next t → v.getLsbD 0 = false → v.getLsbD 1 = false → irq t = false) ∧
    (hostAccess (.write .w32 0x014#32 v) s = .next t → s.done = true → v.getLsbD 0 = true → irq t = true) ∧
    (hostAccess (.write .w32 0x014#32 v) s = .next t → s.err = true → v.getLsbD 1 = true → irq t = true)

/-- 20_memory.md R65, R69, R61: a read of 1, 2 or 4 bytes of a plane window while BUSY = 0 returns the pixels of one row, lowest pixel in
bit 0, with 0 for every pixel outside the active region. -/
def Obligations.PlaneWindowReadsPixels : Prop :=
  ∀ (s : State) (w : AccessWidth) (a : Word) (p : PlaneIdx) (o : Nat), s.cfg.ok = true → s.busy = false →
    a.toNat = 0x01000000 + 0x00100000 * p.val + o → o < s.cfg.maxHeight * s.cfg.stride → a.toNat % w.bytes = 0 →
    ∃ v : Word, hostAccess (.read w a) s = .next { s with response := .data v } ∧
      ∀ j, v.getLsbD j =
        (decide (j < 8 * w.bytes) && active s (8 * (o % s.cfg.stride) + j) (o / s.cfg.stride) &&
          planeBit s p (8 * (o % s.cfg.stride) + j) (o / s.cfg.stride))

/-- 20_memory.md R65, R69: a write of 1, 2 or 4 bytes to a plane window while BUSY = 0 sets the pixels of the active region it covers and
drops every other bit; no other pixel, byte or register changes. -/
def Obligations.PlaneWindowWritesActivePixels : Prop :=
  ∀ (s : State) (w : AccessWidth) (a v : Word) (p : PlaneIdx) (o : Nat), s.cfg.ok = true → s.busy = false →
    a.toNat = 0x01000000 + 0x00100000 * p.val + o → o < s.cfg.maxHeight * s.cfg.stride → a.toNat % w.bytes = 0 →
    ∃ t, hostAccess (.write w a v) s = .next t ∧ t = { s with mem := t.mem, response := .ok } ∧
      (∀ (q : PlaneIdx) (x y : Nat), x < s.cfg.maxWidth → y < s.cfg.maxHeight →
        planeBit t q x y =
          if q = p ∧ y = o / s.cfg.stride ∧ 8 * (o % s.cfg.stride) ≤ x ∧ x < 8 * (o % s.cfg.stride) + 8 * w.bytes ∧
            active s x y = true then v.getLsbD (x - 8 * (o % s.cfg.stride))
          else planeBit s q x y) ∧
      (∀ b, b < a.toNat ∨ a.toNat + w.bytes ≤ b → readByte t.mem b = readByte s.mem b)

/-- 20_memory.md R66, R61: a write of 1, 2 or 4 bytes to a frame window while BUSY = 0 stores the low bytes of the data, lowest first, and
changes nothing else. -/
def Obligations.FrameWindowWritesBytes : Prop :=
  ∀ (s : State) (w : AccessWidth) (a v : Word) (f : FrameIdx) (o : Nat), s.cfg.ok = true → s.busy = false →
    a.toNat = 0x10000000 + 0x04000000 * f.val + o → o < 4 * s.cfg.maxPixels → a.toNat % w.bytes = 0 →
    ∃ t, hostAccess (.write w a v) s = .next t ∧ t = { s with mem := t.mem, response := .ok } ∧
      ∀ b, readByte t.mem b =
        if a.toNat ≤ b ∧ b < a.toNat + w.bytes then some (v.extractLsb' (8 * (b - a.toNat)) 8) else readByte s.mem b

/-- 20_memory.md R66, R61, 10_state.md R40: a read of 1, 2 or 4 bytes of a frame window while BUSY = 0 returns the bytes, lowest first, if
each holds a value, so a 32-bit read of a pixel is A, B, G, R from the top byte down; else it faults and names the first byte that holds
none (which one is DEDUCED, log entry 9). -/
def Obligations.FrameWindowReadsBytes : Prop :=
  ∀ (s : State) (w : AccessWidth) (a : Word) (f : FrameIdx) (o : Nat), s.cfg.ok = true → s.busy = false →
    a.toNat = 0x10000000 + 0x04000000 * f.val + o → o < 4 * s.cfg.maxPixels → a.toNat % w.bytes = 0 →
    ((∀ k, k < w.bytes → (readByte s.mem (a.toNat + k)).isSome = true) →
      ∃ v : Word, hostAccess (.read w a) s = .next { s with response := .data v } ∧
        (∀ k, k < 4 → some (v.extractLsb' (8 * k) 8) = if k < w.bytes then readByte s.mem (a.toNat + k) else some 0#8) ∧
        (w = .w32 → ∀ i, o = 4 * i →
          v = frameVal s f i .a ++ frameVal s f i .b ++ frameVal s f i .g ++ frameVal s f i .r)) ∧
    (∀ k, k < w.bytes → readByte s.mem (a.toNat + k) = none →
      (∀ l, l < k → (readByte s.mem (a.toNat + l)).isSome = true) →
      hostAccess (.read w a) s = .fault (.uninitRead f ((o + k) / 4) (channelAt ((o + k) % 4))))

/-- 20_memory.md R70: no read has a side effect on the block, and the same read at once again returns the same value. -/
def Obligations.ReadsHaveNoSideEffect : Prop :=
  ∀ (s t : State) (w : AccessWidth) (a : Word), hostAccess (.read w a) s = .next t →
    t = { s with response := t.response } ∧ hostAccess (.read w a) t = .next t

/-- 10_state.md R35, R25: no host read tells PEND: two states that differ in PEND only answer every read alike. -/
def Obligations.PendingLatchIsUnreadable : Prop :=
  ∀ (s : State) (v : Word) (w : AccessWidth) (a : Word),
    (∀ t, hostAccess (.read w a) s = .next t → hostAccess (.read w a) { s with pend := v } = .next { t with pend := v }) ∧
    (∀ f, hostAccess (.read w a) s = .fault f → hostAccess (.read w a) { s with pend := v } = .fault f)

/-! ### What changes what, over all steps -/

/-- 00_scope.md R7, 10_state.md R31, R42, 70_reset_and_hazards.md R220: no step changes the build's parameters; GEOMETRY changes only by a
host write to GEOMETRY while BUSY = 0 or by reset. -/
def Obligations.GeometryChangesOnlyByWriteOrReset : Prop :=
  ∀ s t : State, step s = .next t →
    t.cfg = s.cfg ∧
    (t.width ≠ s.width ∨ t.height ≠ s.height →
      (∃ rest, s.inputs = .reset :: rest) ∨
      (∃ v rest, s.inputs = .access (.write .w32 0x010#32 v) :: rest ∧ s.busy = false))

/-- 30_encoding.md R96: BUSY rises only by a CMD write that is accepted. -/
def Obligations.BusyRisesOnlyByAcceptedWrite : Prop :=
  ∀ s t : State, step s = .next t → s.busy = false → t.busy = true →
    ∃ v rest, s.inputs = .access (cmdWrite v) :: rest ∧ s.err = false ∧ validate v s = none ∧ t.pend = v

/-- 20_memory.md R78, 10_state.md R39: a frame byte changes only by a host write into that frame's window, by the engine's turn on a
COMP with that destination frame, within its active pixels, or by reset. -/
def Obligations.FramesChangeOnlyByTheirWriters : Prop :=
  ∀ (s t : State) (f : FrameIdx) (i : Nat) (c : Channel), s.cfg.ok = true → i < s.cfg.maxPixels → step s = .next t →
    frameByte t f i c ≠ frameByte s f i c →
    (∃ rest, s.inputs = .reset :: rest) ∨
    (∃ w a v rest, s.inputs = .access (.write w a v) :: rest ∧ s.busy = false ∧ a.toNat ≤ frameByteAddr f i c ∧
      frameByteAddr f i c < a.toNat + w.bytes) ∨
    (engineHasTurn s ∧ s.busy = true ∧ i < s.width.toNat * s.height.toNat ∧
      ∃ fs pm str, decode s.pend = .ok (.comp f fs pm str))

/-- 20_memory.md R78, 10_state.md R36: a plane bit changes only by a host write into that plane's window, by a GEOMETRY write, by the
engine's turn on a command with that destination plane, or by reset. -/
def Obligations.PlanesChangeOnlyByTheirWriters : Prop :=
  ∀ (s t : State) (p : PlaneIdx) (x y : Nat), s.cfg.ok = true → x < s.cfg.maxWidth → y < s.cfg.maxHeight →
    step s = .next t → planeBit t p x y ≠ planeBit s p x y →
    (∃ rest, s.inputs = .reset :: rest) ∨
    (∃ w a v rest, s.inputs = .access (.write w a v) :: rest ∧ s.busy = false ∧
      (a = 0x010#32 ∨ (a.toNat ≤ planeByteAddr s.cfg p y (x / 8) ∧ planeByteAddr s.cfg p y (x / 8) < a.toNat + w.bytes))) ∨
    (engineHasTurn s ∧ s.busy = true ∧ ∃ i, decode s.pend = .ok i ∧
      ((∃ fs, i = .thresh p fs) ∨ i = .clear p ∨
        ∃ ps, i = .tdiff p ps ∨ i = .dilh p ps ∨ i = .dilv p ps ∨ i = .eroh p ps ∨ i = .erov p ps))

/-- "every command word has a defined response, every access has an OK or a bus-error response" (93_implementation_defined.md section
4): no step is refused, and a fault is a bus error of a host access or a read of a frame byte that holds no value
(60_exceptions.md R202). -/
def Obligations.EveryStepHasDefinedResponse : Prop :=
  ∀ s : State, (∃ t, step s = .next t) ∨
    (∃ k a rest, s.inputs = .access a :: rest ∧ step s = .fault (.busError k)) ∨
    (∃ f i c, step s = .fault (.uninitRead f i c) ∧ frameByte s f i c = none)

/-! ### The assembler -/

/-- 30_encoding.md R99: the table of source lines, mnemonic by mnemonic, for every operand in range, each strength by name and by
code; a line that is taken gives a well-formed command, whose word decodes to it and passes validation under a valid geometry; an
operand out of range is refused in every operand place of every mnemonic, and so is a plane-to-plane line with one plane twice. A line
with both faults is refused for its operand: the MODEL's choice (log entry 19). -/
def Obligations.AssemblerGivesAcceptedCommands : Prop :=
  (∀ (l : AsmLine) (i : Instr), assemble l = .ok i →
    i.wellFormed = true ∧ decode (encode i) = .ok i ∧ ∀ s : State, validGeometry s → validate (encode i) s = none) ∧
  assemblesTo .nop [0, 0, 0, 0, 0, 0, 0] ∧
  (∀ d s, if d < 4 ∧ s < 2 then assemblesTo (.thresh d s) [1, d, 0, s, 0, 0, 0]
    else assemble (.thresh d s) = .error .operandOutOfRange) ∧
  (∀ op line, (op, line) ∈ planeMnemonics → ∀ d s,
    if d < 4 ∧ s < 4 then if d = s then assemble (line d s) = .error .samePlane else assemblesTo (line d s) [op, d, s, 0, 0, 0, 0]
    else assemble (line d s) = .error .operandOutOfRange) ∧
  (∀ code str, (code, str) ∈ strengthOperands → ∀ d s m,
    if d < 2 ∧ s < 2 ∧ m < 4 then assemblesTo (.comp d s m str) [7, 0, m, s, d, code, 0]
    else assemble (.comp d s m str) = .error .operandOutOfRange) ∧
  (∀ n d s m, 5 ≤ n → assemble (.comp d s m (.code n)) = .error .operandOutOfRange) ∧
  (∀ d, if d < 4 then assemblesTo (.clear d) [8, d, 0, 0, 0, 0, 0] else assemble (.clear d) = .error .operandOutOfRange)

/-- 30_encoding.md R100: the expansion of each pseudo-instruction where its constraint holds, in order, with n copies of CLOSE for REFINE
n and nothing for n = 0; the expansion's commands pass validation and run to the end under a valid geometry. Where the constraint fails
or an operand is out of range no commands come out; under which name it is refused is DEDUCED (log entry 19). -/
def Obligations.PseudoInstructionsExpandWithinConstraints : Prop :=
  (∀ pd ps pt : PlaneIdx,
    if pt ≠ ps ∧ pt ≠ pd then
      assemblePseudo (.dil2 pd.val ps.val pt.val) = .ok [.dilh pt ps, .dilv pd pt] ∧ runnable [.dilh pt ps, .dilv pd pt] ∧
      assemblePseudo (.ero2 pd.val ps.val pt.val) = .ok [.eroh pt ps, .erov pd pt] ∧ runnable [.eroh pt ps, .erov pd pt]
    else
      assemblePseudo (.dil2 pd.val ps.val pt.val) = .error .samePlane ∧
      assemblePseudo (.ero2 pd.val ps.val pt.val) = .error .samePlane) ∧
  (∀ pa pt : PlaneIdx,
    if pa ≠ pt then
      assemblePseudo (.close pa.val pt.val) = .ok [.dilh pt pa, .dilv pa pt, .eroh pt pa, .erov pa pt] ∧
      assemblePseudo (.refine 0 pa.val pt.val) = .ok [] ∧
      ∀ n, ∃ is, assemblePseudo (.refine n pa.val pt.val) = .ok is ∧ runnable is ∧
        assemblePseudo (.refine (n + 1) pa.val pt.val) = .ok ([.dilh pt pa, .dilv pa pt, .eroh pt pa, .erov pa pt] ++ is)
    else
      assemblePseudo (.close pa.val pt.val) = .error .samePlane ∧
      ∀ n, assemblePseudo (.refine n pa.val pt.val) = .error .samePlane) ∧
  (∀ pd ps pt, 4 ≤ pd ∨ 4 ≤ ps ∨ 4 ≤ pt →
    assemblePseudo (.dil2 pd ps pt) = .error .operandOutOfRange ∧ assemblePseudo (.ero2 pd ps pt) = .error .operandOutOfRange) ∧
  (∀ n pa pt, 4 ≤ pa ∨ 4 ≤ pt →
    assemblePseudo (.close pa pt) = .error .operandOutOfRange ∧ assemblePseudo (.refine n pa pt) = .error .operandOutOfRange)
end

