-- ==== Sys2Proof/Laws/Assembler.lean ====
section
/-! SUPPORT. Laws of the assembler: what each operand place takes, and what each pseudo-instruction expands to. -/

namespace Sys2Proof.Machine

@[simp] theorem planeOperand_val (p : PlaneIdx) : planeOperand p.val = .ok p := by simp [planeOperand]

theorem planeOperand_of_lt {n : Nat} (h : n < 4) : planeOperand n = .ok ⟨n, h⟩ := by simp [planeOperand, h]

theorem planeOperand_out {n : Nat} (h : 4 ≤ n) : planeOperand n = .error .operandOutOfRange := by
  simp [planeOperand, Nat.not_lt.mpr h]

@[simp] theorem frameOperand_val (f : FrameIdx) : frameOperand f.val = .ok f := by
  simp only [frameOperand, f.isLt, dite_true]

theorem frameOperand_of_lt {n : Nat} (h : n < 2) : frameOperand n = .ok ⟨n, h⟩ := by simp [frameOperand, h]

theorem frameOperand_out {n : Nat} (h : 2 ≤ n) : frameOperand n = .error .operandOutOfRange := by
  simp [frameOperand, Nat.not_lt.mpr h]

theorem strengthOperand_out {n : Nat} (h : 5 ≤ n) : strengthOperand (.code n) = .error .operandOutOfRange := by
  simp [strengthOperand, Nat.not_lt.mpr h]

theorem throughScratch_ok {pt : PlaneIdx} {planes : List PlaneIdx} (h : pt ∉ planes) (is : List Instr) :
    throughScratch pt planes is = .ok is := by simp [throughScratch, h]

theorem throughScratch_error {pt : PlaneIdx} {planes : List PlaneIdx} (h : pt ∈ planes) (is : List Instr) :
    throughScratch pt planes is = .error .samePlane := by simp [throughScratch, h]

/-- CLOSE where its constraint holds (30_encoding.md R100). -/
theorem closePlane_ok {pa pt : PlaneIdx} (h : pa ≠ pt) :
    closePlane pa pt = .ok [.dilh pt pa, .dilv pa pt, .eroh pt pa, .erov pa pt] := by
  have hn : pt ∉ [pa, pa] := by simpa using h.symm
  unfold closePlane dil2 ero2
  rw [throughScratch_ok hn, throughScratch_ok hn]
  rfl

theorem closePlane_error (pa : PlaneIdx) : closePlane pa pa = .error .samePlane := by
  unfold closePlane dil2
  rw [throughScratch_error (by simp)]
  rfl

/-- REFINE where its constraint holds: n copies of CLOSE (R100). -/
theorem refinePlane_ok (n : Nat) {pa pt : PlaneIdx} (h : pa ≠ pt) :
    refinePlane n pa pt = .ok (List.replicate n [Instr.dilh pt pa, .dilv pa pt, .eroh pt pa, .erov pa pt]).flatten := by
  unfold refinePlane
  rw [closePlane_ok h]
  rfl

theorem refinePlane_error (n : Nat) (pa : PlaneIdx) : refinePlane n pa pa = .error .samePlane := by
  unfold refinePlane
  rw [closePlane_error]
  rfl

end Sys2Proof.Machine
end

