-- ==== Sys2Proof/Laws/Memory.lean ====
section
/-! SUPPORT. Laws of buffer memory: a byte written is read back, every other byte is left alone, and each operation keeps the canonical
form. The reading laws hold for every list of cells, canonical or not. -/

namespace Sys2Proof.Machine

@[simp] theorem readByte_nil (a : Nat) : readByte [] a = blank a := rfl

theorem readByte_cons (c : Host.Cell) (m : Memory) (a : Nat) :
    readByte (c :: m) a = if c.1 = a then some c.2 else readByte m a := rfl

/-- Keeping only some addresses: a kept address reads as before. -/
theorem readByte_filter_keep (keep : Nat → Bool) (m : Memory) (a : Nat) (h : keep a = true) :
    readByte (m.filter fun c => keep c.1) a = readByte m a := by
  induction m with
  | nil => rfl
  | cons c m ih =>
    by_cases hc : keep c.1 = true
    · rw [List.filter_cons_of_pos (by simpa using hc), readByte_cons, readByte_cons, ih]
    · rw [List.filter_cons_of_neg (by simpa using hc), ih, readByte_cons, if_neg]
      rintro rfl; exact hc h

/-- Keeping only some addresses: a dropped address reads as unlisted. -/
theorem readByte_filter_drop (keep : Nat → Bool) (m : Memory) (a : Nat) (h : keep a = false) :
    readByte (m.filter fun c => keep c.1) a = blank a := by
  induction m with
  | nil => rfl
  | cons c m ih =>
    by_cases hc : keep c.1 = true
    · rw [List.filter_cons_of_pos (by simpa using hc), readByte_cons, ih, if_neg]
      rintro rfl; simp [h] at hc
    · rw [List.filter_cons_of_neg (by simpa using hc), ih]

theorem readByte_insertCell (c : Host.Cell) (m : Memory) (a : Nat) (hm : c.1 = a → ∀ d ∈ m, d.1 ≠ a) :
    readByte (insertCell c m) a = if c.1 = a then some c.2 else readByte m a := by
  induction m with
  | nil => rfl
  | cons d m ih =>
    have ih := ih fun h e he => hm h e (List.mem_cons_of_mem _ he)
    unfold insertCell
    split
    · rfl
    · rw [readByte_cons, readByte_cons, ih]
      by_cases hca : c.1 = a
      · simp [hca, hm hca d (List.mem_cons_self ..)]
      · simp [hca]

/-- The spec of one byte write: the byte is read back, every other byte is left alone. -/
theorem readByte_writeByte (m : Memory) (a : Nat) (v : Byte) (b : Nat) :
    readByte (writeByte m a v) b = if a = b then some v else readByte m b := by
  unfold writeByte
  by_cases hab : a = b
  · subst hab
    have hdrop := readByte_filter_drop (fun k => k != a) m a (by simp)
    by_cases hb : blank a = some v
    · simp only [hb, if_true]; rw [hdrop, hb]
    · simp only [hb, if_false]
      rw [readByte_insertCell]
      · simp
      · intro _ d hd
        simpa using (List.mem_filter.mp hd).2
  · have hkeep := readByte_filter_keep (fun k => k != a) m b (by simpa using fun h => hab h.symm)
    by_cases hb : blank a = some v
    · simp only [hb, if_true, hab, if_false]; exact hkeep
    · simp only [hb, if_false, hab]
      rw [readByte_insertCell]
      · simp [hab, hkeep]
      · intro h; exact absurd h hab

/-- The spec of writing consecutive bytes: an address inside the range reads the byte written there, any other is left alone. -/
theorem readByte_writeBytes (vs : List Byte) (m : Memory) (a b : Nat) :
    readByte (writeBytes m a vs) b =
      if a ≤ b ∧ b < a + vs.length then vs[b - a]? else readByte m b := by
  induction vs generalizing m a with
  | nil =>
    have : ¬ (a ≤ b ∧ b < a + ([] : List Byte).length) := by simp
    simp only [writeBytes, this, if_false]
  | cons v vs ih =>
    rw [writeBytes, ih, readByte_writeByte]
    by_cases h1 : a = b
    · subst h1; simp
    · by_cases h2 : a ≤ b ∧ b < a + (v :: vs).length
      · have h3 : a + 1 ≤ b ∧ b < a + 1 + vs.length := by simp at h2; omega
        rw [if_pos h3, if_pos h2]
        have : b - a = (b - (a + 1)) + 1 := by omega
        rw [this, List.getElem?_cons_succ]
      · have h3 : ¬ (a + 1 ≤ b ∧ b < a + 1 + vs.length) := by simp at h2; omega
        rw [if_neg h3, if_neg h2, if_neg h1]

theorem readByte_writeBytes_outside (vs : List Byte) (m : Memory) (a b : Nat) (h : b < a ∨ a + vs.length ≤ b) :
    readByte (writeBytes m a vs) b = readByte m b := by
  rw [readByte_writeBytes, if_neg (by omega)]

/-- The spec of clearing a range: inside it every byte reads as unlisted, outside it nothing changes. -/
theorem readByte_clearRange (lo hi : Nat) (m : Memory) (a : Nat) :
    readByte (clearRange lo hi m) a = if lo ≤ a ∧ a < hi then blank a else readByte m a := by
  unfold clearRange
  by_cases h : lo ≤ a ∧ a < hi
  · rw [if_pos h]
    exact readByte_filter_drop (fun k => decide (k < lo) || decide (hi ≤ k)) m a (by simp; omega)
  · rw [if_neg h]
    exact readByte_filter_keep (fun k => decide (k < lo) || decide (hi ≤ k)) m a (by simp; omega)

/-! ### The canonical form -/

/-- Every listed byte differs from what its address reads as when unlisted. -/
abbrev noBlank (m : Memory) : Prop := ∀ c ∈ m, blank c.1 ≠ some c.2

theorem wf_iff (m : Memory) : m.wf = true ↔ risingFrom 0 m = true ∧ noBlank m := by
  simp [Memory.wf, noBlank]

theorem wf_nil : Memory.wf [] = true := rfl

theorem risingFrom_mono {lo lo' : Nat} (h : lo' ≤ lo) : ∀ {m : Memory}, risingFrom lo m = true → risingFrom lo' m = true
  | [], _ => rfl
  | c :: m, hm => by
    simp only [risingFrom, Bool.and_eq_true, decide_eq_true_eq] at hm ⊢
    exact ⟨by omega, hm.2⟩

theorem risingFrom_mem {lo : Nat} : ∀ {m : Memory}, risingFrom lo m = true → ∀ c ∈ m, lo ≤ c.1
  | c :: m, hm, d, hd => by
    simp only [risingFrom, Bool.and_eq_true, decide_eq_true_eq] at hm
    rcases List.mem_cons.mp hd with rfl | hd
    · exact hm.1
    · have := risingFrom_mem hm.2 d hd; omega

theorem risingFrom_filter (keep : Host.Cell → Bool) :
    ∀ {lo : Nat} {m : Memory}, risingFrom lo m = true → risingFrom lo (m.filter keep) = true
  | _, [], _ => rfl
  | lo, c :: m, hm => by
    simp only [risingFrom, Bool.and_eq_true, decide_eq_true_eq] at hm
    have ih := risingFrom_filter keep hm.2
    by_cases hc : keep c = true
    · rw [List.filter_cons_of_pos hc]
      simp [risingFrom, hm.1, ih]
    · rw [List.filter_cons_of_neg hc]
      exact risingFrom_mono (by omega) ih

theorem risingFrom_insertCell (c : Host.Cell) :
    ∀ {lo : Nat} {m : Memory}, risingFrom lo m = true → lo ≤ c.1 → (∀ d ∈ m, d.1 ≠ c.1) →
      risingFrom lo (insertCell c m) = true
  | lo, [], _, h, _ => by simp [insertCell, risingFrom, h]
  | lo, d :: m, hm, h, hne => by
    simp only [risingFrom, Bool.and_eq_true, decide_eq_true_eq] at hm
    unfold insertCell
    split
    · simp [risingFrom, h, hm.2]; omega
    · have hd := hne d (List.mem_cons_self ..)
      have := risingFrom_insertCell c hm.2 (by omega) fun e he => hne e (List.mem_cons_of_mem _ he)
      simp [risingFrom, hm.1, this]

theorem mem_insertCell (c d : Host.Cell) (m : Memory) : d ∈ insertCell c m ↔ d = c ∨ d ∈ m := by
  induction m with
  | nil => simp [insertCell]
  | cons e m ih =>
    unfold insertCell
    split
    · simp
    · simp only [List.mem_cons, ih]; tauto

/-- A property of addresses and bytes that holds of the cells before and of the cell written holds of the cells after. -/
theorem mem_writeByte {m : Memory} {a : Nat} {v : Byte} {c : Host.Cell} (h : c ∈ writeByte m a v) :
    c = (a, v) ∨ c ∈ m := by
  unfold writeByte at h
  simp only at h
  split at h
  · exact .inr (List.mem_filter.mp h).1
  · rcases (mem_insertCell _ _ _).mp h with h | h
    · exact .inl h
    · exact .inr (List.mem_filter.mp h).1

theorem writeByte_wf {m : Memory} (a : Nat) (v : Byte) (hm : m.wf = true) : (writeByte m a v).wf = true := by
  rw [wf_iff] at hm ⊢
  have hr := risingFrom_filter (fun c => c.1 != a) hm.1
  by_cases hb : blank a = some v
  · simp only [writeByte, hb, if_true]
    exact ⟨hr, fun c hc => hm.2 c (List.mem_filter.mp hc).1⟩
  · refine ⟨?_, fun c hc => ?_⟩
    · simp only [writeByte, hb, if_false]
      exact risingFrom_insertCell _ hr (Nat.zero_le _) fun d hd => by simpa using (List.mem_filter.mp hd).2
    · rcases mem_writeByte hc with rfl | hc
      · exact hb
      · exact hm.2 c hc

theorem writeBytes_wf (vs : List Byte) {m : Memory} (a : Nat) (hm : m.wf = true) : (writeBytes m a vs).wf = true := by
  induction vs generalizing m a with
  | nil => exact hm
  | cons v vs ih => exact ih (a + 1) (writeByte_wf a v hm)

theorem clearRange_wf (lo hi : Nat) {m : Memory} (hm : m.wf = true) : (clearRange lo hi m).wf = true := by
  rw [wf_iff] at hm ⊢
  exact ⟨risingFrom_filter _ hm.1, fun c hc => hm.2 c (List.mem_filter.mp hc).1⟩

theorem clearPlanes_wf {m : Memory} (hm : m.wf = true) : (clearPlanes m).wf = true := clearRange_wf _ _ hm

theorem clearPlane_wf (p : PlaneIdx) {m : Memory} (hm : m.wf = true) : (clearPlane p m).wf = true := clearRange_wf _ _ hm

/-- Where the cells of a byte sequence come from: from before, or from an address of the range written. -/
theorem mem_writeBytes (vs : List Byte) {m : Memory} {a : Nat} {c : Host.Cell} (h : c ∈ writeBytes m a vs) :
    c ∈ m ∨ (a ≤ c.1 ∧ c.1 < a + vs.length) := by
  induction vs generalizing m a with
  | nil => exact .inl h
  | cons v vs ih =>
    rcases ih h with h | h
    · rcases mem_writeByte h with rfl | h
      · right; simp
      · exact .inl h
    · right; simp; omega

end Sys2Proof.Machine
end

