-- ==== Sys2Proof/Laws/Plane.lean ====
section
/-! SUPPORT. Laws of planes and frames: where their bytes lie, that no two places share a byte, and what writing a plane's or a frame's
active region makes each pixel read as. -/

namespace Sys2Proof.Machine

/-! ### The build -/

/-- What `Config.ok` says, with the window row as a whole number of bytes. -/
theorem Config.ok_facts {c : Config} (h : c.ok = true) :
    c.stride * 8 = c.maxWidth ∧ 64 ≤ c.maxWidth ∧ c.maxWidth ≤ 65472 ∧ 1 ≤ c.maxHeight ∧ c.maxHeight ≤ 65535 ∧
      c.maxWidth * c.maxHeight ≤ 8388608 ∧ c.fullNum ≤ c.fullDen ∧ 1 ≤ c.fullDen ∧ c.fullDen ≤ 255 := by
  simp only [Config.ok, Bool.and_eq_true, beq_iff_eq, decide_eq_true_eq] at h
  obtain ⟨⟨⟨⟨⟨⟨⟨⟨h1, h2⟩, h3⟩, h4⟩, h5⟩, h6⟩, h7⟩, h8⟩, h9⟩ := h
  exact ⟨by unfold Config.stride; omega, h2, h3, h4, h5, h6, h7, h8, h9⟩

/-- A plane's storage fits its window. -/
theorem Config.planeBytes_le {c : Config} (h : c.ok = true) : c.maxHeight * c.stride ≤ 0x00100000 := by
  obtain ⟨h1, _, _, _, _, h6, _⟩ := Config.ok_facts h
  have : c.maxWidth * c.maxHeight = 8 * (c.maxHeight * c.stride) := by rw [← h1]; ring
  omega

/-- A frame's storage fits its window. -/
theorem Config.frameBytes_le {c : Config} (h : c.ok = true) : 4 * c.maxPixels ≤ 0x04000000 := by
  obtain ⟨_, _, _, _, _, h6, _⟩ := Config.ok_facts h
  unfold Config.maxPixels; omega

/-! ### Bytes of pixels -/

/-- Bit `j` of a packed byte. -/
theorem packBits_getLsbD (f : Nat → Bool) {j : Nat} (h : j < 8) : (packBits f).getLsbD j = f j := by
  unfold packBits
  rw [BitVec.getLsbD_ofBoolListLE]
  interval_cases j <;> rfl

/-- The byte `b` of row `y` lies inside the plane's storage. -/
theorem rowByte_lt {c : Config} {y b : Nat} (hy : y < c.maxHeight) (hb : b < c.stride) :
    y * c.stride + b < c.maxHeight * c.stride := by
  calc y * c.stride + b < y * c.stride + c.stride := by omega
    _ = (y + 1) * c.stride := by ring
    _ ≤ c.maxHeight * c.stride := Nat.mul_le_mul_right _ hy

/-- Row and byte are read back from a byte's place in the plane. -/
theorem rowByte_inj {n y y' b b' : Nat} (hb : b < n) (hb' : b' < n) (h : y * n + b = y' * n + b') : y = y' ∧ b = b' := by
  have hn : 0 < n := by omega
  have hy : y = y' := by
    have h1 : (y * n + b) / n = y := by rw [Nat.mul_comm, Nat.mul_add_div hn, Nat.div_eq_of_lt hb, Nat.add_zero]
    have h2 : (y' * n + b') / n = y' := by rw [Nat.mul_comm, Nat.mul_add_div hn, Nat.div_eq_of_lt hb', Nat.add_zero]
    rw [← h1, ← h2, h]
  subst hy; exact ⟨rfl, by omega⟩

/-- No two bytes of plane storage share an address (20_memory.md R65). -/
theorem planeByteAddr_inj {c : Config} (hc : c.ok = true) {p q : PlaneIdx} {y b y' b' : Nat}
    (hy : y < c.maxHeight) (hb : b < c.stride) (hy' : y' < c.maxHeight) (hb' : b' < c.stride)
    (h : planeByteAddr c p y b = planeByteAddr c q y' b') : p = q ∧ y = y' ∧ b = b' := by
  have h0 := Config.planeBytes_le hc
  have h1 := rowByte_lt hy hb
  have h2 := rowByte_lt hy' hb'
  unfold planeByteAddr planeBase at h
  have hpq : p = q := by apply Fin.ext; omega
  subst hpq
  exact ⟨rfl, rowByte_inj hb hb' (by omega)⟩

/-- Plane storage lies in the plane windows. -/
theorem planeByteAddr_bounds {c : Config} (hc : c.ok = true) (p : PlaneIdx) {y b : Nat} (hy : y < c.maxHeight)
    (hb : b < c.stride) :
    planeBase p ≤ planeByteAddr c p y b ∧ planeByteAddr c p y b < planeBase p + 0x00100000 := by
  have h0 := Config.planeBytes_le hc
  have h1 := rowByte_lt hy hb
  unfold planeByteAddr; omega

theorem inPlanes_iff (a : Nat) : inPlanes a = true ↔ planesBase ≤ a ∧ a < planesBase + 4 * 0x00100000 := by
  simp [inPlanes]

theorem planeByteAddr_inPlanes {c : Config} (hc : c.ok = true) (p : PlaneIdx) {y b : Nat} (hy : y < c.maxHeight)
    (hb : b < c.stride) : inPlanes (planeByteAddr c p y b) = true := by
  have := planeByteAddr_bounds hc p hy hb
  rw [inPlanes_iff]
  unfold planeBase at this
  have := p.isLt
  omega

theorem blank_of_inPlanes {a : Nat} (h : inPlanes a = true) : blank a = some 0#8 := by simp [blank, h]

theorem blank_of_not_inPlanes {a : Nat} (h : inPlanes a = false) : blank a = none := by simp [blank, h]

theorem frameByteAddr_not_inPlanes (f : FrameIdx) (i : Nat) (c : Channel) : inPlanes (frameByteAddr f i c) = false := by
  rw [Bool.eq_false_iff, Ne, inPlanes_iff]
  unfold frameByteAddr frameBase framesBase planesBase
  omega

/-! ### Rows of a plane -/

@[simp] theorem maskedRow_length (s : State) (p : PlaneIdx) (y : Nat) (f : Nat → Bool) :
    (maskedRow s p y f).length = (s.width.toNat + 7) / 8 := by simp [maskedRow]

theorem maskedRow_getElem? (s : State) (p : PlaneIdx) (y : Nat) (f : Nat → Bool) {b : Nat}
    (h : b < (s.width.toNat + 7) / 8) : (maskedRow s p y f)[b]? = some (maskedByte s p y b f) := by
  simp [maskedRow, h]

/-- The bit of a masked byte: `f` inside the active region, the old bit outside (42_morphology.md R137). -/
theorem maskedByte_getLsbD (s : State) (p : PlaneIdx) (y x : Nat) (f : Nat → Bool) :
    (maskedByte s p y (x / 8) f).getLsbD (x % 8) = if active s x y then f x else planeBit s p x y := by
  unfold maskedByte
  rw [packBits_getLsbD _ (Nat.mod_lt _ (by omega)), Nat.div_add_mod]

/-- The first `h` rows of `writePlane`. -/
def writeRows (s : State) (p : PlaneIdx) (out : Nat → Nat → Bool) (h : Nat) (m : Memory) : Memory :=
  (List.range h).foldl
    (fun m y => writeBytes m (planeByteAddr s.cfg p y 0) (maskedRow s p y fun x => out x y)) m

theorem writeRows_succ (s : State) (p : PlaneIdx) (out : Nat → Nat → Bool) (h : Nat) (m : Memory) :
    writeRows s p out (h + 1) m =
      writeBytes (writeRows s p out h m) (planeByteAddr s.cfg p h 0) (maskedRow s p h fun x => out x h) := by
  simp [writeRows, List.range_succ]

theorem writePlane_eq (s : State) (p : PlaneIdx) (out : Nat → Nat → Bool) :
    writePlane s p out = writeRows s p out s.height.toNat s.mem := rfl

/-- A byte of no row written is left alone. -/
theorem readByte_writeRows_outside (s : State) (p : PlaneIdx) (out : Nat → Nat → Bool) (m : Memory) (a : Nat) :
    ∀ h : Nat, (∀ y b, y < h → b < (s.width.toNat + 7) / 8 → a ≠ planeByteAddr s.cfg p y b) →
      readByte (writeRows s p out h m) a = readByte m a
  | 0, _ => rfl
  | h + 1, hout => by
    rw [writeRows_succ, readByte_writeBytes_outside, readByte_writeRows_outside s p out m a h]
    · exact fun y b hy hb => hout y b (by omega) hb
    · rw [maskedRow_length]
      by_contra hcon
      refine hout h (a - planeByteAddr s.cfg p h 0) (by omega) (by omega) ?_
      unfold planeByteAddr at *; omega

/-- A byte of a row written reads as the masked byte. -/
theorem readByte_writeRows_inside (s : State) (p : PlaneIdx) (out : Nat → Nat → Bool) (m : Memory) {y b : Nat}
    (hw : (s.width.toNat + 7) / 8 ≤ s.cfg.stride) (hb : b < (s.width.toNat + 7) / 8) :
    ∀ h : Nat, y < h →
      readByte (writeRows s p out h m) (planeByteAddr s.cfg p y b) = some (maskedByte s p y b fun x => out x y)
  | h + 1, hy => by
    rw [writeRows_succ]
    by_cases hyh : y = h
    · subst hyh
      rw [readByte_writeBytes, if_pos, ← maskedRow_getElem? s p y _ hb]
      · congr 1; unfold planeByteAddr; omega
      · rw [maskedRow_length]; unfold planeByteAddr; omega
    · rw [readByte_writeBytes_outside]
      · exact readByte_writeRows_inside s p out m hw hb h (by omega)
      · left
        unfold planeByteAddr
        have : y * s.cfg.stride + b < (y + 1) * s.cfg.stride := by rw [Nat.add_mul]; omega
        have : (y + 1) * s.cfg.stride ≤ h * s.cfg.stride := Nat.mul_le_mul_right _ (by omega)
        omega

/-! ### Writing a plane -/

theorem active_iff (s : State) (x y : Nat) : active s x y = true ↔ x < s.width.toNat ∧ y < s.height.toNat := by
  simp [active]

/-- Writing a plane leaves every byte alone that holds no pixel of its active region. -/
theorem readByte_writePlane_outside (s : State) (p : PlaneIdx) (out : Nat → Nat → Bool) {a : Nat}
    (ha : ¬ activeByte s p a) : readByte (writePlane s p out) a = readByte s.mem a := by
  rw [writePlane_eq]
  refine readByte_writeRows_outside s p out s.mem a _ fun y b hy hb h => ha ⟨8 * b, y, ?_, ?_⟩
  · rw [active_iff]; omega
  · rw [h]; congr 1; omega

theorem rowBytes_le {s : State} (hc : s.cfg.ok = true) (hg : geometryFits s) :
    (s.width.toNat + 7) / 8 ≤ s.cfg.stride := by
  have := (Config.ok_facts hc).1
  have := hg.1
  omega

/-- The spec of writing a plane, bit by bit: every pixel of the active region of that plane reads as `out`, every other bit of every
plane's storage reads as before. -/
theorem planeBit_writePlane {s : State} (hc : s.cfg.ok = true) (hg : geometryFits s) (p : PlaneIdx)
    (out : Nat → Nat → Bool) {q : PlaneIdx} {x y : Nat} (hx : x < s.cfg.maxWidth) (hy : y < s.cfg.maxHeight) :
    planeBit { s with mem := writePlane s p out } q x y =
      if q = p ∧ active s x y = true then out x y else planeBit s q x y := by
  have h8 := (Config.ok_facts hc).1
  have hxs : x / 8 < s.cfg.stride := by omega
  by_cases hin : q = p ∧ y < s.height.toNat ∧ x / 8 < (s.width.toNat + 7) / 8
  · obtain ⟨rfl, hyh, hxb⟩ := hin
    have hrow := readByte_writeRows_inside s q out s.mem (rowBytes_le hc hg) hxb s.height.toNat hyh
    have : planeBit { s with mem := writePlane s q out } q x y =
        (maskedByte s q y (x / 8) fun x => out x y).getLsbD (x % 8) := by
      unfold planeBit
      simp only [writePlane_eq]
      rw [hrow]; rfl
    rw [this, maskedByte_getLsbD]
    simp
  · have hno : ¬ activeByte s p (planeByteAddr s.cfg q y (x / 8)) := by
      rintro ⟨x', y', hact, heq⟩
      rw [active_iff] at hact
      obtain ⟨hqp, hyy, hxx⟩ := planeByteAddr_inj hc hy hxs
        (by have := hg.2; omega) (by have := hg.1; omega) heq
      exact hin ⟨hqp, by omega, by omega⟩
    have hact : ¬ (q = p ∧ active s x y = true) := by
      rintro ⟨hqp, ha⟩
      rw [active_iff] at ha
      exact hin ⟨hqp, by omega, by omega⟩
    rw [if_neg hact]
    unfold planeBit
    simp only
    rw [readByte_writePlane_outside s p out hno]

theorem writePlane_wf (s : State) (p : PlaneIdx) (out : Nat → Nat → Bool) (hm : s.mem.wf = true) :
    (writePlane s p out).wf = true := by
  rw [writePlane_eq]
  generalize s.height.toNat = h
  induction h with
  | zero => exact hm
  | succ h ih => rw [writeRows_succ]; exact writeBytes_wf _ _ ih

/-- The cells of a written plane: cells from before, or bytes of the plane's active region. -/
theorem mem_writePlane {s : State} {p : PlaneIdx} {out : Nat → Nat → Bool} {c : Host.Cell}
    (h : c ∈ writePlane s p out) : c ∈ s.mem ∨ activeByte s p c.1 := by
  rw [writePlane_eq] at h
  have key : ∀ n, n ≤ s.height.toNat → c ∈ writeRows s p out n s.mem → c ∈ s.mem ∨ activeByte s p c.1 := by
    intro n
    induction n with
    | zero => exact fun _ h => .inl h
    | succ n ih =>
      intro hn hc
      rw [writeRows_succ] at hc
      rcases mem_writeBytes _ hc with hc | hc
      · exact ih (by omega) hc
      · rw [maskedRow_length] at hc
        refine .inr ⟨8 * (c.1 - planeByteAddr s.cfg p n 0), n, ?_, ?_⟩
        · rw [active_iff]; omega
        · rw [Nat.mul_div_cancel_left _ (by omega : 0 < 8)]
          unfold planeByteAddr at *; omega
  exact key _ (le_refl _) h

/-! ### Frames -/

theorem Channel.index_lt (c : Channel) : c.index < 4 := by cases c <;> decide

theorem Channel.index_inj {c d : Channel} (h : c.index = d.index) : c = d := by
  cases c <;> cases d <;> simp [Channel.index] at h ⊢

/-- No two bytes of frame storage share an address (20_memory.md R66). -/
theorem frameByteAddr_inj {f g : FrameIdx} {i j : Nat} {c d : Channel} (hi : i < 0x01000000) (hj : j < 0x01000000)
    (h : frameByteAddr f i c = frameByteAddr g j d) : f = g ∧ i = j ∧ c = d := by
  have hc := c.index_lt
  have hd := d.index_lt
  have h' : f.val * 0x04000000 + (4 * i + c.index) = g.val * 0x04000000 + (4 * j + d.index) := by
    rw [Nat.mul_comm f.val, Nat.mul_comm g.val]
    simpa only [frameByteAddr, frameBase, Nat.add_assoc, Nat.add_left_cancel_iff] using h
  obtain ⟨hfg, hij⟩ := rowByte_inj (by omega) (by omega) h'
  exact ⟨Fin.ext hfg, by omega, Channel.index_inj (by omega)⟩

/-- The first `n` pixels of `writeFrame`. -/
def writePixels (f : FrameIdx) (out : Nat → Pixel) (n : Nat) (m : Memory) : Memory :=
  (List.range n).foldl (fun m i => writeBytes m (frameByteAddr f i .r) (out i).bytes) m

theorem writePixels_succ (f : FrameIdx) (out : Nat → Pixel) (n : Nat) (m : Memory) :
    writePixels f out (n + 1) m = writeBytes (writePixels f out n m) (frameByteAddr f n .r) (out n).bytes := by
  unfold writePixels
  rw [List.range_succ, List.foldl_append, List.foldl_cons, List.foldl_nil]

theorem writeFrame_eq (s : State) (f : FrameIdx) (out : Nat → Pixel) :
    writeFrame s f out = writePixels f out (framePixels s) s.mem := rfl

@[simp] theorem Pixel.bytes_length (p : Pixel) : p.bytes.length = 4 := rfl

theorem readByte_writePixels_outside (f : FrameIdx) (out : Nat → Pixel) (m : Memory) (a : Nat) :
    ∀ n : Nat, (∀ i c, i < n → a ≠ frameByteAddr f i c) → readByte (writePixels f out n m) a = readByte m a
  | 0, _ => rfl
  | n + 1, hout => by
    rw [writePixels_succ, readByte_writeBytes_outside, readByte_writePixels_outside f out m a n]
    · exact fun i c hi => hout i c (by omega)
    · have h0 := hout n .r (by omega)
      have h1 := hout n .g (by omega)
      have h2 := hout n .b (by omega)
      have h3 := hout n .a (by omega)
      simp only [frameByteAddr, Channel.index, Pixel.bytes_length] at *
      omega

theorem readByte_writePixels_inside (f : FrameIdx) (out : Nat → Pixel) (m : Memory) {i : Nat} (c : Channel) :
    ∀ n : Nat, i < n → readByte (writePixels f out n m) (frameByteAddr f i c) = some ((out i).get c)
  | n + 1, hi => by
    have hc := c.index_lt
    rw [writePixels_succ]
    by_cases hin : i = n
    · subst hin
      rw [readByte_writeBytes, if_pos]
      · rw [show frameByteAddr f i c - frameByteAddr f i .r = c.index by
          simp only [frameByteAddr, Channel.index] at *; omega]
        cases c <;> rfl
      · simp only [Pixel.bytes_length]
        unfold frameByteAddr
        simp only [Channel.index] at *
        omega
    · rw [readByte_writeBytes_outside]
      · exact readByte_writePixels_inside f out m c n (by omega)
      · left
        unfold frameByteAddr
        simp only [Channel.index] at *
        omega

/-- The spec of writing a frame's active pixels: each reads as written, every other byte of memory is left alone. -/
theorem readByte_writeFrame_outside (s : State) (f : FrameIdx) (out : Nat → Pixel) {a : Nat}
    (ha : ∀ i c, i < framePixels s → a ≠ frameByteAddr f i c) : readByte (writeFrame s f out) a = readByte s.mem a := by
  rw [writeFrame_eq]; exact readByte_writePixels_outside f out s.mem a _ ha

theorem frameByte_writeFrame {s : State} (f : FrameIdx) (out : Nat → Pixel) {g : FrameIdx} {i : Nat} (c : Channel)
    (hi : i < 0x01000000) (hn : framePixels s ≤ 0x01000000) :
    frameByte { s with mem := writeFrame s f out } g i c =
      if g = f ∧ i < framePixels s then some ((out i).get c) else frameByte s g i c := by
  unfold frameByte
  by_cases h : g = f ∧ i < framePixels s
  · rw [if_pos h]
    obtain ⟨rfl, h⟩ := h
    exact readByte_writePixels_inside g out s.mem c _ h
  · rw [if_neg h]
    refine readByte_writeFrame_outside s f out fun j d hj heq => h ?_
    obtain ⟨h1, h2, _⟩ := frameByteAddr_inj hi (by omega) heq
    exact ⟨h1, by omega⟩

theorem writeFrame_wf (s : State) (f : FrameIdx) (out : Nat → Pixel) (hm : s.mem.wf = true) :
    (writeFrame s f out).wf = true := by
  rw [writeFrame_eq]
  generalize framePixels s = n
  induction n with
  | zero => exact hm
  | succ n ih => rw [writePixels_succ]; exact writeBytes_wf _ _ ih

theorem mem_writeFrame {s : State} {f : FrameIdx} {out : Nat → Pixel} {c : Host.Cell} (h : c ∈ writeFrame s f out) :
    c ∈ s.mem ∨ ∃ i ch, i < framePixels s ∧ c.1 = frameByteAddr f i ch := by
  rw [writeFrame_eq] at h
  generalize framePixels s = n at h
  induction n with
  | zero => exact .inl h
  | succ n ih =>
    rw [writePixels_succ] at h
    rcases mem_writeBytes _ h with h | h
    · rcases ih h with h | ⟨i, ch, hi, h⟩
      · exact .inl h
      · exact .inr ⟨i, ch, by omega, h⟩
    · refine .inr ⟨n, channelAt (c.1 - frameByteAddr f n .r), by omega, ?_⟩
      simp only [Pixel.bytes_length] at h
      have h4 : c.1 - frameByteAddr f n .r < 4 := by omega
      have : (channelAt (c.1 - frameByteAddr f n .r)).index = c.1 - frameByteAddr f n .r := by
        generalize c.1 - frameByteAddr f n .r = k at h4
        match k, h4 with
        | 0, _ => rfl
        | 1, _ => rfl
        | 2, _ => rfl
        | 3, _ => rfl
      unfold frameByteAddr at *
      simp only [Channel.index] at *
      omega

/-- Planes do not notice a write to a frame. -/
theorem planeBit_writeFrame {s : State} (hc : s.cfg.ok = true) (f : FrameIdx) (out : Nat → Pixel) (q : PlaneIdx) {x y : Nat}
    (hx : x < s.cfg.maxWidth) (hy : y < s.cfg.maxHeight) :
    planeBit { s with mem := writeFrame s f out } q x y = planeBit s q x y := by
  have h8 := (Config.ok_facts hc).1
  unfold planeBit
  simp only
  rw [readByte_writeFrame_outside]
  intro i c _ h
  have h1 := planeByteAddr_inPlanes hc q hy (b := x / 8) (by omega)
  rw [h, frameByteAddr_not_inPlanes] at h1
  exact absurd h1 (by simp)

/-- Frames do not notice a write to a plane. -/
theorem frameByte_writePlane {s : State} (hc : s.cfg.ok = true) (hg : geometryFits s) (p : PlaneIdx)
    (out : Nat → Nat → Bool) (f : FrameIdx) (i : Nat) (c : Channel) :
    frameByte { s with mem := writePlane s p out } f i c = frameByte s f i c := by
  have h8 := (Config.ok_facts hc).1
  unfold frameByte
  refine readByte_writePlane_outside s p out ?_
  rintro ⟨x, y, ha, h⟩
  rw [active_iff] at ha
  have h1 := planeByteAddr_inPlanes hc p (y := y) (b := x / 8) (by have := hg.2; omega) (by have := hg.1; omega)
  rw [← h, frameByteAddr_not_inPlanes] at h1
  exact absurd h1 (by simp)

/-! ### Reading a frame for a command -/

theorem firstUnset_eq_none (s : State) (f : FrameIdx) (n : Nat) (cs : List Channel) :
    firstUnset s f n cs = none ↔ frameSet s f n cs := by
  simp only [firstUnset, List.findSome?_eq_none_iff, List.mem_range, Option.map_eq_none_iff, List.find?_eq_none,
    frameSet]
  constructor
  · intro h i c hi hc
    have := h i hi c hc
    cases hb : frameByte s f i c <;> simp_all
  · intro h i hi c hc
    have := h i c hi hc
    cases hb : frameByte s f i c <;> simp_all

/-- A command that finds all its frame bytes set gets its result. -/
theorem readingFrame_ok {s : State} {f : FrameIdx} {n : Nat} {cs : List Channel} (m : Memory)
    (h : frameSet s f n cs) : readingFrame s f n cs m = .ok m := by
  unfold readingFrame
  rw [(firstUnset_eq_none s f n cs).mpr h]

/-- What reading a frame for a command can answer. -/
theorem readingFrame_cases (s : State) (f : FrameIdx) (n : Nat) (cs : List Channel) (m : Memory) :
    (frameSet s f n cs ∧ readingFrame s f n cs m = .ok m) ∨
    (∃ i c, i < n ∧ c ∈ cs ∧ frameByte s f i c = none ∧ readingFrame s f n cs m = .error (.uninitRead f i c)) := by
  unfold readingFrame
  cases h : firstUnset s f n cs with
  | none => exact .inl ⟨(firstUnset_eq_none s f n cs).mp h, rfl⟩
  | some ic =>
    right
    obtain ⟨i, hi, hf⟩ := List.exists_of_findSome?_eq_some h
    rw [List.mem_range] at hi
    cases hfind : cs.find? (fun c => (frameByte s f i c).isNone) with
    | none => simp [hfind] at hf
    | some c =>
      rw [hfind, Option.map_some, Option.some_inj] at hf
      have hnone := List.find?_some hfind
      subst hf
      exact ⟨i, c, hi, List.mem_of_find?_eq_some hfind, by simpa using hnone, rfl⟩

end Sys2Proof.Machine
end

