-- ==== Sys2Proof/Laws/State.lean ====
section
/-! SUPPORT. One lemma per field and update of State, so that no proof unfolds a record update. -/

namespace Sys2Proof.Machine

/-! ### accept -/

@[simp] theorem accept_cfg (v : Word) (s : State) : (accept v s).cfg = s.cfg := rfl
@[simp] theorem accept_width (v : Word) (s : State) : (accept v s).width = s.width := rfl
@[simp] theorem accept_height (v : Word) (s : State) : (accept v s).height = s.height := rfl
@[simp] theorem accept_ieDone (v : Word) (s : State) : (accept v s).ieDone = s.ieDone := rfl
@[simp] theorem accept_ieErr (v : Word) (s : State) : (accept v s).ieErr = s.ieErr := rfl
@[simp] theorem accept_busy (v : Word) (s : State) : (accept v s).busy = true := rfl
@[simp] theorem accept_done (v : Word) (s : State) : (accept v s).done = false := rfl
@[simp] theorem accept_err (v : Word) (s : State) : (accept v s).err = s.err := rfl
@[simp] theorem accept_errcode (v : Word) (s : State) : (accept v s).errcode = s.errcode := rfl
@[simp] theorem accept_pend (v : Word) (s : State) : (accept v s).pend = v := rfl
@[simp] theorem accept_mem (v : Word) (s : State) : (accept v s).mem = s.mem := rfl
@[simp] theorem accept_inputs (v : Word) (s : State) : (accept v s).inputs = s.inputs := rfl
@[simp] theorem accept_response (v : Word) (s : State) : (accept v s).response = s.response := rfl

/-! ### complete -/

@[simp] theorem complete_cfg (s : State) : (complete s).cfg = s.cfg := rfl
@[simp] theorem complete_width (s : State) : (complete s).width = s.width := rfl
@[simp] theorem complete_height (s : State) : (complete s).height = s.height := rfl
@[simp] theorem complete_ieDone (s : State) : (complete s).ieDone = s.ieDone := rfl
@[simp] theorem complete_ieErr (s : State) : (complete s).ieErr = s.ieErr := rfl
@[simp] theorem complete_busy (s : State) : (complete s).busy = false := rfl
@[simp] theorem complete_done (s : State) : (complete s).done = true := rfl
@[simp] theorem complete_err (s : State) : (complete s).err = s.err := rfl
@[simp] theorem complete_errcode (s : State) : (complete s).errcode = s.errcode := rfl
@[simp] theorem complete_pend (s : State) : (complete s).pend = s.pend := rfl
@[simp] theorem complete_mem (s : State) : (complete s).mem = s.mem := rfl
@[simp] theorem complete_inputs (s : State) : (complete s).inputs = s.inputs := rfl
@[simp] theorem complete_response (s : State) : (complete s).response = s.response := rfl

/-! ### reject -/

@[simp] theorem reject_cfg (e : CmdError) (s : State) : (reject e s).cfg = s.cfg := rfl
@[simp] theorem reject_width (e : CmdError) (s : State) : (reject e s).width = s.width := rfl
@[simp] theorem reject_height (e : CmdError) (s : State) : (reject e s).height = s.height := rfl
@[simp] theorem reject_ieDone (e : CmdError) (s : State) : (reject e s).ieDone = s.ieDone := rfl
@[simp] theorem reject_ieErr (e : CmdError) (s : State) : (reject e s).ieErr = s.ieErr := rfl
@[simp] theorem reject_busy (e : CmdError) (s : State) : (reject e s).busy = false := rfl
@[simp] theorem reject_done (e : CmdError) (s : State) : (reject e s).done = s.done := rfl
@[simp] theorem reject_err (e : CmdError) (s : State) : (reject e s).err = true := rfl
@[simp] theorem reject_errcode (e : CmdError) (s : State) : (reject e s).errcode = e.code := rfl
@[simp] theorem reject_pend (e : CmdError) (s : State) : (reject e s).pend = s.pend := rfl
@[simp] theorem reject_mem (e : CmdError) (s : State) : (reject e s).mem = s.mem := rfl
@[simp] theorem reject_inputs (e : CmdError) (s : State) : (reject e s).inputs = s.inputs := rfl
@[simp] theorem reject_response (e : CmdError) (s : State) : (reject e s).response = s.response := rfl

/-! ### writeStatus -/

@[simp] theorem writeStatus_cfg (v : Word) (s : State) : (writeStatus v s).cfg = s.cfg := rfl
@[simp] theorem writeStatus_width (v : Word) (s : State) : (writeStatus v s).width = s.width := rfl
@[simp] theorem writeStatus_height (v : Word) (s : State) : (writeStatus v s).height = s.height := rfl
@[simp] theorem writeStatus_ieDone (v : Word) (s : State) : (writeStatus v s).ieDone = s.ieDone := rfl
@[simp] theorem writeStatus_ieErr (v : Word) (s : State) : (writeStatus v s).ieErr = s.ieErr := rfl
@[simp] theorem writeStatus_busy (v : Word) (s : State) : (writeStatus v s).busy = s.busy := rfl
@[simp] theorem writeStatus_done (v : Word) (s : State) : (writeStatus v s).done = (s.done && !v.getLsbD 1) := rfl
@[simp] theorem writeStatus_err (v : Word) (s : State) : (writeStatus v s).err = (s.err && !v.getLsbD 2) := rfl
@[simp] theorem writeStatus_errcode (v : Word) (s : State) : (writeStatus v s).errcode = (if v.getLsbD 2 then 0 else s.errcode) := rfl
@[simp] theorem writeStatus_pend (v : Word) (s : State) : (writeStatus v s).pend = s.pend := rfl
@[simp] theorem writeStatus_mem (v : Word) (s : State) : (writeStatus v s).mem = s.mem := rfl
@[simp] theorem writeStatus_inputs (v : Word) (s : State) : (writeStatus v s).inputs = s.inputs := rfl
@[simp] theorem writeStatus_response (v : Word) (s : State) : (writeStatus v s).response = s.response := rfl

/-! ### writeGeometry -/

@[simp] theorem writeGeometry_cfg (v : Word) (s : State) : (writeGeometry v s).cfg = s.cfg := rfl
@[simp] theorem writeGeometry_width (v : Word) (s : State) : (writeGeometry v s).width = v.extractLsb' 0 16 := rfl
@[simp] theorem writeGeometry_height (v : Word) (s : State) : (writeGeometry v s).height = v.extractLsb' 16 16 := rfl
@[simp] theorem writeGeometry_ieDone (v : Word) (s : State) : (writeGeometry v s).ieDone = s.ieDone := rfl
@[simp] theorem writeGeometry_ieErr (v : Word) (s : State) : (writeGeometry v s).ieErr = s.ieErr := rfl
@[simp] theorem writeGeometry_busy (v : Word) (s : State) : (writeGeometry v s).busy = s.busy := rfl
@[simp] theorem writeGeometry_done (v : Word) (s : State) : (writeGeometry v s).done = s.done := rfl
@[simp] theorem writeGeometry_err (v : Word) (s : State) : (writeGeometry v s).err = s.err := rfl
@[simp] theorem writeGeometry_errcode (v : Word) (s : State) : (writeGeometry v s).errcode = s.errcode := rfl
@[simp] theorem writeGeometry_pend (v : Word) (s : State) : (writeGeometry v s).pend = s.pend := rfl
@[simp] theorem writeGeometry_mem (v : Word) (s : State) : (writeGeometry v s).mem = clearPlanes s.mem := rfl
@[simp] theorem writeGeometry_inputs (v : Word) (s : State) : (writeGeometry v s).inputs = s.inputs := rfl
@[simp] theorem writeGeometry_response (v : Word) (s : State) : (writeGeometry v s).response = s.response := rfl

/-! ### writeCtrl -/

@[simp] theorem writeCtrl_cfg (v : Word) (s : State) : (writeCtrl v s).cfg = s.cfg := rfl
@[simp] theorem writeCtrl_width (v : Word) (s : State) : (writeCtrl v s).width = s.width := rfl
@[simp] theorem writeCtrl_height (v : Word) (s : State) : (writeCtrl v s).height = s.height := rfl
@[simp] theorem writeCtrl_ieDone (v : Word) (s : State) : (writeCtrl v s).ieDone = v.getLsbD 0 := rfl
@[simp] theorem writeCtrl_ieErr (v : Word) (s : State) : (writeCtrl v s).ieErr = v.getLsbD 1 := rfl
@[simp] theorem writeCtrl_busy (v : Word) (s : State) : (writeCtrl v s).busy = s.busy := rfl
@[simp] theorem writeCtrl_done (v : Word) (s : State) : (writeCtrl v s).done = s.done := rfl
@[simp] theorem writeCtrl_err (v : Word) (s : State) : (writeCtrl v s).err = s.err := rfl
@[simp] theorem writeCtrl_errcode (v : Word) (s : State) : (writeCtrl v s).errcode = s.errcode := rfl
@[simp] theorem writeCtrl_pend (v : Word) (s : State) : (writeCtrl v s).pend = s.pend := rfl
@[simp] theorem writeCtrl_mem (v : Word) (s : State) : (writeCtrl v s).mem = s.mem := rfl
@[simp] theorem writeCtrl_inputs (v : Word) (s : State) : (writeCtrl v s).inputs = s.inputs := rfl
@[simp] theorem writeCtrl_response (v : Word) (s : State) : (writeCtrl v s).response = s.response := rfl

/-! ### placePending -/

@[simp] theorem placePending_cfg (v : Word) (s : State) : (placePending v s).cfg = s.cfg := rfl
@[simp] theorem placePending_width (v : Word) (s : State) : (placePending v s).width = s.width := rfl
@[simp] theorem placePending_height (v : Word) (s : State) : (placePending v s).height = s.height := rfl
@[simp] theorem placePending_ieDone (v : Word) (s : State) : (placePending v s).ieDone = s.ieDone := rfl
@[simp] theorem placePending_ieErr (v : Word) (s : State) : (placePending v s).ieErr = s.ieErr := rfl
@[simp] theorem placePending_busy (v : Word) (s : State) : (placePending v s).busy = true := rfl
@[simp] theorem placePending_done (v : Word) (s : State) : (placePending v s).done = false := rfl
@[simp] theorem placePending_err (v : Word) (s : State) : (placePending v s).err = s.err := rfl
@[simp] theorem placePending_errcode (v : Word) (s : State) : (placePending v s).errcode = s.errcode := rfl
@[simp] theorem placePending_pend (v : Word) (s : State) : (placePending v s).pend = v := rfl
@[simp] theorem placePending_mem (v : Word) (s : State) : (placePending v s).mem = s.mem := rfl
@[simp] theorem placePending_inputs (v : Word) (s : State) : (placePending v s).inputs = .engine :: s.inputs := rfl
@[simp] theorem placePending_response (v : Word) (s : State) : (placePending v s).response = s.response := rfl

/-! ### applyReset -/

@[simp] theorem applyReset_cfg (s : State) : (applyReset s).cfg = s.cfg := rfl
@[simp] theorem applyReset_width (s : State) : (applyReset s).width = 0 := rfl
@[simp] theorem applyReset_height (s : State) : (applyReset s).height = 0 := rfl
@[simp] theorem applyReset_ieDone (s : State) : (applyReset s).ieDone = false := rfl
@[simp] theorem applyReset_ieErr (s : State) : (applyReset s).ieErr = false := rfl
@[simp] theorem applyReset_busy (s : State) : (applyReset s).busy = false := rfl
@[simp] theorem applyReset_done (s : State) : (applyReset s).done = false := rfl
@[simp] theorem applyReset_err (s : State) : (applyReset s).err = false := rfl
@[simp] theorem applyReset_errcode (s : State) : (applyReset s).errcode = 0 := rfl
@[simp] theorem applyReset_pend (s : State) : (applyReset s).pend = 0 := rfl
@[simp] theorem applyReset_mem (s : State) : (applyReset s).mem = [] := rfl
@[simp] theorem applyReset_inputs (s : State) : (applyReset s).inputs = s.inputs := rfl
@[simp] theorem applyReset_response (s : State) : (applyReset s).response = .none := rfl

end Sys2Proof.Machine
end

