-- ==== Sys2Proof/Laws/Command.lean ====
section
/-! SUPPORT. Laws of the commands: the guarded read at a pixel's neighbours, the issue checks, and, once for every command, everything
running it can do. -/

namespace Sys2Proof.Machine

/-! ### The guarded read -/

theorem guarded_here (s : State) (p : PlaneIdx) (x y : Nat) :
    guarded s p (x : Int) (y : Int) = (active s x y && planeBit s p x y) := by
  simp [guarded]

theorem guarded_left (s : State) (p : PlaneIdx) (x y : Nat) :
    guarded s p ((x : Int) - 1) (y : Int) = (decide (x ≠ 0) && (active s (x - 1) y && planeBit s p (x - 1) y)) := by
  cases x with
  | zero => simp [guarded]
  | succ x => simpa using guarded_here s p x y

theorem guarded_right (s : State) (p : PlaneIdx) (x y : Nat) :
    guarded s p ((x : Int) + 1) (y : Int) = (active s (x + 1) y && planeBit s p (x + 1) y) :=
  guarded_here s p (x + 1) y

theorem guarded_above (s : State) (p : PlaneIdx) (x y : Nat) :
    guarded s p (x : Int) ((y : Int) - 1) = (decide (y ≠ 0) && (active s x (y - 1) && planeBit s p x (y - 1))) := by
  cases y with
  | zero => simp [guarded]
  | succ y => simpa using guarded_here s p x y

theorem guarded_below (s : State) (p : PlaneIdx) (x y : Nat) :
    guarded s p (x : Int) ((y : Int) + 1) = (active s x (y + 1) && planeBit s p x (y + 1)) :=
  guarded_here s p x (y + 1)

/-! ### The issue checks -/

theorem dimsOk_iff (s : State) :
    dimsOk s = true ↔ 1 ≤ s.width.toNat ∧ 1 ≤ s.height.toNat ∧ s.width.toNat ≤ s.cfg.maxWidth ∧
      s.height.toNat ≤ s.cfg.maxHeight := by
  simp [dimsOk, and_assoc]

theorem geometryFits_of_dimsOk {s : State} (h : dimsOk s = true) : geometryFits s :=
  ⟨((dimsOk_iff s).mp h).2.2.1, ((dimsOk_iff s).mp h).2.2.2⟩

theorem dimError_eq_none {s : State} (h : dimsOk s = true) : dimError s = none := by simp [dimError, h]

theorem planeError_eq_none {s : State} {pd ps : PlaneIdx} (h : dimsOk s = true) (hp : ps ≠ pd) :
    planeError s pd ps = none := by simp [planeError, h, hp]

theorem compError_eq_none {s : State} {str : StrengthCode} (h : dimsOk s = true) (hs : str.val < 5) :
    compError s str = none := by simp [compError, h, hs]

/-- A command that reads or writes the active region passes its checks only under a valid geometry (R195). -/
theorem dimsOk_of_issueError {s : State} {i : Instr} (hi : i ≠ .nop) (hc : ∀ pd, i ≠ .clear pd)
    (h : issueError s i = none) : dimsOk s = true := by
  by_contra hd
  cases i <;> simp_all [issueError, dimError, planeError, compError]

/-- The checks read the geometry and the build only (R96). -/
theorem issueError_congr {s t : State} (hw : t.width = s.width) (hh : t.height = s.height) (hc : t.cfg = s.cfg)
    (i : Instr) : issueError t i = issueError s i := by
  have hd : dimsOk t = dimsOk s := by simp [dimsOk, hw, hh, hc]
  cases i <;> simp [issueError, dimError, planeError, compError, hd]

theorem validate_congr {s t : State} (hw : t.width = s.width) (hh : t.height = s.height) (hc : t.cfg = s.cfg)
    (v : Word) : validate v t = validate v s := by
  unfold validate
  split
  · rfl
  · exact issueError_congr hw hh hc _

/-! ### Running a command -/

theorem runCommand_rejected {check : Option CmdError} {e : CmdError} (h : check = some e) (r : Except Fault Memory)
    (s : State) : runCommand check r s = .next (reject e s) := by simp [runCommand, h]

theorem runCommand_completed {check : Option CmdError} {r : Except Fault Memory} {m : Memory} (h : check = none)
    (hr : r = .ok m) (s : State) : runCommand check r s = .next (complete { s with mem := m }) := by
  simp [runCommand, h, hr]

theorem runCommand_faulted {check : Option CmdError} {r : Except Fault Memory} {f : Fault} (h : check = none)
    (hr : r = .error f) (s : State) : runCommand check r s = .fault f := by
  simp [runCommand, h, hr]

/-- Everything `runCommand` can do. -/
theorem runCommand_cases (check : Option CmdError) (r : Except Fault Memory) (s : State) :
    (∃ e, check = some e ∧ runCommand check r s = .next (reject e s)) ∨
    (∃ m, check = none ∧ r = .ok m ∧ runCommand check r s = .next (complete { s with mem := m })) ∨
    (∃ f, check = none ∧ r = .error f ∧ runCommand check r s = .fault f) := by
  cases check with
  | some e => exact .inl ⟨e, rfl, rfl⟩
  | none =>
    cases r with
    | ok m => exact .inr (.inl ⟨m, rfl, rfl, rfl⟩)
    | error f => exact .inr (.inr ⟨f, rfl, rfl, rfl⟩)

/-- What a completed command has made of the buffers: nothing (NOP, or COMP where no ratio is named), a cleared plane, a written
plane or a written frame. The last two only under a valid geometry. -/
inductive BufferEffect (s : State) : Memory → Prop where
  | same : BufferEffect s s.mem
  | cleared (p : PlaneIdx) : BufferEffect s (clearPlane p s.mem)
  | plane (p : PlaneIdx) (out : Nat → Nat → Bool) (h : dimsOk s = true) : BufferEffect s (writePlane s p out)
  | frame (f : FrameIdx) (out : Nat → Pixel) (h : dimsOk s = true) : BufferEffect s (writeFrame s f out)

/-- The three forms a command's outcome takes. -/
inductive CommandOutcome (i : Instr) (s : State) : Host.Outcome State Fault Refusal → Prop where
  | rejected (e : CmdError) (h : issueError s i = some e) : CommandOutcome i s (.next (reject e s))
  | completed (m : Memory) (h : issueError s i = none) (hm : BufferEffect s m) :
      CommandOutcome i s (.next (complete { s with mem := m }))
  | uninit (f : FrameIdx) (n : Nat) (c : Channel) (h : issueError s i = none) (hn : frameByte s f n c = none) :
      CommandOutcome i s (.fault (.uninitRead f n c))

theorem commandOutcome_of_ok {i : Instr} {s : State} {m : Memory} (hm : issueError s i = none → BufferEffect s m) :
    CommandOutcome i s (runCommand (issueError s i) (.ok m) s) := by
  cases h : issueError s i with
  | some e => exact .rejected e h
  | none => exact .completed m h (hm h)

theorem commandOutcome_of_reading {i : Instr} {s : State} {f : FrameIdx} {n : Nat} {cs : List Channel} {m : Memory}
    (hm : issueError s i = none → BufferEffect s m) :
    CommandOutcome i s (runCommand (issueError s i) (readingFrame s f n cs m) s) := by
  cases h : issueError s i with
  | some e => exact .rejected e h
  | none =>
    rcases readingFrame_cases s f n cs m with ⟨_, hr⟩ | ⟨k, c, _, _, hk, hr⟩
    · rw [hr]; exact .completed m h (hm h)
    · rw [hr]; exact .uninit f k c h hk

/-- Everything running a command can do. -/
theorem exec_outcome (i : Instr) (s : State) : CommandOutcome i s (exec i s) := by
  have dims : ∀ {i : Instr}, i ≠ .nop → (∀ pd, i ≠ .clear pd) → issueError s i = none → dimsOk s = true :=
    fun hi hc => dimsOk_of_issueError hi hc
  cases i with
  | nop => exact commandOutcome_of_ok fun _ => .same
  | clear pd => exact commandOutcome_of_ok fun _ => .cleared pd
  | thresh pd fs => exact commandOutcome_of_reading fun h => .plane _ _ (dims (by simp) (by simp) h)
  | tdiff pd ps => exact commandOutcome_of_ok fun h => .plane _ _ (dims (by simp) (by simp) h)
  | dilh pd ps => exact commandOutcome_of_ok fun h => .plane _ _ (dims (by simp) (by simp) h)
  | dilv pd ps => exact commandOutcome_of_ok fun h => .plane _ _ (dims (by simp) (by simp) h)
  | eroh pd ps => exact commandOutcome_of_ok fun h => .plane _ _ (dims (by simp) (by simp) h)
  | erov pd ps => exact commandOutcome_of_ok fun h => .plane _ _ (dims (by simp) (by simp) h)
  | comp fd fs pm str =>
    show CommandOutcome _ s (runCommand (issueError s (.comp fd fs pm str)) (compResult fd fs pm str s) s)
    unfold compResult
    cases strengthRatio s.cfg str with
    | none => exact commandOutcome_of_ok fun _ => .same
    | some ratio => exact commandOutcome_of_reading fun h => .frame _ _ (dims (by simp) (by simp) h)

/-- A next state of a command is its rejection or its completion. -/
theorem exec_next {i : Instr} {s t : State} (h : exec i s = .next t) :
    (∃ e, issueError s i = some e ∧ t = reject e s) ∨
    (∃ m, issueError s i = none ∧ BufferEffect s m ∧ t = complete { s with mem := m }) := by
  have ho := exec_outcome i s
  rw [h] at ho
  cases ho with
  | rejected e he => exact .inl ⟨e, he, rfl⟩
  | completed m he hm => exact .inr ⟨m, he, hm, rfl⟩

/-- No command is refused. -/
theorem exec_not_refused (i : Instr) (s : State) (r : Refusal) : exec i s ≠ .refused r := by
  intro h
  have ho := exec_outcome i s
  rw [h] at ho
  cases ho

/-- A command's effect keeps memory canonical. -/
theorem BufferEffect.wf {s : State} {m : Memory} (h : BufferEffect s m) (hm : s.mem.wf = true) : m.wf = true := by
  cases h with
  | same => exact hm
  | cleared p => exact clearPlane_wf p hm
  | plane p out _ => exact writePlane_wf s p out hm
  | frame f out _ => exact writeFrame_wf s f out hm

/-! ### Clearing planes -/

theorem clearPlane_keeps_frame (p : PlaneIdx) (s : State) (f : FrameIdx) (i : Nat) (c : Channel) :
    readByte (clearPlane p s.mem) (frameByteAddr f i c) = frameByte s f i c := by
  unfold clearPlane frameByte
  rw [readByte_clearRange, if_neg]
  have := frameByteAddr_not_inPlanes f i c
  rw [Bool.eq_false_iff, Ne, inPlanes_iff] at this
  have := p.isLt
  unfold planeBase
  omega

/-- After a plane is cleared each of its bits is 0 and every other plane's bits are as before (R181). -/
theorem planeBit_clearPlane {s : State} (hc : s.cfg.ok = true) (p q : PlaneIdx) {x y : Nat} (hx : x < s.cfg.maxWidth)
    (hy : y < s.cfg.maxHeight) :
    planeBit { s with mem := clearPlane p s.mem } q x y = if q = p then false else planeBit s q x y := by
  have h8 := (Config.ok_facts hc).1
  have hb := planeByteAddr_bounds hc q hy (b := x / 8) (by omega)
  unfold planeBit
  simp only [clearPlane]
  rw [readByte_clearRange]
  by_cases hqp : q = p
  · subst hqp
    rw [if_pos hb, if_pos rfl, blank_of_inPlanes (planeByteAddr_inPlanes hc q hy (by omega))]
    simp
  · rw [if_neg, if_neg hqp]
    unfold planeBase at hb ⊢
    have : q.val ≠ p.val := fun h => hqp (Fin.ext h)
    omega

/-- After every plane is cleared each bit of each plane is 0 (10_state.md R31). -/
theorem planeBit_clearPlanes {s t : State} (hc : s.cfg.ok = true) (hm : t.mem = clearPlanes s.mem) (ht : t.cfg = s.cfg)
    (q : PlaneIdx) {x y : Nat} (hx : x < s.cfg.maxWidth) (hy : y < s.cfg.maxHeight) : planeBit t q x y = false := by
  have h8 := (Config.ok_facts hc).1
  have hin := planeByteAddr_inPlanes hc q hy (b := x / 8) (by omega)
  unfold planeBit
  rw [ht, hm]
  unfold clearPlanes
  rw [readByte_clearRange, if_pos ((inPlanes_iff _).mp hin), blank_of_inPlanes hin]
  simp

theorem clearPlanes_keeps_frame (m : Memory) (f : FrameIdx) (i : Nat) (c : Channel) :
    readByte (clearPlanes m) (frameByteAddr f i c) = readByte m (frameByteAddr f i c) := by
  unfold clearPlanes
  rw [readByte_clearRange, if_neg]
  have := frameByteAddr_not_inPlanes f i c
  rw [Bool.eq_false_iff, Ne, inPlanes_iff] at this
  exact this

end Sys2Proof.Machine
end

