-- ==== Sys2Proof/Laws/Bus.lean ====
section
/-! SUPPORT. Laws of the host bus: where a mapped address leads, and everything one access can do. -/

namespace Sys2Proof.Machine

/-- A mapped plane window address, by plane and offset (20_memory.md R62, R67). -/
theorem locate_plane {c : Config} {a : Nat} {p : PlaneIdx} {o : Nat} (h : locate c a = some (.plane p o)) :
    a = planeBase p + o ∧ o < c.maxHeight * c.stride := by
  unfold locate at h
  split at h
  · cases hr : registerAt a <;> rw [hr] at h <;> simp at h
  · split at h
    · rename_i hin
      rw [inPlanes_iff] at hin
      simp only at h
      split at h
      · rename_i ho
        simp only [Option.some.injEq, Target.plane.injEq] at h
        obtain ⟨rfl, rfl⟩ := h
        refine ⟨?_, ho⟩
        unfold planeBase
        simp only [Fin.ofNat]
        omega
      · simp at h
    · split at h
      · simp only at h; split at h <;> simp at h
      · simp at h

/-- A mapped frame window address, by frame and offset (R62, R67). -/
theorem locate_frame {c : Config} {a : Nat} {f : FrameIdx} {o : Nat} (h : locate c a = some (.frame f o)) :
    a = frameBase f + o ∧ o < 4 * c.maxPixels := by
  unfold locate at h
  split at h
  · cases hr : registerAt a <;> rw [hr] at h <;> simp at h
  · split at h
    · simp only at h; split at h <;> simp at h
    · split at h
      · rename_i hin
        simp only at h
        split at h
        · rename_i ho
          simp only [Option.some.injEq, Target.frame.injEq] at h
          obtain ⟨rfl, rfl⟩ := h
          refine ⟨?_, ho⟩
          unfold frameBase
          simp only [Fin.ofNat]
          omega
        · simp at h
      · simp at h

/-- An aligned part of a row stays in that row: an access at offset `o` whose size `n` divides both does not cross it (R64). -/
theorem offset_in_row {n stride o k : Nat} (hn : 0 < n) (ho : o % n = 0) (hs : stride % n = 0) (h0 : 0 < stride)
    (hk : k < n) : (o + k) / stride = o / stride ∧ (o + k) % stride = o % stride + k := by
  obtain ⟨q, rfl⟩ := Nat.dvd_of_mod_eq_zero ho
  obtain ⟨r, rfl⟩ := Nat.dvd_of_mod_eq_zero hs
  have hr : 0 < r := Nat.pos_of_mul_pos_left h0
  have hq : q % r < r := Nat.mod_lt _ hr
  have hlt : n * (q % r) + k < n * r := by
    calc n * (q % r) + k < n * (q % r) + n := by omega
      _ = n * (q % r + 1) := by ring
      _ ≤ n * r := Nat.mul_le_mul_left _ hq
  have hsplit : n * q + k = n * r * (q / r) + (n * (q % r) + k) := by
    conv_lhs => rw [← Nat.div_add_mod q r]
    ring
  have hmod : n * q % (n * r) = n * (q % r) := Nat.mul_mod_mul_left n q r
  have hdiv : n * q / (n * r) = q / r := Nat.mul_div_mul_left q r hn
  rw [hmod, hdiv, hsplit, Nat.mul_add_div h0, Nat.mul_add_mod, Nat.div_eq_of_lt hlt, Nat.mod_eq_of_lt hlt]
  simp

/-- Everything one host access can do. -/
inductive AccessOutcome (acc : Access) (s : State) : Host.Outcome State Fault Refusal → Prop where
  | busError (k : BusErrorKind) (h : busError s acc = some k) : AccessOutcome acc s (.fault (.busError k))
  | uninit (f : FrameIdx) (i : Nat) (c : Channel) : AccessOutcome acc s (.fault (.uninitRead f i c))
  | read (w : AccessWidth) (a : Word) (t : Target) (v : Word) (hacc : acc = .read w a)
      (h : locate s.cfg a.toNat = some t) (he : targetError s acc t = none) (hv : readTarget s w.bytes t = .ok v) :
      AccessOutcome acc s (.next { s with response := .data v })
  | write (w : AccessWidth) (a : Word) (v : Word) (t : Target) (hacc : acc = .write w a v)
      (h : locate s.cfg a.toNat = some t) (he : targetError s acc t = none) :
      AccessOutcome acc s (.next { writeTarget s w.bytes v t with response := .ok })

theorem readTarget_error {s : State} {n : Nat} {t : Target} {f : Fault} (h : readTarget s n t = .error f) :
    ∃ g i c, f = .uninitRead g i c := by
  unfold readTarget at h
  split at h
  · simp at h
  · simp at h
  · split at h
    · simp at h
    · simp only [Except.error.injEq] at h; exact ⟨_, _, _, h.symm⟩

/-- An access without a bus error is performed at the target its address leads to. -/
theorem hostAccess_target {acc : Access} {s : State} {t : Target} (hl : locate s.cfg acc.address = some t)
    (he : targetError s acc t = none) : hostAccess acc s = accessTarget s acc t := by
  unfold hostAccess
  rw [hl]
  simp only [he]

/-- A bus error is the only thing an access with one can answer. -/
theorem hostAccess_busError {acc : Access} {s : State} {k : BusErrorKind} (h : busError s acc = some k) :
    hostAccess acc s = .fault (.busError k) := by
  unfold busError at h
  unfold hostAccess
  cases hl : locate s.cfg acc.address with
  | none => rw [hl] at h; simp only [Option.some.injEq] at h; rw [h]
  | some t => rw [hl] at h; simp only at h ⊢; rw [h]

theorem busError_eq_none {acc : Access} {s : State} (h : busError s acc = none) :
    ∃ t, locate s.cfg acc.address = some t ∧ targetError s acc t = none := by
  unfold busError at h
  cases hl : locate s.cfg acc.address with
  | none => rw [hl] at h; simp at h
  | some t => rw [hl] at h; exact ⟨t, rfl, h⟩

theorem hostAccess_outcome (acc : Access) (s : State) : AccessOutcome acc s (hostAccess acc s) := by
  cases hb : busError s acc with
  | some k => rw [hostAccess_busError hb]; exact .busError k hb
  | none =>
    obtain ⟨t, hl, he⟩ := busError_eq_none hb
    rw [hostAccess_target hl he]
    cases acc with
    | read w a =>
      simp only [accessTarget]
      cases hv : readTarget s w.bytes t with
      | ok v => exact .read w a t v rfl hl he hv
      | error f =>
        obtain ⟨g, i, c, rfl⟩ := readTarget_error hv
        exact .uninit g i c
    | write w a v => exact .write w a v t rfl hl he

/-- A next state of an access: a read changes `response` only, a write is `writeTarget`. -/
theorem hostAccess_next {acc : Access} {s t : State} (h : hostAccess acc s = .next t) :
    (∃ w a v, acc = .read w a ∧ t = { s with response := .data v }) ∨
    (∃ w a v tg, acc = .write w a v ∧ locate s.cfg a.toNat = some tg ∧ targetError s acc tg = none ∧
      t = { writeTarget s w.bytes v tg with response := .ok }) := by
  have ho := hostAccess_outcome acc s
  rw [h] at ho
  cases ho with
  | read w a tg v hacc hl he hv => exact .inl ⟨w, a, v, hacc, rfl⟩
  | write w a v tg hacc hl he => exact .inr ⟨w, a, v, tg, hacc, hl, he, rfl⟩

/-- No access is refused. -/
theorem hostAccess_not_refused (acc : Access) (s : State) (r : Refusal) : hostAccess acc s ≠ .refused r := by
  intro h
  have ho := hostAccess_outcome acc s
  rw [h] at ho
  cases ho

/-- The three things issuing a command word can do (30_encoding.md R96). -/
theorem issue_cases (v : Word) (s : State) :
    (s.err = true ∧ issue v s = s) ∨
    (∃ e, s.err = false ∧ validate v s = some e ∧ issue v s = reject e s) ∨
    (s.err = false ∧ validate v s = none ∧ issue v s = accept v s) := by
  unfold issue
  cases he : s.err
  · cases hv : validate v s
    · simp
    · simp
  · simp

/-- While BUSY = 1, an access that is answered writes CTRL, STATUS or a read-only register (20_memory.md R68). -/
theorem targetError_busy {s : State} {acc : Access} {t : Target} (hb : s.busy = true)
    (he : targetError s acc t = none) : refusedWhileBusy acc t = false := by
  unfold targetError at he
  simp only [hb, Bool.true_and] at he
  cases hr : refusedWhileBusy acc t
  · rfl
  · simp only [hr, if_true] at he
    split at he <;> simp at he

/-- A 32-bit write to a register's own offset: bus error Busy where the register is held off, else the register's write. -/
theorem hostAccess_write_register {a : Word} {r : Register} (v : Word) (s : State) (ha : a.toNat < 0x1000)
    (hr : registerAt a.toNat = some r) (h4 : a.toNat % 4 = 0) :
    hostAccess (.write .w32 a v) s =
      if s.busy && refusedWhileBusy (.write .w32 a v) (.register r) then .fault (.busError .busy)
      else .next { writeRegister v s r with response := .ok } := by
  have hl : locate s.cfg (Access.write .w32 a v).address = some (.register r) := by simp [locate, Access.address, ha, hr]
  unfold hostAccess
  rw [hl]
  simp only [targetError, Access.accessWidth, Access.address, h4, true_and, if_true]
  split_ifs <;> rfl

/-- A 32-bit read of a register's own offset answers the register's word, whether BUSY is 0 or 1. -/
theorem hostAccess_read_register {a : Word} {r : Register} (s : State) (ha : a.toNat < 0x1000)
    (hr : registerAt a.toNat = some r) (h4 : a.toNat % 4 = 0) :
    hostAccess (.read .w32 a) s = .next { s with response := .data (readRegister s r) } := by
  have hl : locate s.cfg (Access.read .w32 a).address = some (.register r) := by simp [locate, Access.address, ha, hr]
  unfold hostAccess
  rw [hl]
  simp only [targetError, Access.accessWidth, Access.address, h4]
  cases r <;> simp [refusedWhileBusy, accessTarget, readTarget]

end Sys2Proof.Machine
end

