-- ==== Sys2Proof/Laws/Config.lean ====
section
/-! SUPPORT. Laws of the build: what `ofRaw` gives is legal, and every legal build is given by some numbers, so that the machine of
`State.reset` is free within R7's constraints and nothing more is known of it (log entry 4). -/

namespace Sys2Proof

theorem Config.ofRaw_ok (rw rx ry rn rd : Nat) : (Config.ofRaw rw rx ry rn rd).ok = true := by
  have hx : legalMaxWidth rx = 64 * (1 + rx % 1023) := rfl
  have hr : rx % 1023 < 1023 := Nat.mod_lt _ (by decide)
  generalize hw : legalMaxWidth rx = w at hx
  have hpos : 0 < w := by omega
  have hq : 1 ≤ 8388608 / w := (Nat.le_div_iff_mul_le hpos).mpr (by omega)
  have hm : ry % min 65535 (8388608 / w) < min 65535 (8388608 / w) := Nat.mod_lt _ (by omega)
  have hh : legalMaxHeight w ry = 1 + ry % min 65535 (8388608 / w) := rfl
  generalize hg : legalMaxHeight w ry = h at hh
  have hle : h ≤ 8388608 / w := by omega
  have hmul : w * h ≤ 8388608 := (Nat.mul_le_mul_left w hle).trans (Nat.mul_div_le _ _)
  have hn : rn % (2 + rd % 255) < 2 + rd % 255 := Nat.mod_lt _ (by omega)
  have hd : rd % 255 < 255 := Nat.mod_lt _ (by decide)
  simp only [Config.ok, Config.ofRaw, hw, hg, Bool.and_eq_true, beq_iff_eq, decide_eq_true_eq]
  omega

/-- The build after reset is legal. -/
theorem Config.build_ok : Config.build.ok = true := Config.ofRaw_ok _ _ _ _ _

/-- Every legal build is one that `ofRaw` gives. -/
theorem Config.ok_ofRaw {c : Config} (h : c.ok = true) : ∃ rw rx ry rn rd, Config.ofRaw rw rx ry rn rd = c := by
  obtain ⟨h1, h2, h3, h4, h5, h6, h7, h8, h9⟩ := Machine.Config.ok_facts h
  have h64 : c.maxWidth % 64 = 0 := by
    simp only [Config.ok, Bool.and_eq_true, beq_iff_eq] at h
    exact h.1.1.1.1.1.1.1.1
  have hpos : 0 < c.maxWidth := by omega
  have hq : c.maxHeight ≤ 8388608 / c.maxWidth := (Nat.le_div_iff_mul_le hpos).mpr (by rw [Nat.mul_comm]; exact h6)
  have hw : legalMaxWidth (c.maxWidth / 64 - 1) = c.maxWidth := by
    unfold legalMaxWidth
    rw [Nat.mod_eq_of_lt (by omega)]
    omega
  have hh : legalMaxHeight c.maxWidth (c.maxHeight - 1) = c.maxHeight := by
    unfold legalMaxHeight
    rw [Nat.mod_eq_of_lt (by omega)]
    omega
  have hd : (c.fullDen - 1) % 255 = c.fullDen - 1 := Nat.mod_eq_of_lt (by omega)
  have hn : c.fullNum % (2 + (c.fullDen - 1) % 255) = c.fullNum := Nat.mod_eq_of_lt (by omega)
  have hp : ∃ r, legalPackWidth r = c.packWidth := by
    cases c.packWidth
    · exact ⟨2, rfl⟩
    · exact ⟨1, rfl⟩
    · exact ⟨0, rfl⟩
  obtain ⟨rw', hp⟩ := hp
  refine ⟨rw', c.maxWidth / 64 - 1, c.maxHeight - 1, c.fullNum, c.fullDen - 1, ?_⟩
  unfold Config.ofRaw
  rw [hp, hw, hh, hn, hd]
  cases c
  simp only [Config.mk.injEq, true_and] at h8 ⊢
  omega

end Sys2Proof
end

