-- ==== Sys2Proof/Laws/Encoding.lean ====
section
/-! SUPPORT. Laws of the decoder and the encoder: what a decoded word matches, and each operand field as a masked part of its word. -/

namespace Sys2Proof

/-- A word that decodes matches the row of its OP, and gives that row's instruction (30_encoding.md R94). -/
theorem decode_row {v : Word} {i : Instr} (h : decode v = .ok i) :
    ∃ row ∈ opcodeTable, opcodeTable[opField v]? = some row ∧ v &&& row.mask = row.pattern ∧ i = row.operands v := by
  unfold decode at h
  split at h
  · simp at h
  · rename_i row hr
    split at h
    · exact ⟨row, List.mem_of_getElem? hr, hr, ‹_›, by simpa using h.symm⟩
    · simp at h

/-- Bits `k` to `k+n-1` of a word, taken out and placed back at `k`, are the word under the mask of those bits. -/
theorem placed_extract (v : Word) (k n : Nat) (h : k + n ≤ 32) (m : Word)
    (hm : ∀ j : Fin 32, m.getLsbD j.val = (decide (k ≤ j.val) && decide (j.val < k + n))) :
    placed (v.extractLsb' k n).toNat k = v &&& m := by
  have h1 : BitVec.ofNat 32 (v.extractLsb' k n).toNat = (v.extractLsb' k n).setWidth 32 := BitVec.eq_of_toNat_eq (by simp)
  refine BitVec.eq_of_getLsbD_eq fun j hj => ?_
  have hmj := hm ⟨j, hj⟩
  simp only at hmj
  rw [placed, h1, BitVec.getLsbD_shiftLeft, BitVec.getLsbD_setWidth, BitVec.getLsbD_extractLsb', BitVec.getLsbD_and, hmj,
    Bool.eq_iff_iff]
  simp only [Bool.and_eq_true, Bool.not_eq_true', decide_eq_true_eq, decide_eq_false_iff_not]
  constructor
  · rintro ⟨⟨_, h1⟩, h2, h3, h4⟩
    rw [Nat.add_sub_cancel' (by omega)] at h4
    exact ⟨h4, by omega, by omega⟩
  · rintro ⟨h1, h2, h3⟩
    rw [Nat.add_sub_cancel' (by omega)]
    exact ⟨⟨hj, by omega⟩, by omega, by omega, h1⟩

theorem placed_pdField (v : Word) : placed (pdField v).val 4 = v &&& 0x30#32 := placed_extract v 4 2 (by decide) _ (by decide)

theorem placed_psField (v : Word) : placed (psField v).val 6 = v &&& 0xC0#32 := placed_extract v 6 2 (by decide) _ (by decide)

theorem placed_fsField (v : Word) : placed (fsField v).val 8 = v &&& 0x100#32 := placed_extract v 8 1 (by decide) _ (by decide)

theorem placed_fdField (v : Word) : placed (fdField v).val 9 = v &&& 0x200#32 := placed_extract v 9 1 (by decide) _ (by decide)

theorem placed_strField (v : Word) : placed (strField v).val 10 = v &&& 0x1C00#32 :=
  placed_extract v 10 3 (by decide) _ (by decide)

/-- A word is its pattern under a mask it matches, with its own bits outside the mask. -/
theorem pattern_or_rest {v m p : Word} (h : v &&& m = p) : p ||| (v &&& ~~~ m) = v := by
  subst h
  rw [← BitVec.and_or_distrib_left]
  have hm := BitVec.or_not_self m
  rw [hm]
  exact BitVec.and_allOnes

end Sys2Proof
end

