-- ==== Sys2Proof/Laws/PerInstr.lean ====
section
/-! SUPPORT. A law stated per command: each command's word has its own row of the opcode table, matches it, and sets no bit from 13
up. -/

namespace Sys2Proof

/-- OP of a command (30_encoding.md R93). -/
def Laws.TableRow.opOf : Instr → Nat
  | .nop => 0
  | .thresh _ _ => 1
  | .tdiff _ _ => 2
  | .dilh _ _ => 3
  | .dilv _ _ => 4
  | .eroh _ _ => 5
  | .erov _ _ => 6
  | .comp _ _ _ _ => 7
  | .clear _ => 8

/-- The command's word has the command's OP, matches the row of that OP, and leaves the bits 31:13 at 0 (R91, R93, R94). -/
def Laws.TableRow.Statement (i : Instr) : Prop :=
  opField (encode i) = Laws.TableRow.opOf i ∧
  (opcodeTable[Laws.TableRow.opOf i]?.any fun row => encode i &&& row.mask == row.pattern) = true ∧
  (encode i).toNat < 2 ^ 13

theorem Laws.TableRow.nop : Laws.TableRow.Statement .nop := by
  unfold Laws.TableRow.Statement; decide +kernel

theorem Laws.TableRow.thresh (pd : PlaneIdx) (fs : FrameIdx) : Laws.TableRow.Statement (.thresh pd fs) := by
  unfold Laws.TableRow.Statement; revert pd fs; decide +kernel

theorem Laws.TableRow.tdiff (pd ps : PlaneIdx) : Laws.TableRow.Statement (.tdiff pd ps) := by
  unfold Laws.TableRow.Statement; revert pd ps; decide +kernel

theorem Laws.TableRow.dilh (pd ps : PlaneIdx) : Laws.TableRow.Statement (.dilh pd ps) := by
  unfold Laws.TableRow.Statement; revert pd ps; decide +kernel

theorem Laws.TableRow.dilv (pd ps : PlaneIdx) : Laws.TableRow.Statement (.dilv pd ps) := by
  unfold Laws.TableRow.Statement; revert pd ps; decide +kernel

theorem Laws.TableRow.eroh (pd ps : PlaneIdx) : Laws.TableRow.Statement (.eroh pd ps) := by
  unfold Laws.TableRow.Statement; revert pd ps; decide +kernel

theorem Laws.TableRow.erov (pd ps : PlaneIdx) : Laws.TableRow.Statement (.erov pd ps) := by
  unfold Laws.TableRow.Statement; revert pd ps; decide +kernel

theorem Laws.TableRow.comp (fd fs : FrameIdx) (pm : PlaneIdx) (str : StrengthCode) :
    Laws.TableRow.Statement (.comp fd fs pm str) := by
  unfold Laws.TableRow.Statement; revert fd fs pm str; decide +kernel

theorem Laws.TableRow.clear (pd : PlaneIdx) : Laws.TableRow.Statement (.clear pd) := by
  unfold Laws.TableRow.Statement; revert pd; decide +kernel

end Sys2Proof
end

