-- ==== Sys2Proof/Laws/Step.lean ====
section
/-! SUPPORT. Everything one step can do. -/

namespace Sys2Proof.Machine

/-- The next states of the engine's turn. -/
inductive TurnNext (s : State) : State → Prop where
  | idle (h : s.busy = false) : TurnNext s s
  | rejected (e : CmdError) (h : s.busy = true) (hv : validate s.pend s = some e) : TurnNext s (reject e s)
  | completed (i : Instr) (m : Memory) (h : s.busy = true) (hd : decode s.pend = .ok i) (hi : issueError s i = none)
      (hm : BufferEffect s m) : TurnNext s (complete { s with mem := m })

theorem engineTurn_next {s t : State} (h : engineTurn s = .next t) : TurnNext s t := by
  unfold engineTurn at h
  cases hb : s.busy with
  | false => simp only [hb, Bool.false_eq_true, if_false, Host.Outcome.next.injEq] at h; subst h; exact .idle hb
  | true =>
    simp only [hb, if_true, performPending] at h
    cases hd : decode s.pend with
    | error e =>
      simp only [hd, Host.Outcome.next.injEq] at h
      subst h; exact .rejected _ hb (by simp [validate, hd])
    | ok i =>
      simp only [hd] at h
      rcases exec_next h with ⟨e, he, rfl⟩ | ⟨m, hi, hm, rfl⟩
      · exact .rejected e hb (by simp [validate, hd, he])
      · exact .completed i m hb hd hi hm

/-- The next states of one event. -/
theorem applyInput_next {i : Input} {s t : State} (h : applyInput i s = .next t) :
    (∃ a, i = .access a ∧ hostAccess a s = .next t) ∨ (i = .reset ∧ t = applyReset s) ∨
    (i = .engine ∧ TurnNext s t) := by
  cases i with
  | access a => exact .inl ⟨a, rfl, h⟩
  | reset => exact .inr (.inl ⟨rfl, by simpa [applyInput] using h.symm⟩)
  | engine => exact .inr (.inr ⟨rfl, engineTurn_next h⟩)

/-- The next states of one step. -/
theorem step_next {s t : State} (h : step s = .next t) :
    (s.inputs = [] ∧ TurnNext s t) ∨
    (∃ i rest, s.inputs = i :: rest ∧ applyInput i { s with inputs := rest } = .next t) := by
  unfold step stepNext at h
  cases hi : s.inputs with
  | nil => simp only [hi] at h; exact .inl ⟨rfl, engineTurn_next h⟩
  | cons i rest => simp only [hi] at h; exact .inr ⟨i, rest, rfl, h⟩

/-- To show that every step keeps a property it is enough that the engine's turn, a host access and a reset keep it, and that it does
not look at the events still to come. -/
theorem step_keeps {Inv : State → Prop} (hin : ∀ s rest, Inv s → Inv { s with inputs := rest })
    (hturn : ∀ s t, Inv s → TurnNext s t → Inv t) (hacc : ∀ a s t, Inv s → hostAccess a s = .next t → Inv t)
    (hreset : ∀ s, Inv s → Inv (applyReset s)) {s t : State} (hs : Inv s) (h : step s = .next t) : Inv t := by
  rcases step_next h with ⟨_, ht⟩ | ⟨i, rest, _, hi⟩
  · exact hturn s t hs ht
  · have hs := hin s rest hs
    rcases applyInput_next hi with ⟨a, _, ha⟩ | ⟨_, rfl⟩ | ⟨_, ht⟩
    · exact hacc a _ t hs ha
    · exact hreset _ hs
    · exact hturn _ t hs ht

/-- No step is refused. -/
theorem step_not_refused (s : State) (r : Refusal) : step s ≠ .refused r := by
  have hturn : ∀ s : State, engineTurn s ≠ .refused r := by
    intro s h
    unfold engineTurn performPending at h
    split at h
    · split at h
      · exact exec_not_refused _ _ _ h
      · simp at h
    · simp at h
  intro h
  unfold step stepNext at h
  split at h
  · exact hturn _ h
  · rename_i i rest _
    cases i with
    | access a => exact hostAccess_not_refused _ _ _ h
    | reset => simp [applyInput] at h
    | engine => exact hturn _ h

end Sys2Proof.Machine
end

