-- ==== Sys2Proof/Tests/Slice0.lean ====
section
/-! SUPPORT. Tests of the model: the ill-formed commands, words written out bit by bit, one step per vector of spec/95_test_vectors.md,
and a witness for the hypotheses of each statement. Expected values are the spec's own. -/

namespace Sys2Proof.Tests

set_option Elab.async false

open Sys2Proof.Machine Sys2Proof.Claims

/-! ### Small states -/

/-- The test configuration of 95_test_vectors.md section 0; FULL is 3/4. -/
def cfg : Config := { packWidth := .w64, maxWidth := 128, maxHeight := 64, fullNum := 3, fullDen := 4 }

/-- After reset, with a geometry. -/
def idle (w h : BitVec 16) : State := { State.reset with cfg := cfg, width := w, height := h }

/-- With plane rows given as window bytes. -/
def plane (p : PlaneIdx) (rows : List (List Byte)) (s : State) : State :=
  { s with mem := rows.zipIdx.foldl (fun m row => writeBytes m (planeByteAddr cfg p row.2 0) row.1) s.mem }

/-- With the first bytes of a frame. -/
def frame (f : FrameIdx) (bytes : List Byte) (s : State) : State := { s with mem := writeBytes s.mem (frameBase f) bytes }

/-- With a command accepted and not yet performed. -/
def pending (v : Word) (s : State) : State := { s with pend := v, done := false, busy := true }

/-- With events still to come. -/
def events (is : List Input) (s : State) : State := { s with inputs := is }

/-- The step answers a next state with this property. -/
def nextIs (o : Host.Outcome State Fault Refusal) (p : State → Bool) : Bool :=
  match o with
  | .next t => p t
  | .fault _ => false
  | .refused _ => false

/-- The step answers this fault. -/
def faultIs (o : Host.Outcome State Fault Refusal) (f : Fault) : Bool :=
  match o with
  | .next _ => false
  | .fault g => decide (g = f)
  | .refused _ => false

/-- A plane's rows as the window bytes a host reads. -/
def rowsAre (p : PlaneIdx) (rows : List (List Byte)) (t : State) : Bool :=
  rows.zipIdx.all fun row => row.1.zipIdx.all fun b => planeWindowByte t p (16 * row.2 + b.2) == b.1

/-- The first bytes of a frame. -/
def frameIs (f : FrameIdx) (bytes : List Byte) (t : State) : Bool :=
  bytes.zipIdx.all fun b => decide (readByte t.mem (frameBase f + b.2) = some b.1)

theorem exists_next {o : Host.Outcome State Fault Refusal} {p : State → Bool} (h : nextIs o p = true) :
    ∃ t, o = .next t ∧ p t = true := by
  cases o with
  | next t => exact ⟨t, rfl, h⟩
  | fault f => simp [nextIs] at h
  | refused r => simp [nextIs] at h

/-! ### Ill-formed commands are refused -/

theorem test_same_plane_is_ill_formed :
    (Instr.tdiff 0 0).planesDiffer = false ∧ (Instr.dilh 1 1).planesDiffer = false ∧ (Instr.dilv 2 2).planesDiffer = false ∧
    (Instr.eroh 3 3).planesDiffer = false ∧ (Instr.erov 0 0).planesDiffer = false ∧ (Instr.dilh 1 1).wellFormed = false ∧
    (Instr.dilh 1 0).wellFormed = true := by decide

theorem test_unnamed_strength_is_ill_formed :
    (Instr.comp 0 0 0 5).strengthNamed = false ∧ (Instr.comp 0 0 0 7).wellFormed = false ∧
    (Instr.comp 0 0 0 4).wellFormed = true := by decide

/-! ### Words written out from 30_encoding.md R91: STR 12:10, FD 9, FS 8, PS 7:6, PD 5:4, OP 3:0 -/

/-- NOP: the zero word. -/
theorem test_decode_nop : decode 0b0000000000000000000_000_0_0_00_00_0000#32 = .ok .nop := by decide

/-- THRESH P3, F1: FS = 1, PD = 3, OP = 1. -/
theorem test_decode_thresh : decode 0b0000000000000000000_000_0_1_00_11_0001#32 = .ok (.thresh 3 1) := by decide

/-- TDIFF P0, P1: PS = 1, PD = 0, OP = 2. -/
theorem test_decode_tdiff : decode 0b0000000000000000000_000_0_0_01_00_0010#32 = .ok (.tdiff 0 1) := by decide

/-- DILH P2, P1: PS = 1, PD = 2, OP = 3. -/
theorem test_decode_dilh : decode 0b0000000000000000000_000_0_0_01_10_0011#32 = .ok (.dilh 2 1) := by decide

/-- DILV P1, P2: PS = 2, PD = 1, OP = 4. -/
theorem test_decode_dilv : decode 0b0000000000000000000_000_0_0_10_01_0100#32 = .ok (.dilv 1 2) := by decide

/-- EROH P2, P3: PS = 3, PD = 2, OP = 5. -/
theorem test_decode_eroh : decode 0b0000000000000000000_000_0_0_11_10_0101#32 = .ok (.eroh 2 3) := by decide

/-- EROV P3, P2: PS = 2, PD = 3, OP = 6. -/
theorem test_decode_erov : decode 0b0000000000000000000_000_0_0_10_11_0110#32 = .ok (.erov 3 2) := by decide

/-- COMP F1, F0, P2, high: STR = 3, FD = 1, FS = 0, PS = 2, OP = 7; and COMP F0, F1, P0, full. -/
theorem test_decode_comp :
    decode 0b0000000000000000000_011_1_0_10_00_0111#32 = .ok (.comp 1 0 2 3) ∧
    decode 0b0000000000000000000_100_0_1_00_00_0111#32 = .ok (.comp 0 1 0 4) := by decide

/-- CLEAR P3: PD = 3, OP = 8. -/
theorem test_decode_clear : decode 0b0000000000000000000_000_0_0_00_11_1000#32 = .ok (.clear 3) := by decide

/-- A row's OP with a bit it does not use, and the reserved OPs. -/
theorem test_decode_refuses :
    decode 0x2001#32 = .error .reservedBits ∧ decode 0x41#32 = .error .reservedBits ∧ decode 0x10#32 = .error .reservedBits ∧
    decode 0x17#32 = .error .reservedBits ∧ decode 0x9#32 = .error .reservedOpcode ∧
    decode 0xFFFFFFFF#32 = .error .reservedOpcode := by decide

/-- The encodings of 95_test_vectors.md section 3. -/
theorem test_encode :
    encode (.thresh 3 1) = 0x131#32 ∧ encode (.tdiff 0 1) = 0x42#32 ∧ encode (.dilh 2 1) = 0x63#32 ∧
    encode (.dilv 3 2) = 0xB4#32 ∧ encode (.eroh 2 3) = 0xE5#32 ∧ encode (.erov 1 2) = 0x96#32 ∧
    encode (.comp 1 1 3 1) = 0x7C7#32 ∧ encode (.comp 0 0 1 2) = 0x847#32 ∧ encode (.clear 2) = 0x28#32 := by decide

/-! ### One step per instruction -/

/-- N1, N4: NOP sets DONE, and irq with IE_DONE = 1. -/
theorem test_nop : nextIs (step ({ idle 0 0 with ieDone := true }.withFetchWord 32 0)) (fun t =>
    statusWord t == 0x02#32 && irq t && t.mem == []) = true := by decide +kernel

/-- T1: the pixels (0,0,0,255), (0,0,1,0), (255,0,0,0), (0,0,0,0) give 0110; alpha is ignored. -/
theorem test_thresh : nextIs (step ((frame 0 [0, 0, 0, 255, 0, 0, 1, 0, 255, 0, 0, 0, 0, 0, 0, 0] (idle 4 1)).withFetchWord 32 0x1))
    (fun t => rowsAre 0 [[0x06, 0x00]] t && statusWord t == 0x02#32) = true := by decide +kernel

/-- T7, at pixel 1: a blue byte without a value faults; the alpha byte of pixel 0, which has none either, is not read. -/
theorem test_thresh_fault : faultIs (step ((plane 0 [[0xFF]] { idle 2 1 with
    mem := writeBytes (writeBytes [] 0x10000000 [0, 0, 0]) 0x10000004 [0, 0] }).withFetchWord 32 0x1))
    (.uninitRead 0 1 .b) = true := by decide +kernel

/-- TD1: rows 0F, 0F, F0 give 0F, 00, FF. -/
theorem test_tdiff : nextIs (step ((plane 0 [[0x0F], [0x0F], [0xF0]] (idle 8 3)).withFetchWord 32 0x12))
    (rowsAre 1 [[0x0F], [0x00], [0xFF]]) = true := by decide +kernel

/-- TD6: TDIFF P0, P0 is rejected with E_ALIAS, and STATUS reads 0x44. -/
theorem test_tdiff_alias : nextIs (hostAccess (cmdWrite 0x2#32) (plane 0 [[0x0F]] (idle 8 1)))
    (fun t => statusWord t == 0x44#32 && rowsAre 0 [[0x0F]] t) = true := by decide +kernel

/-- H10: the rightmost of ten pixels; x = 10 stays 0. -/
theorem test_dilh : nextIs (step ((plane 0 [[0x00, 0x02]] (idle 10 1)).withFetchWord 32 0x13))
    (rowsAre 1 [[0x00, 0x03]]) = true := by decide +kernel

/-- H15: the end of row 0 is not next to the start of row 1. -/
theorem test_dilh_rows : nextIs (step ((plane 0 [[0x00, 0x80], [0x01, 0x00]] (idle 16 2)).withFetchWord 32 0x13))
    (rowsAre 1 [[0x00, 0xC0], [0x03, 0x00]]) = true := by decide +kernel

/-- V6: four rows 81, 42, 24, 18. -/
theorem test_dilv : nextIs (step ((plane 0 [[0x81], [0x42], [0x24], [0x18]] (idle 8 4)).withFetchWord 32 0x14))
    (rowsAre 1 [[0xC3], [0xE7], [0x7E], [0x3C]]) = true := by decide +kernel

/-- H9: all ten pixels set; both ends become 0. -/
theorem test_eroh : nextIs (step ((plane 0 [[0xFF, 0x03]] (idle 10 1)).withFetchWord 32 0x15))
    (rowsAre 1 [[0xFE, 0x01]]) = true := by decide +kernel

/-- S3 for W = 8: only x = 7 of 16 pixels set; no bit stays set. -/
theorem test_eroh_single : nextIs (step ((plane 0 [[0x80, 0x00]] (idle 16 1)).withFetchWord 32 0x15))
    (rowsAre 1 [[0x00, 0x00]]) = true := by decide +kernel

/-- V3: rows FF, FF, FF give 00, FF, 00. -/
theorem test_erov : nextIs (step ((plane 0 [[0xFF], [0xFF], [0xFF]] (idle 8 3)).withFetchWord 32 0x16))
    (rowsAre 1 [[0x00], [0xFF], [0x00]]) = true := by decide +kernel

/-- M1 and M2 on one row: the masked pixel (200,100,50,255) is halved, the unmasked (9,9,9,9) is copied. -/
theorem test_comp : nextIs (step ((plane 2 [[0x01]] (frame 0 [200, 100, 50, 255, 9, 9, 9, 9] (idle 2 1))).withFetchWord 32 0xE87))
    (frameIs 1 [100, 50, 25, 127, 9, 9, 9, 9]) = true := by decide +kernel

/-- M3: strength medium in place, (255,255,255,255) to (170,170,170,170). -/
theorem test_comp_in_place : nextIs (step ((plane 1 [[0x01]] (frame 0 [255, 255, 255, 255] (idle 1 1))).withFetchWord 32 0x847))
    (frameIs 0 [170, 170, 170, 170]) = true := by decide +kernel

/-- Section 8's table: subtle, low, medium and high of 3, 128 and 255. -/
theorem test_attenuate :
    [(8, 9), (4, 5), (2, 3), (1, 2)].map (fun r => attenuate r 3) = [2, 2, 2, 1] ∧
    [(8, 9), (4, 5), (2, 3), (1, 2)].map (fun r => attenuate r 128) = [113, 102, 85, 64] ∧
    [(8, 9), (4, 5), (2, 3), (1, 2)].map (fun r => attenuate r 255) = [226, 204, 170, 127] := by decide

/-- N3: CLEAR P3 leaves P0. -/
theorem test_clear : nextIs (step ((plane 3 [[0xFF, 0xFF]] (plane 0 [[0x01, 0x00]] (idle 16 1))).withFetchWord 32 0x38))
    (fun t => rowsAre 3 [[0x00, 0x00]] t && rowsAre 0 [[0x01, 0x00]] t) = true := by decide +kernel

/-- N2: CLEAR completes with GEOMETRY = 0. -/
theorem test_clear_no_geometry : nextIs (step ((idle 0 0).withFetchWord 32 0x38)) (fun t => statusWord t == 0x02#32) = true := by
  decide +kernel

/-! ### The host bus -/

/-- G1, G2, G4, G5: ID, PARAM, MAXDIM and STATUS after reset. -/
theorem test_registers_after_reset :
    [Register.id, .param, .maxdim, .status].map (readRegister (idle 0 0)) = [0x464D5644#32, 0x2440#32, 0x400080#32, 0#32] := by
  decide +kernel

/-- G10, G11, G12: STATUS = 0x56, and the writes 0x2, 0x4 and 0xFFFFFFF9. -/
theorem test_status_write_one_clears :
    [0x2#32, 0x4#32, 0xFFFFFFF9#32].map
      (fun v => statusWord (writeStatus v { idle 0 0 with done := true, err := true, errcode := 5 })) =
    [0x54#32, 0x02#32, 0x56#32] := by decide +kernel

/-- B1, B2, B3, B5, B8, B9, B12, B15, B17, B20: the bus error of a read. -/
theorem test_bus_errors :
    [(AccessWidth.w32, 0x0000000C#32), (.w8, 0x0000000D#32), (.w8, 0x00000018#32), (.w32, 0x00000002#32), (.w16, 0x01000001#32),
      (.w32, 0x01000002#32), (.w8, 0x01000400#32), (.w32, 0x10008000#32), (.w32, 0x10000002#32), (.w32, 0x18000000#32)].map
      (fun wa => busError (idle 0 0) (.read wa.1 wa.2)) =
    [some .unmapped, some .unmapped, some .width, some .width, some .misaligned, some .misaligned, some .unmapped, some .unmapped,
      some .misaligned, some .unmapped] := by decide +kernel

/-- B10, B11: the last byte of P0 is mapped and reads 0. -/
theorem test_last_plane_byte : nextIs (hostAccess (.read .w8 0x010003FF#32) (idle 0 0)) (fun t => t.response == .data 0#32) = true := by
  decide +kernel

/-- B16: the last pixel of F1, written; the write's bytes are lowest first. -/
theorem test_last_frame_pixel : nextIs (hostAccess (.write .w32 0x14007FFC#32 0x01020304#32) (idle 0 0))
    (fun t => decide (readByte t.mem 0x14007FFC = some 4) && decide (readByte t.mem 0x14007FFF = some 1)) = true := by decide +kernel

/-- B19: a frame byte after reset holds no value. -/
theorem test_unwritten_frame_byte :
    faultIs (hostAccess (.read .w32 0x10000000#32) (idle 0 0)) (.uninitRead 0 0 .r) = true := by decide +kernel

/-- Program E: a plane write drops the bits outside the active region. -/
theorem test_plane_write_is_masked :
    nextIs (hostAccess (.write .w8 0x01000001#32 0xFF#32) (idle 10 2)) (rowsAre 0 [[0x00, 0x03]]) = true := by decide +kernel

/-- K1, K3, K4: bus errors while BUSY = 1. -/
theorem test_busy :
    [Access.read .w32 0x10000000#32, .write .w32 0x010#32 0x10010#32, .write .w32 0x01C#32 0#32].map
      (busError (pending 0x1#32 (idle 8 1))) = [some .busy, some .busy, some .busy] := by decide +kernel

/-! ### A witness for the hypotheses of each statement -/

/-- Validation's boundary values: OP 8 and 9, the widths 0, 1, 128 and 129, the strengths 4 and 5, one plane twice (section 10). -/
theorem witness_CommandErrorCausesByField :
    validate 0x9#32 (idle 16 4) = some .opcode ∧ validate 0x8#32 (idle 0 0) = none ∧ validate 0x2053#32 (idle 16 4) = some .rsvd ∧
    validate 0x1#32 (idle 0 1) = some .dim ∧ validate 0x1#32 (idle 1 1) = none ∧ validate 0x1#32 (idle 128 64) = none ∧
    validate 0x1#32 (idle 129 64) = some .dim ∧ validate 0x1#32 (idle 128 65) = some .dim ∧
    validate 0x53#32 (idle 16 4) = some .aliasing ∧ validate 0x53#32 (idle 0 0) = some .dim ∧
    validate 0x1007#32 (idle 16 4) = none ∧ validate 0x1407#32 (idle 16 4) = some .strength ∧
    validate 0x1FC7#32 (idle 129 4) = some .dim := by decide +kernel

theorem witness_ValidationReportsFirstCode :
    [0x9#32, 0x2053#32, 0x53#32, 0x1407#32, 0x38#32].map (fun v => codeOf (validate v (idle 16 4))) = [1, 2, 4, 5, 0] ∧
    [0x9#32, 0x2053#32, 0x53#32, 0x1407#32, 0x38#32].map (fun v => codeOf (validate v (idle 0 0))) = [1, 2, 3, 3, 0] := by
  decide +kernel

theorem witness_EncodeOfDecodeIsIdentity : decode 0x1107#32 = .ok (.comp 0 1 0 4) ∧ decode 0x53#32 = .ok (.dilh 1 1) := by decide

/-- Each of the four answers to a CMD write occurs. -/
theorem witness_CmdWriteIssuesCommand :
    faultIs (hostAccess (cmdWrite 0) (pending 0x1#32 (idle 8 1))) (.busError .busy) = true ∧
    nextIs (hostAccess (cmdWrite 0) { idle 8 1 with err := true }) (fun t => !t.busy && t.err) = true ∧
    nextIs (hostAccess (cmdWrite 0x9#32) (idle 8 1)) (fun t => !t.busy && t.err && t.errcode == 1) = true ∧
    nextIs (hostAccess (cmdWrite 0x1#32) (idle 8 1)) (fun t => t.busy && t.pend == 0x1#32) = true := by decide +kernel

theorem witness_RejectedCommandIsPrecise :
    (idle 16 4).busy = false ∧ (idle 16 4).err = false ∧ validate 0x53#32 (idle 16 4) = some .aliasing := by decide +kernel

theorem witness_ErrorIsStickyUntilCleared :
    ({ idle 16 4 with err := true, errcode := 4 } : State).busy = false ∧ (0x4#32).getLsbD 2 = true ∧
    validate 0x13#32 { idle 16 4 with err := true, errcode := 4 } = none ∧
    validate 0x53#32 { idle 16 4 with err := true, errcode := 4 } = some .aliasing := by decide +kernel

theorem witness_StepExecutesPendingCommand :
    decode (events [.engine, .reset] (pending 0x38#32 (idle 0 0))).pend = .ok (.clear 3) ∧
    (events [.engine, .reset] (pending 0x38#32 (idle 0 0))).busy = true ∧
    (events [.engine, .reset] (pending 0x38#32 (idle 0 0))).inputs = [.engine, .reset] ∧
    (pending 0x38#32 (idle 0 0)).inputs = [] := by decide +kernel

theorem witness_PlacedCommandIsExecutedNext : 0x1107 < 2 ^ 32 ∧ decodeTableWord 32 0x1107 = some (.comp 0 1 0 4) := by decide

/-- Both forms of the engine's turn, a command that completes in each, and one that faults. -/
theorem witness_EngineStepCompletesCommand :
    (pending 0x38#32 (idle 0 0)).busy = true ∧ (pending 0x38#32 (idle 0 0)).inputs = [] ∧
    (events [.engine, .reset] (pending 0x38#32 (idle 0 0))).inputs = .engine :: [.reset] ∧
    nextIs (step (pending 0x38#32 (idle 0 0))) (fun t => !t.busy && t.done && t.inputs == []) = true ∧
    nextIs (step (events [.engine, .reset] (pending 0x38#32 (idle 0 0)))) (fun t => !t.busy && t.done && t.inputs == [.reset]) = true ∧
    validate (pending 0x38#32 (idle 0 0)).pend (pending 0x38#32 (idle 0 0)) = none ∧
    faultIs (step (pending 0x1#32 (idle 8 1))) (.uninitRead 0 0 .r) = true := by decide +kernel

theorem witness_RefusedCommandTakesItsRejection :
    validate (encode (.dilh 1 1)) (idle 16 4) = some .aliasing ∧ validate (encode (.thresh 0 0)) (idle 0 0) = some .dim ∧
    validate (encode (.comp 0 0 0 5)) (idle 16 4) = some .strength := by decide +kernel

theorem witness_NopOnlySetsDone :
    field 0x10#32 0 4 = 0 ∧ validate 0x10#32 (idle 0 0) = some .rsvd ∧ validate 0#32 (idle 0 0) = none ∧
    nextIs (exec .nop { idle 0 0 with ieDone := true }) (fun t => irq t) = true := by decide +kernel

theorem witness_ClearZeroesWholePlane :
    field 0x138#32 0 4 = 8 ∧ validate 0x138#32 (idle 0 0) = some .rsvd ∧ field 0x38#32 0 4 = 8 ∧
    validate 0x38#32 (idle 0 0) = none ∧ (idle 0 0).cfg.ok = true := by decide +kernel

/-- A 2 × 1 frame with its R, G and B bytes written. -/
def litFrame : State := { idle 2 1 with mem := writeBytes (writeBytes [] 0x10000000 [1, 2, 3]) 0x10000004 [0, 0, 0] }

theorem witness_ThreshMarksLitPixels : litFrame.cfg.ok = true ∧ validGeometry litFrame ∧ frameSet litFrame 0 (2 * 1) [.r, .g, .b] :=
  ⟨by decide +kernel, by decide +kernel, (firstUnset_eq_none _ _ _ _).mp (by decide +kernel)⟩

/-- The blue byte of pixel 0 holds no value, red and green do. -/
theorem witness_ThreshFaultsOnUnwrittenByte :
    ∃ s : State, validGeometry s ∧ 0 < s.width.toNat * s.height.toNat ∧ Channel.b ≠ .a ∧ frameByte s 0 0 .b = none ∧
      ∀ j d, d ≠ .a → readBefore j d 0 .b → (frameByte s 0 j d).isSome = true := by
  refine ⟨frame 0 [7, 8] (idle 1 1), by decide +kernel, by decide +kernel, by decide, by decide +kernel, fun j d _ h => ?_⟩
  rcases h with h | ⟨rfl, h⟩
  · omega
  · revert h; cases d <;> decide +kernel

theorem witness_TdiffXorsWithRowAbove : (idle 128 64).cfg.ok = true ∧ validGeometry (idle 128 64) ∧ (0 : PlaneIdx) ≠ 1 := by
  decide +kernel

theorem witness_DilhOrsRowNeighbours : (idle 1 1).cfg.ok = true ∧ validGeometry (idle 1 1) ∧ (0 : PlaneIdx) ≠ 1 := by
  decide +kernel

theorem witness_DilvOrsColumnNeighbours : (idle 128 64).cfg.ok = true ∧ validGeometry (idle 128 64) ∧ (3 : PlaneIdx) ≠ 2 := by
  decide +kernel

theorem witness_ErohAndsRowNeighbours : (idle 128 1).cfg.ok = true ∧ validGeometry (idle 128 1) ∧ (0 : PlaneIdx) ≠ 1 := by
  decide +kernel

theorem witness_ErovAndsColumnNeighbours : (idle 1 64).cfg.ok = true ∧ validGeometry (idle 1 64) ∧ (0 : PlaneIdx) ≠ 3 := by
  decide +kernel

/-- A 2 × 1 frame with all its bytes written, and a mask with one bit set. -/
def fullFrame : State := plane 1 [[0x02]] (frame 0 [200, 100, 50, 255, 9, 8, 7, 6] (idle 2 1))

theorem fullFrame_set : frameSet fullFrame 0 (fullFrame.width.toNat * fullFrame.height.toNat) [.r, .g, .b, .a] :=
  (firstUnset_eq_none _ _ _ _).mp (by decide +kernel)

theorem witness_CompAttenuatesMaskedPixels :
    fullFrame.cfg.ok = true ∧ validGeometry fullFrame ∧ (4 : StrengthCode).val < 5 ∧
    frameSet fullFrame 0 (fullFrame.width.toNat * fullFrame.height.toNat) [.r, .g, .b, .a] :=
  ⟨by decide +kernel, by decide +kernel, by decide, fullFrame_set⟩

/-- The alpha byte of pixel 0 holds no value, the other three do (M5, at pixel 0). -/
theorem witness_CompFaultsOnUnwrittenByte :
    ∃ s : State, validGeometry s ∧ (3 : StrengthCode).val < 5 ∧ 0 < s.width.toNat * s.height.toNat ∧ frameByte s 0 0 .a = none ∧
      ∀ j d, readBefore j d 0 .a → (frameByte s 0 j d).isSome = true := by
  refine ⟨frame 0 [7, 8, 9] (idle 1 1), by decide +kernel, by decide, by decide +kernel, by decide +kernel, fun j d h => ?_⟩
  rcases h with h | ⟨rfl, h⟩
  · omega
  · revert h; cases d <;> decide +kernel

theorem witness_StrengthRatiosAttenuateExactly :
    validGeometry (idle 1 1) ∧ 5 ≤ (5 : StrengthCode).val ∧ 5 ≤ (7 : StrengthCode).val ∧ cfg.ok = true ∧
    strengthRatio cfg 0 = some (8, 9) ∧ strengthRatio cfg 4 = some (3, 4) ∧ strengthRatio cfg 5 = none := by decide +kernel

theorem witness_CompInPlaceEqualsCopy :
    fullFrame.cfg.ok = true ∧ validGeometry fullFrame ∧ (0 : StrengthCode).val < 5 ∧ (1 : FrameIdx) ≠ 0 ∧
    frameSet fullFrame 0 (fullFrame.width.toNat * fullFrame.height.toNat) [.r, .g, .b, .a] ∧
    planeBit fullFrame 1 (0 % fullFrame.width.toNat) (0 / fullFrame.width.toNat) = false :=
  ⟨by decide +kernel, by decide +kernel, by decide, by decide, fullFrame_set, by decide +kernel⟩

/-- Both a masked and an unmasked pixel; and a build whose strength full is 1. -/
theorem witness_CompPartitionsPixels :
    fullFrame.cfg.ok = true ∧ validGeometry fullFrame ∧ strengthRatio fullFrame.cfg 2 = some (2, 3) ∧
    (∃ t, exec (.comp 1 0 1 2) fullFrame = .next t) ∧ planeBit fullFrame 1 0 0 = false ∧ planeBit fullFrame 1 1 0 = true ∧
    ({ cfg with fullNum := 4 } : Config).ok = true ∧ strengthRatio { cfg with fullNum := 4 } 4 = some (4, 4) := by
  have h : nextIs (exec (.comp 1 0 1 2) fullFrame) (fun _ => true) = true := by decide +kernel
  obtain ⟨t, ht, _⟩ := exists_next h
  exact ⟨by decide +kernel, by decide +kernel, by decide +kernel, ⟨t, ht⟩, by decide +kernel, by decide +kernel,
    by decide +kernel, by decide +kernel⟩

/-- An empty source and a source with one pixel set. -/
theorem witness_RefinerOperatorsAreExtensiveAndMonotone :
    ∃ s s' : State, s.cfg.ok = true ∧ validGeometry s ∧ (0 : PlaneIdx) ≠ 1 ∧ s'.cfg = s.cfg ∧ s'.width = s.width ∧
      s'.height = s.height ∧ planeBit s' 0 3 0 = true ∧
      ∀ x y, x < s.width.toNat → y < s.height.toNat → planeBit s 0 x y = true → planeBit s' 0 x y = true := by
  refine ⟨idle 8 2, plane 0 [[0x08]] (idle 8 2), by decide +kernel, by decide +kernel, by decide, rfl, rfl, rfl,
    by decide +kernel, fun x y _ _ h => ?_⟩
  have hz : planeBit (idle 8 2) 0 x y = false := by
    show ((blank _).getD 0#8).getLsbD _ = false
    unfold blank; split <;> simp
  rw [hz] at h; simp at h

theorem witness_PassesCommuteToBoxOperators :
    (idle 64 2).cfg.ok = true ∧ validGeometry (idle 64 2) ∧ (1 : PlaneIdx) ≠ 0 ∧ (1 : PlaneIdx) ≠ 2 := by decide +kernel

theorem witness_OpeningIsBelowTheMask :
    ∃ (s : State) (pd ps pt pu pv : PlaneIdx), s.cfg.ok = true ∧ validGeometry s ∧ pt ≠ ps ∧ pd ≠ pt ∧ pu ≠ pt ∧ pv ≠ pu ∧ pd ≠ pv ∧
      planeBit s ps 1 0 = true :=
  ⟨plane 0 [[0x07]] (idle 3 1), 2, 0, 1, 2, 1, by decide +kernel⟩

/-- S4: the border pixel, and a pixel away from the border. -/
theorem witness_ClosingHoldsAwayFromBorder :
    ∃ (s : State) (pd ps pt pu pv : PlaneIdx), s.cfg.ok = true ∧ validGeometry s ∧ pt ≠ ps ∧ pd ≠ pt ∧ pu ≠ pt ∧ pv ≠ pu ∧ pd ≠ pv ∧
      planeBit s ps 0 0 = true ∧ planeBit s ps 1 1 = true :=
  ⟨plane 0 [[0x01], [0x02], [0x00]] (idle 3 3), 2, 0, 1, 2, 1, by decide +kernel⟩

theorem witness_WordFormsComputePixelRules :
    0 < (idle 10 2).height.toNat ∧ 1 < interiorWords PackWidth.w8.bits (idle 10 2) ∧ 7 < PackWidth.w8.bits ∧
    0 < interiorWords PackWidth.w64.bits (idle 10 2) := by decide +kernel

/-- A state with empty buffers has its padding at 0. -/
theorem paddingZero_of_empty {s : State} (h : s.mem = []) : s.paddingZero := by
  intro p x y _ _ _
  show ((readByte s.mem _).getD 0#8).getLsbD _ = false
  rw [h]
  show ((blank _).getD 0#8).getLsbD _ = false
  unfold blank; split <;> simp

/-- A state with a command pending: it has every invariant, and it takes a step. -/
theorem witness_StepKeepsInvariants :
    ∃ s t : State, s.Inv ∧ s.busy = true ∧ step s = .next t := by
  have h : nextIs (step (pending 0x13#32 (idle 8 1))) (fun _ => true) = true := by decide +kernel
  obtain ⟨t, ht, _⟩ := exists_next h
  refine ⟨pending 0x13#32 (idle 8 1), t, ?_, rfl, ht⟩
  exact ⟨by decide +kernel, by decide +kernel, by decide +kernel, paddingZero_of_empty rfl, fun _ => by decide +kernel,
    fun _ => ⟨rfl, rfl⟩, rfl⟩

theorem witness_StepKeepsMemoryCanonical :
    fullFrame.mem.wf = true ∧ fullFrame.mem ≠ [] ∧
    nextIs (step (events [.access (.write .w8 0x14000000#32 5#32)] fullFrame)) (fun t => t.mem.wf) = true := by decide +kernel

/-- A GEOMETRY write that makes the active region larger. -/
theorem witness_StepKeepsPaddingZero :
    ∃ s t : State, s.cfg.ok = true ∧ s.paddingZero ∧ step s = .next t ∧ t.width = 16 := by
  have h : nextIs (step (events [.access (.write .w32 0x010#32 0x10010#32)] (idle 8 1))) (fun t => t.width == 16) = true := by
    decide +kernel
  obtain ⟨t, ht, hw⟩ := exists_next h
  exact ⟨_, t, by decide +kernel, paddingZero_of_empty rfl, ht, by simpa using hw⟩

/-- A command accepted in this step. -/
theorem witness_StepKeepsPendingAccepted :
    ∃ s t : State, s.pendingAccepted ∧ s.busyAlone ∧ step s = .next t ∧ t.busy = true := by
  have h : nextIs (step (events [.access (cmdWrite 0x13#32)] (idle 8 1))) (fun t => t.busy) = true := by decide +kernel
  obtain ⟨t, ht, hb⟩ := exists_next h
  exact ⟨events [.access (cmdWrite 0x13#32)] (idle 8 1), t, by intro h; exact absurd h (by decide +kernel),
    by intro h; exact absurd h (by decide +kernel), ht, hb⟩

/-- A command rejected in this step, and an error cleared in it. -/
theorem witness_StepKeepsErrorCodeProduced :
    (idle 8 1).errcodeOk ∧ nextIs (step (events [.access (cmdWrite 0x9#32)] (idle 8 1))) (fun t => t.err && t.errcode == 1) = true ∧
    ({ idle 8 1 with err := true, errcode := 5 } : State).errcodeOk ∧
    nextIs (step (events [.access (.write .w32 0x018#32 4#32)] { idle 8 1 with err := true, errcode := 5 }))
      (fun t => !t.err && t.errcode == 0) = true :=
  ⟨rfl, by decide +kernel, by unfold State.errcodeOk; decide +kernel, by decide +kernel⟩

theorem witness_ResetLeavesGivenValues :
    (events [.reset, .engine] (pending 0x1#32 fullFrame)).inputs = .reset :: [.engine] ∧ fullFrame.cfg.ok = true := by
  decide +kernel

theorem witness_ResetAbandonsPendingCommand :
    ∃ (s t : State) (rest : List Input), s.busy = true ∧ s.inputs = .engine :: .reset :: rest ∧ step s = .next t := by
  have h : nextIs (step (events [.engine, .reset] (pending 0x38#32 (idle 0 0)))) (fun _ => true) = true := by decide +kernel
  obtain ⟨t, ht, _⟩ := exists_next h
  exact ⟨_, t, [], rfl, rfl, ht⟩

/-- Each bus error occurs, and the addresses where the clauses meet. -/
theorem witness_BusErrorIsFirstCause :
    (idle 8 1).cfg.ok = true ∧ firstCause (idle 8 1) (.read .w8 0x0000000C#32) = some .unmapped ∧
    firstCause (idle 8 1) (.read .w32 0x0000001C#32) = none ∧ firstCause (idle 8 1) (.read .w32 0x00000020#32) = some .unmapped ∧
    firstCause (idle 8 1) (.read .w16 0x00000018#32) = some .width ∧
    firstCause (idle 8 1) (.read .w16 0x010003FE#32) = none ∧ firstCause (idle 8 1) (.read .w16 0x010003FF#32) = some .misaligned ∧
    firstCause (idle 8 1) (.read .w16 0x01000400#32) = some .unmapped ∧
    firstCause (pending 0x1#32 (idle 8 1)) (.read .w8 0x10007FFF#32) = some .busy ∧
    firstCause (pending 0x1#32 (idle 8 1)) (.read .w8 0x10008000#32) = some .unmapped ∧
    cfg.ok = true ∧ 12 % AccessWidth.w32.bytes = 0 ∧ 3 < AccessWidth.w32.bytes := by decide +kernel

theorem witness_BusyHoldsOffTheHost :
    (pending 0x1#32 (idle 8 1)).busy = true ∧ (pending 0x1#32 (idle 8 1)).cfg.ok = true ∧
    (let acc := Access.write .w32 0x14007FFC#32 0#32
     0x1000 ≤ acc.address ∧ mapped (pending 0x1#32 (idle 8 1)).cfg acc.address = true ∧
      acc.address % acc.accessWidth.bytes = 0) := by decide +kernel

theorem witness_ConstantRegistersReadTheirFields :
    (idle 0 0).cfg.ok = true ∧ (idle 0 0).cfg.packWidth = .w64 ∧ paramWord (idle 0 0).cfg = 0x00002440#32 := by decide +kernel

theorem witness_GeometryWriteClearsPlanes :
    (pending 0x1#32 (idle 8 1)).busy = true ∧ (idle 8 1).busy = false ∧ (idle 8 1).cfg.ok = true ∧
    nextIs (hostAccess (.write .w32 0x010#32 0x00010008#32) (plane 0 [[0xFF]] (idle 8 1))) (rowsAre 0 [[0x00]]) = true := by
  decide +kernel

theorem witness_StatusWriteClearsOnlyOnes :
    (0x4#32).getLsbD 2 = true ∧ ({ idle 8 1 with err := true } : State).busy = false ∧
    validate 0x1#32 { idle 8 1 with err := true } = none := by decide +kernel

/-- Each of the four writes: both pending bits cleared, both enables cleared, and the enable of a pending bit set. -/
theorem witness_IrqFollowsPendingAndEnables :
    nextIs (hostAccess (.write .w32 0x018#32 6#32) { idle 8 1 with done := true, ieDone := true }) (fun t => !irq t) = true ∧
    nextIs (hostAccess (.write .w32 0x014#32 0#32) { idle 8 1 with done := true, ieDone := true }) (fun t => !irq t) = true ∧
    nextIs (hostAccess (.write .w32 0x014#32 1#32) { idle 8 1 with done := true }) (fun t => irq t) = true ∧
    nextIs (hostAccess (.write .w32 0x014#32 2#32) { idle 8 1 with err := true }) (fun t => irq t) = true := by decide +kernel

/-- The first and the last byte of a plane's window. -/
theorem witness_PlaneWindowReadsPixels :
    (idle 10 2).cfg.ok = true ∧ (idle 10 2).busy = false ∧ (0x01000000#32).toNat = 0x01000000 + 0x00100000 * (0 : PlaneIdx).val + 0 ∧
    (0x013003FF#32).toNat = 0x01000000 + 0x00100000 * (3 : PlaneIdx).val + 1023 ∧
    1023 < (idle 10 2).cfg.maxHeight * (idle 10 2).cfg.stride ∧ (0x013003FF#32).toNat % AccessWidth.w8.bytes = 0 ∧
    (0x01000000#32).toNat % AccessWidth.w32.bytes = 0 := by decide +kernel

theorem witness_PlaneWindowWritesActivePixels :
    (idle 10 2).cfg.ok = true ∧ (idle 10 2).busy = false ∧ (0x01100010#32).toNat = 0x01000000 + 0x00100000 * (1 : PlaneIdx).val + 16 ∧
    16 < (idle 10 2).cfg.maxHeight * (idle 10 2).cfg.stride ∧ (0x01100010#32).toNat % AccessWidth.w16.bytes = 0 := by
  decide +kernel

theorem witness_FrameWindowWritesBytes :
    (idle 10 2).cfg.ok = true ∧ (idle 10 2).busy = false ∧
    (0x14007FFC#32).toNat = 0x10000000 + 0x04000000 * (1 : FrameIdx).val + 32764 ∧ 32764 < 4 * (idle 10 2).cfg.maxPixels ∧
    (0x14007FFC#32).toNat % AccessWidth.w32.bytes = 0 := by decide +kernel

/-- A pixel whose four bytes are written, and one whose third byte is not. -/
theorem witness_FrameWindowReadsBytes :
    fullFrame.cfg.ok = true ∧ fullFrame.busy = false ∧ (0x10000000#32).toNat = 0x10000000 + 0x04000000 * (0 : FrameIdx).val + 0 ∧
    0 < 4 * fullFrame.cfg.maxPixels ∧ (∀ k, k < AccessWidth.w32.bytes → (readByte fullFrame.mem (0x10000000 + k)).isSome = true) ∧
    readByte (frame 0 [7, 8] (idle 1 1)).mem (0x10000000 + 2) = none ∧
    (∀ l, l < 2 → (readByte (frame 0 [7, 8] (idle 1 1)).mem (0x10000000 + l)).isSome = true) := by decide +kernel

theorem witness_ReadsHaveNoSideEffect :
    ∃ t, hostAccess (.read .w32 0x10000000#32) fullFrame = .next t ∧ (t.response == .data 0xFF3264C8#32) = true :=
  exists_next (p := fun t => t.response == .data 0xFF3264C8#32) (by decide +kernel)

theorem witness_PendingLatchIsUnreadable :
    nextIs (hostAccess (.read .w32 0x01C#32) (idle 8 1)) (fun t => t.response == .data 0#32) = true ∧
    faultIs (hostAccess (.read .w8 0x10000000#32) (idle 8 1)) (.uninitRead 0 0 .r) = true := by decide +kernel

/-- A geometry changed by reset and one changed by a write. -/
theorem witness_GeometryChangesOnlyByWriteOrReset :
    nextIs (step (events [.reset] (idle 8 1))) (fun t => t.width != (idle 8 1).width) = true ∧
    nextIs (step (events [.access (.write .w32 0x010#32 0x10010#32)] (idle 8 1))) (fun t => t.width != (idle 8 1).width) = true := by
  decide +kernel

theorem witness_BusyRisesOnlyByAcceptedWrite :
    (idle 8 1).busy = false ∧ nextIs (step (events [.access (cmdWrite 0x38#32)] (idle 8 1))) (fun t => t.busy) = true := by
  decide +kernel

/-- A byte of pixel 1 changed by reset, by a host write and by COMP. -/
theorem witness_FramesChangeOnlyByTheirWriters :
    fullFrame.cfg.ok = true ∧ 1 < fullFrame.cfg.maxPixels ∧
    nextIs (step (events [.reset] fullFrame)) (fun t => frameByte t 0 1 .r != frameByte fullFrame 0 1 .r) = true ∧
    nextIs (step (events [.access (.write .w8 0x10000004#32 1#32)] fullFrame))
      (fun t => frameByte t 0 1 .r != frameByte fullFrame 0 1 .r) = true ∧
    nextIs (step (pending 0xC47#32 fullFrame)) (fun t => frameByte t 0 1 .r != frameByte fullFrame 0 1 .r) = true := by
  decide +kernel

/-- A bit of P1 changed by reset, by a host write into its window, by a GEOMETRY write and by CLEAR P1. -/
theorem witness_PlanesChangeOnlyByTheirWriters :
    fullFrame.cfg.ok = true ∧ 1 < fullFrame.cfg.maxWidth ∧ 0 < fullFrame.cfg.maxHeight ∧
    [events [.reset] fullFrame, events [.access (.write .w8 0x01100000#32 0#32)] fullFrame,
      events [.access (.write .w32 0x010#32 0x00010002#32)] fullFrame, pending 0x18#32 fullFrame].map
      (fun s => nextIs (step s) fun t => planeBit t 1 1 0 != planeBit s 1 1 0) = [true, true, true, true] := by decide +kernel

/-- Each kind of answer occurs. -/
theorem witness_EveryStepHasDefinedResponse :
    nextIs (step (idle 8 1)) (fun _ => true) = true ∧
    faultIs (step (events [.access (.read .w32 0x20#32)] (idle 8 1))) (.busError .unmapped) = true ∧
    faultIs (step (pending 0x1#32 (idle 8 1))) (.uninitRead 0 0 .r) = true := by decide +kernel

/-- Each clause at its boundary: the last operand taken and the first refused, in every operand place. -/
theorem witness_AssemblerGivesAcceptedCommands :
    assemble (.comp 1 0 2 (.name .high)) = .ok (.comp 1 0 2 3) ∧ (3, StrengthOperand.name .high) ∈ strengthOperands ∧
    assemble (.dilh 1 1) = .error .samePlane ∧ assemble (.dilh 3 2) = .ok (.dilh 3 2) ∧
    assemble (.dilh 3 4) = .error .operandOutOfRange ∧ assemble (.dilh 4 3) = .error .operandOutOfRange ∧
    assemble (.clear 3) = .ok (.clear 3) ∧ assemble (.clear 4) = .error .operandOutOfRange ∧
    assemble (.thresh 3 1) = .ok (.thresh 3 1) ∧ assemble (.thresh 3 2) = .error .operandOutOfRange ∧
    assemble (.thresh 4 1) = .error .operandOutOfRange ∧ assemble (.comp 2 0 0 (.code 0)) = .error .operandOutOfRange ∧
    assemble (.comp 0 2 0 (.code 0)) = .error .operandOutOfRange ∧ assemble (.comp 0 0 4 (.code 0)) = .error .operandOutOfRange ∧
    assemble (.comp 0 0 0 (.code 4)) = .ok (.comp 0 0 0 4) ∧ assemble (.comp 0 0 0 (.code 5)) = .error .operandOutOfRange ∧
    validGeometry (idle 8 1) := by decide +kernel

/-- The plane mnemonics' list holds the line that DILH writes. -/
theorem witness_planeMnemonics : (3, AsmLine.dilh) ∈ planeMnemonics := by simp [planeMnemonics]

/-- R100's table with its constraints at their boundary; REFINE 0 is refused with them too. -/
theorem witness_PseudoInstructionsExpandWithinConstraints :
    assemblePseudo (.dil2 2 0 1) = .ok [.dilh 1 0, .dilv 2 1] ∧ assemblePseudo (.ero2 0 0 1) = .ok [.eroh 1 0, .erov 0 1] ∧
    assemblePseudo (.dil2 2 1 1) = .error .samePlane ∧ assemblePseudo (.ero2 1 0 1) = .error .samePlane ∧
    assemblePseudo (.close 3 3) = .error .samePlane ∧ assemblePseudo (.refine 0 0 0) = .error .samePlane ∧
    assemblePseudo (.refine 0 0 1) = .ok [] ∧ assemblePseudo (.close 1 2) = assemblePseudo (.refine 1 1 2) ∧
    assemblePseudo (.dil2 0 4 1) = .error .operandOutOfRange ∧ assemblePseudo (.refine 0 0 4) = .error .operandOutOfRange ∧
    validGeometry (idle 8 1) := by decide +kernel

end Sys2Proof.Tests
end

section
/-! Proofs for 00_scope.md: what a step does to the build and to GEOMETRY. Each kind of event has one lemma: the engine's turn
keeps both; a host access keeps the build, and GEOMETRY too unless it is a write that leads to that register; the one write that
gets there is 32 bits wide, to 0x010, while BUSY = 0. -/

namespace Sys2Proof.Machine

/-- The build and both GEOMETRY fields of `t` are those of `s`. -/
structure SameGeometry (s t : State) : Prop where
  cfg : t.cfg = s.cfg
  width : t.width = s.width
  height : t.height = s.height

theorem SameGeometry.refl (s : State) : SameGeometry s s := ⟨rfl, rfl, rfl⟩

/-! ### The engine's turn -/

theorem TurnNext.sameGeometry {s t : State} (h : TurnNext s t) : SameGeometry s t := by
  cases h with
  | idle => exact .refl s
  | rejected => exact ⟨rfl, rfl, rfl⟩
  | completed => exact ⟨rfl, rfl, rfl⟩

/-! ### Where a register access leads -/

theorem locate_register {c : Config} {a : Nat} {r : Register} (h : locate c a = some (.register r)) :
    a < 0x1000 ∧ registerAt a = some r := by
  unfold locate at h
  split at h
  · rename_i ha
    simp only [Option.map_eq_some_iff, Target.register.injEq, exists_eq_right] at h
    exact ⟨ha, h⟩
  · split at h
    · simp only at h; split at h <;> simp at h
    · split at h
      · simp only at h; split at h <;> simp at h
      · simp at h

theorem registerAt_geometry {o : Nat} (h : registerAt o = some .geometry) : o / 4 = 4 := by
  unfold registerAt at h
  split at h <;> simp_all

/-- A register access without a bus error is 32 bits wide and 4-aligned (20_memory.md R63). -/
theorem targetError_register_shape {s : State} {acc : Access} {r : Register} (h : targetError s acc (.register r) = none) :
    acc.accessWidth = .w32 ∧ acc.address % 4 = 0 := by
  by_contra hshape
  simp [targetError, hshape] at h

/-- The one write that gets an OK response from GEOMETRY (20_memory.md R63, R68). -/
theorem geometryWrite_shape {s : State} {w : AccessWidth} {a v : Word}
    (hl : locate s.cfg a.toNat = some (.register .geometry))
    (he : targetError s (.write w a v) (.register .geometry) = none) : w = .w32 ∧ a = 0x010#32 ∧ s.busy = false := by
  obtain ⟨hw, haligned⟩ := targetError_register_shape he
  have hslot : a.toNat / 4 = 4 := registerAt_geometry (locate_register hl).2
  refine ⟨hw, BitVec.eq_of_toNat_eq ?_, ?_⟩
  · change a.toNat % 4 = 0 at haligned
    change a.toNat = 16
    omega
  · by_contra hb
    simpa [refusedWhileBusy] using targetError_busy (by simpa using hb) he

/-! ### Host writes -/

theorem issue_sameGeometry (v : Word) (s : State) : SameGeometry s (issue v s) := by
  rcases issue_cases v s with ⟨_, h⟩ | ⟨e, _, _, h⟩ | ⟨_, _, h⟩ <;> rw [h] <;> exact ⟨rfl, rfl, rfl⟩

theorem writeRegister_sameGeometry (v : Word) (s : State) {r : Register} (hr : r ≠ .geometry) :
    SameGeometry s (writeRegister v s r) := by
  cases r with
  | geometry => exact absurd rfl hr
  | cmd => exact issue_sameGeometry v s
  | id | param | maxdim | ctrl | status => exact ⟨rfl, rfl, rfl⟩

theorem writeTarget_sameGeometry (s : State) (n : Nat) (v : Word) {tg : Target} (ht : tg ≠ .register .geometry) :
    SameGeometry s (writeTarget s n v tg) := by
  cases tg with
  | register r => exact writeRegister_sameGeometry v s fun hr => ht (congrArg _ hr)
  | plane | frame => exact ⟨rfl, rfl, rfl⟩

/-- An answered access keeps the build, and GEOMETRY too unless it is a 32-bit write to 0x010 while BUSY = 0. -/
theorem hostAccess_geometry {acc : Access} {s t : State} (h : hostAccess acc s = .next t) :
    SameGeometry s t ∨ (t.cfg = s.cfg ∧ (∃ v, acc = .write .w32 0x010#32 v) ∧ s.busy = false) := by
  rcases hostAccess_next h with ⟨w, a, v, _, rfl⟩ | ⟨w, a, v, tg, rfl, hl, he, rfl⟩
  · exact .inl ⟨rfl, rfl, rfl⟩
  · by_cases htg : tg = .register .geometry
    · subst htg
      obtain ⟨rfl, rfl, hbusy⟩ := geometryWrite_shape hl he
      exact .inr ⟨rfl, ⟨v, rfl⟩, hbusy⟩
    · obtain ⟨hcfg, hwidth, hheight⟩ := writeTarget_sameGeometry s w.bytes v htg
      exact .inl ⟨hcfg, hwidth, hheight⟩

/-! ### One step -/

/-- A step keeps the build and GEOMETRY, or it is one of the two events that set GEOMETRY, which keep the build. -/
theorem step_geometry {s t : State} (h : step s = .next t) :
    SameGeometry s t ∨ (t.cfg = s.cfg ∧
      ((∃ rest, s.inputs = .reset :: rest) ∨
        (∃ v rest, s.inputs = .access (.write .w32 0x010#32 v) :: rest ∧ s.busy = false))) := by
  rcases step_next h with ⟨_, hturn⟩ | ⟨i, rest, hin, hi⟩
  · exact .inl hturn.sameGeometry
  · rcases applyInput_next hi with ⟨acc, rfl, hacc⟩ | ⟨rfl, rfl⟩ | ⟨rfl, hturn⟩
    · rcases hostAccess_geometry hacc with ⟨hcfg, hwidth, hheight⟩ | ⟨hcfg, ⟨v, rfl⟩, hbusy⟩
      · exact .inl ⟨hcfg, hwidth, hheight⟩
      · exact .inr ⟨hcfg, .inr ⟨v, rest, hin, hbusy⟩⟩
    · exact .inr ⟨rfl, .inl ⟨rest, hin⟩⟩
    · obtain ⟨hcfg, hwidth, hheight⟩ := hturn.sameGeometry
      exact .inl ⟨hcfg, hwidth, hheight⟩

end Sys2Proof.Machine

namespace Sys2Proof.Claims

open Sys2Proof.Machine

/-- Settles O54: of the events, only reset and an answered GEOMETRY write do not keep both fields, and none changes the build. -/
theorem geometryChangesOnlyByWriteOrReset : Obligations.GeometryChangesOnlyByWriteOrReset := by
  intro s t h
  rcases step_geometry h with ⟨hcfg, hwidth, hheight⟩ | ⟨hcfg, hcause⟩
  · exact ⟨hcfg, fun hdiff => hdiff.elim (absurd hwidth) (absurd hheight)⟩
  · exact ⟨hcfg, fun _ => hcause⟩

end Sys2Proof.Claims
end

section
/-! Proofs for 10_state.md: the invariants of the block's state, and what each register write and read does. A step is the engine's
turn, a host write at the target its address leads to, a reset, or a read; each invariant is shown once for the first three. -/

namespace Sys2Proof.Machine

/-! ### One step, event by event -/

/-- `step_keeps` with a host access taken apart: a property that does not look at the model's own record of the bus is kept by every
read, so that a write at its target is all that is left to show. -/
theorem step_keeps_of_writes {P : State → Prop}
    (hrecord : ∀ s is r, P s → P { s with inputs := is, response := r })
    (hturn : ∀ s t, P s → TurnNext s t → P t)
    (hwrite : ∀ s w a v tg, P s → locate s.cfg a.toNat = some tg → targetError s (.write w a v) tg = none →
      P (writeTarget s w.bytes v tg))
    (hreset : ∀ s, P s → P (applyReset s)) {s t : State} (hs : P s) (h : step s = .next t) : P t := by
  refine step_keeps (fun s rest hs => hrecord s rest s.response hs) hturn (fun acc s t hs hacc => ?_) hreset hs h
  rcases hostAccess_next hacc with ⟨_, _, v, _, rfl⟩ | ⟨w, a, v, tg, rfl, hl, he, rfl⟩
  · exact hrecord s s.inputs _ hs
  · exact hrecord _ _ _ (hwrite s w a v tg hs hl he)

@[simp] theorem issue_mem (v : Word) (s : State) : (issue v s).mem = s.mem := by
  rcases issue_cases v s with ⟨_, h⟩ | ⟨e, _, _, h⟩ | ⟨_, _, h⟩ <;> rw [h] <;> rfl

/-- GEOMETRY is the one register whose write touches the buffers (10_state.md R31). -/
theorem writeRegister_mem (v : Word) (s : State) {r : Register} (hr : r ≠ .geometry) : (writeRegister v s r).mem = s.mem := by
  cases r with
  | geometry => exact absurd rfl hr
  | cmd => exact issue_mem v s
  | id | param | maxdim | ctrl | status => rfl

/-! ### The canonical form of memory -/

theorem TurnNext.wf {s t : State} (h : TurnNext s t) (hm : s.mem.wf = true) : t.mem.wf = true := by
  cases h with
  | idle => exact hm
  | rejected => exact hm
  | completed i m _ _ _ hbuf => exact hbuf.wf hm

theorem writeTarget_wf (s : State) (n : Nat) (v : Word) (tg : Target) (hm : s.mem.wf = true) :
    (writeTarget s n v tg).mem.wf = true := by
  cases tg with
  | register r =>
    by_cases hr : r = .geometry
    · subst hr; exact clearPlanes_wf hm
    · rw [writeTarget, writeRegister_mem v s hr]; exact hm
  | plane p o => exact writeBytes_wf _ _ hm
  | frame f o => exact writeBytes_wf _ _ hm

/-! ### A window write stays in the storage -/

theorem AccessWidth.bytes_dvd (w : AccessWidth) : w.bytes ∣ 4 := by cases w <;> decide

@[simp] theorem dataBytes_length (v : Word) (n : Nat) : (dataBytes v n).length = n := by simp [dataBytes]

/-- An aligned part that begins in a storage of whole words ends in it. -/
theorem aligned_part_fits {n base o size : Nat} (hn : n ∣ 4) (hbase : 4 ∣ base) (hsize : 4 ∣ size)
    (ha : (base + o) % n = 0) (ho : o < size) : o + n ≤ size := by
  have hdvd : n ∣ o := (Nat.dvd_add_right (hn.trans hbase)).mp (Nat.dvd_of_mod_eq_zero ha)
  exact ((Nat.modEq_zero_iff_dvd.mpr hdvd).trans (Nat.modEq_zero_iff_dvd.mpr (hn.trans hsize)).symm).add_le_of_lt ho

/-- A plane's row is a whole number of 32-bit words. -/
theorem Config.stride_dvd {c : Config} (hc : c.ok = true) : 4 ∣ c.stride := by
  simp only [Config.ok, Bool.and_eq_true, beq_iff_eq, and_assoc] at hc
  obtain ⟨hmod, _⟩ := hc
  unfold Config.stride
  omega

/-- An access that reaches a window without a bus error is aligned (20_memory.md R64). -/
theorem targetError_window_aligned {s : State} {acc : Access} {tg : Target} (htg : ∀ r, tg ≠ .register r)
    (h : targetError s acc tg = none) : acc.address % acc.accessWidth.bytes = 0 := by
  by_contra hmis
  cases tg with
  | register r => exact htg r rfl
  | plane | frame => simp [targetError, hmis] at h

theorem planeWrite_fits {s : State} (hc : s.cfg.ok = true) {w : AccessWidth} {a v : Word} {p : PlaneIdx} {o : Nat}
    (hl : locate s.cfg a.toNat = some (.plane p o)) (he : targetError s (.write w a v) (.plane p o) = none) :
    o + w.bytes ≤ s.cfg.maxHeight * s.cfg.stride := by
  obtain ⟨ha, ho⟩ := locate_plane hl
  have haligned : a.toNat % w.bytes = 0 := targetError_window_aligned (by simp) he
  rw [ha] at haligned
  exact aligned_part_fits w.bytes_dvd (by unfold planeBase planesBase; omega)
    ((Config.stride_dvd hc).mul_left _) haligned ho

theorem frameWrite_fits {s : State} {w : AccessWidth} {a v : Word} {f : FrameIdx} {o : Nat}
    (hl : locate s.cfg a.toNat = some (.frame f o)) (he : targetError s (.write w a v) (.frame f o) = none) :
    o + w.bytes ≤ 4 * s.cfg.maxPixels := by
  obtain ⟨ha, ho⟩ := locate_frame hl
  have haligned : a.toNat % w.bytes = 0 := targetError_window_aligned (by simp) he
  rw [ha] at haligned
  exact aligned_part_fits w.bytes_dvd (by unfold frameBase framesBase; omega) (Nat.dvd_mul_right 4 _) haligned ho

/-! ### Memory lists bytes of the storage only -/

theorem storageOk_iff (s : State) : s.storageOk = true ↔ ∀ c ∈ s.mem, inStorage s.cfg c.1 = true := by
  simp [State.storageOk]

theorem inStorage_plane {c : Config} (p : PlaneIdx) {o : Nat} (h : o < c.maxHeight * c.stride) :
    inStorage c (planeBase p + o) = true := by
  simp only [inStorage, Bool.or_eq_true, List.any_eq_true, Bool.and_eq_true, decide_eq_true_eq]
  exact .inl ⟨p, List.mem_finRange p, by omega, by omega⟩

theorem inStorage_frame {c : Config} (f : FrameIdx) {o : Nat} (h : o < 4 * c.maxPixels) :
    inStorage c (frameBase f + o) = true := by
  simp only [inStorage, Bool.or_eq_true, List.any_eq_true, Bool.and_eq_true, decide_eq_true_eq]
  exact .inr ⟨f, List.mem_finRange f, by omega, by omega⟩

theorem mem_of_mem_clearRange {lo hi : Nat} {m : Memory} {c : Host.Cell} (h : c ∈ clearRange lo hi m) : c ∈ m :=
  (List.mem_filter.mp h).1

/-- A byte of the active region is a byte of the plane's storage, where the geometry fits the build. -/
theorem activeByte_inStorage {s : State} (hc : s.cfg.ok = true) (hg : geometryFits s) {p : PlaneIdx} {a : Nat}
    (h : activeByte s p a) : inStorage s.cfg a = true := by
  obtain ⟨x, y, hact, rfl⟩ := h
  obtain ⟨hx, hy⟩ := (active_iff s x y).mp hact
  have hstride := (Config.ok_facts hc).1
  exact inStorage_plane p (rowByte_lt (hy.trans_le hg.2) (by have := hg.1; omega))

/-- The pixels of the current geometry lie in a frame's storage, where the geometry fits the build. -/
theorem frameByteAddr_inStorage {s : State} (hg : geometryFits s) (f : FrameIdx) {i : Nat} (c : Channel)
    (hi : i < framePixels s) : inStorage s.cfg (frameByteAddr f i c) = true := by
  have hle : framePixels s ≤ s.cfg.maxPixels := Nat.mul_le_mul hg.1 hg.2
  have hch := c.index_lt
  exact inStorage_frame f (by omega)

theorem BufferEffect.inStorage {s : State} {m : Memory} (h : BufferEffect s m) (hc : s.cfg.ok = true) {c : Host.Cell}
    (hm : c ∈ m) : c ∈ s.mem ∨ inStorage s.cfg c.1 = true := by
  cases h with
  | same => exact .inl hm
  | cleared p => exact .inl (mem_of_mem_clearRange hm)
  | plane p out hd => exact (mem_writePlane hm).imp_right (activeByte_inStorage hc (geometryFits_of_dimsOk hd))
  | frame f out hd =>
    rcases mem_writeFrame hm with hm | ⟨i, ch, hi, haddr⟩
    · exact .inl hm
    · rw [haddr]; exact .inr (frameByteAddr_inStorage (geometryFits_of_dimsOk hd) f ch hi)

theorem TurnNext.storageOk {s t : State} (h : TurnNext s t) (hc : s.cfg.ok = true) (hs : s.storageOk = true) :
    t.storageOk = true := by
  cases h with
  | idle => exact hs
  | rejected => exact hs
  | completed i m _ _ _ hbuf =>
    rw [storageOk_iff] at hs ⊢
    exact fun c hm => (hbuf.inStorage hc hm).elim (hs c) id

theorem planeWindowWrite_length (s : State) (p : PlaneIdx) (o : Nat) (vs : List Byte) :
    (planeWindowWrite s p o vs).length = vs.length := by simp [planeWindowWrite]

theorem mem_writeTarget_inStorage {s : State} (hc : s.cfg.ok = true) {w : AccessWidth} {a v : Word} {tg : Target}
    (hl : locate s.cfg a.toNat = some tg) (he : targetError s (.write w a v) tg = none) {c : Host.Cell}
    (hm : c ∈ (writeTarget s w.bytes v tg).mem) : c ∈ s.mem ∨ inStorage s.cfg c.1 = true := by
  cases tg with
  | register r =>
    by_cases hr : r = .geometry
    · subst hr; exact .inl (mem_of_mem_clearRange hm)
    · rw [writeTarget, writeRegister_mem v s hr] at hm; exact .inl hm
  | plane p o =>
    have hfit := planeWrite_fits hc hl he
    refine (mem_writeBytes _ hm).imp_right fun ⟨hlo, hhi⟩ => ?_
    rw [planeWindowWrite_length, dataBytes_length] at hhi
    rw [← Nat.add_sub_of_le hlo, Nat.add_assoc]
    exact inStorage_plane p (by omega)
  | frame f o =>
    have hfit := frameWrite_fits hl he
    refine (mem_writeBytes _ hm).imp_right fun ⟨hlo, hhi⟩ => ?_
    rw [dataBytes_length] at hhi
    rw [← Nat.add_sub_of_le hlo, Nat.add_assoc]
    exact inStorage_frame f (by omega)

theorem writeTarget_cfg (s : State) (n : Nat) (v : Word) (tg : Target) : (writeTarget s n v tg).cfg = s.cfg := by
  by_cases ht : tg = .register .geometry
  · subst ht; rfl
  · exact (writeTarget_sameGeometry s n v ht).cfg

theorem step_cfg {s t : State} (h : step s = .next t) : t.cfg = s.cfg :=
  (step_geometry h).elim SameGeometry.cfg And.left

/-- Every step of a legal build keeps memory within the storage. -/
theorem step_storageOk {s t : State} (hc : s.cfg.ok = true) (hs : s.storageOk = true) (h : step s = .next t) :
    t.storageOk = true := by
  refine (step_keeps_of_writes (P := fun s => s.cfg.ok = true ∧ s.storageOk = true) (fun _ _ _ hs => hs)
    (fun _ _ ⟨hc, hs⟩ ht => ⟨ht.sameGeometry.cfg ▸ hc, ht.storageOk hc hs⟩) (fun s w a v tg ⟨hc, hs⟩ hl he => ?_)
    (fun _ ⟨hc, _⟩ => ⟨hc, rfl⟩) ⟨hc, hs⟩ h).2
  rw [storageOk_iff] at hs ⊢
  rw [writeTarget_cfg]
  exact ⟨hc, fun c hm => (mem_writeTarget_inStorage hc hl he hm).elim (hs c) id⟩

/-! ### Padding -/

/-- Empty buffers read 0 at every bit of every plane (10_state.md R36). -/
theorem planeBit_of_mem_nil {s : State} (h : s.mem = []) (p : PlaneIdx) (x y : Nat) : planeBit s p x y = false := by
  unfold planeBit
  rw [h, readByte_nil, blank]
  split <;> simp

/-- A completed command leaves every 0 outside the active region 0. -/
theorem BufferEffect.planeBit_inactive {s : State} {m : Memory} (h : BufferEffect s m) (hc : s.cfg.ok = true) {q : PlaneIdx}
    {x y : Nat} (hx : x < s.cfg.maxWidth) (hy : y < s.cfg.maxHeight) (hact : active s x y = false)
    (hs : planeBit s q x y = false) : planeBit { s with mem := m } q x y = false := by
  cases h with
  | same => exact hs
  | cleared p => rw [planeBit_clearPlane hc p q hx hy, hs, ite_self]
  | plane p out hd => rw [planeBit_writePlane hc (geometryFits_of_dimsOk hd) p out hx hy, hs]; simp [hact]
  | frame f out hd => rw [planeBit_writeFrame hc f out q hx hy, hs]

theorem TurnNext.paddingZero {s t : State} (h : TurnNext s t) (hc : s.cfg.ok = true) (hs : s.paddingZero) :
    t.paddingZero := by
  cases h with
  | idle => exact hs
  | rejected => exact hs
  | completed i m _ _ _ hbuf => exact fun p x y hx hy hact => hbuf.planeBit_inactive hc hx hy hact (hs p x y hx hy hact)

theorem planeWindowWrite_getElem? (s : State) (p : PlaneIdx) (o : Nat) {vs : List Byte} {k : Nat} (hk : k < vs.length) :
    (planeWindowWrite s p o vs)[k]? = some (maskedByte s p ((o + k) / s.cfg.stride) ((o + k) % s.cfg.stride)
      fun x => vs[k].getLsbD (x - 8 * ((o + k) % s.cfg.stride))) := by
  simp [planeWindowWrite, hk]

/-- Each byte of a plane window write is masked in its own row. -/
theorem readByte_planeWindowWrite (s : State) (p : PlaneIdx) (o : Nat) {vs : List Byte} {k : Nat} (hk : k < vs.length) :
    readByte (writeBytes s.mem (planeBase p + o) (planeWindowWrite s p o vs)) (planeBase p + (o + k)) =
      some (maskedByte s p ((o + k) / s.cfg.stride) ((o + k) % s.cfg.stride)
        fun x => vs[k].getLsbD (x - 8 * ((o + k) % s.cfg.stride))) := by
  rw [readByte_writeBytes, if_pos (by rw [planeWindowWrite_length]; omega), ← Nat.add_assoc, Nat.add_sub_cancel_left,
    planeWindowWrite_getElem? s p o hk]

/-- The spec of a plane window write, bit by bit: a pixel of the active region in the bytes written takes the bit of its byte, every
other bit of every plane's storage reads as before (20_memory.md R65, R69). -/
theorem planeBit_planeWindowWrite {s : State} (hc : s.cfg.ok = true) (p : PlaneIdx) {o : Nat} {vs : List Byte}
    (hfit : o + vs.length ≤ s.cfg.maxHeight * s.cfg.stride) (q : PlaneIdx) {x y : Nat} (hx : x < s.cfg.maxWidth)
    (hy : y < s.cfg.maxHeight) :
    planeBit { s with mem := writeBytes s.mem (planeBase p + o) (planeWindowWrite s p o vs) } q x y =
      if q = p ∧ active s x y = true ∧ o ≤ y * s.cfg.stride + x / 8 ∧ y * s.cfg.stride + x / 8 < o + vs.length then
        (vs.getD (y * s.cfg.stride + x / 8 - o) 0#8).getLsbD (x % 8)
      else planeBit s q x y := by
  have hstride := (Config.ok_facts hc).1
  have hwindow := Config.planeBytes_le hc
  have hxs : x / 8 < s.cfg.stride := by omega
  have hplace := rowByte_lt hy hxs
  by_cases hin : q = p ∧ o ≤ y * s.cfg.stride + x / 8 ∧ y * s.cfg.stride + x / 8 < o + vs.length
  · obtain ⟨rfl, hlo, hhi⟩ := hin
    obtain ⟨k, hk⟩ := Nat.exists_eq_add_of_le hlo
    have hkl : k < vs.length := by omega
    obtain ⟨hrow, hbyte⟩ : (o + k) / s.cfg.stride = y ∧ (o + k) % s.cfg.stride = x / 8 :=
      (Nat.div_mod_unique (by omega)).mpr ⟨by rw [← hk]; ring, hxs⟩
    have hread := readByte_planeWindowWrite s q o hkl
    rw [hrow, hbyte, ← hk] at hread
    have hbit : x - 8 * (x / 8) = x % 8 := by omega
    unfold planeBit planeByteAddr
    simp only [hread, Option.getD_some, maskedByte_getLsbD, hbit]
    rw [hk, Nat.add_sub_cancel_left]
    simp [hkl, planeBit, planeByteAddr, hk]
  · rw [if_neg fun ⟨hqp, _, hlo, hhi⟩ => hin ⟨hqp, hlo, hhi⟩]
    unfold planeBit
    simp only
    rw [readByte_writeBytes_outside]
    rw [planeWindowWrite_length]
    unfold planeByteAddr planeBase
    by_contra hcon
    have hqp : q = p := Fin.ext (by omega)
    subst hqp
    exact hin ⟨rfl, by omega, by omega⟩

/-- Planes do not notice bytes written at or above the frame windows. -/
theorem planeBit_writeBytes_frames {s : State} (hc : s.cfg.ok = true) {a : Nat} (ha : framesBase ≤ a) (vs : List Byte)
    (q : PlaneIdx) {x y : Nat} (hx : x < s.cfg.maxWidth) (hy : y < s.cfg.maxHeight) :
    planeBit { s with mem := writeBytes s.mem a vs } q x y = planeBit s q x y := by
  have hstride := (Config.ok_facts hc).1
  have hin := (inPlanes_iff _).mp (planeByteAddr_inPlanes hc q hy (b := x / 8) (by omega))
  unfold planeBit
  simp only
  rw [readByte_writeBytes_outside]
  unfold framesBase at ha
  unfold planesBase at hin
  omega

theorem writeRegister_paddingZero {s : State} (hc : s.cfg.ok = true) (hs : s.paddingZero) (v : Word) (r : Register) :
    (writeRegister v s r).paddingZero := by
  by_cases hr : r = .geometry
  · subst hr
    exact fun p x y hx hy _ => planeBit_clearPlanes (t := writeGeometry v s) hc rfl rfl p hx hy
  · obtain ⟨hcfg, hwidth, hheight⟩ := writeRegister_sameGeometry v s hr
    intro p x y hx hy hact
    rw [hcfg] at hx hy
    simp only [planeBit, active, hcfg, hwidth, hheight, writeRegister_mem v s hr] at hact ⊢
    exact hs p x y hx hy hact

theorem writeTarget_paddingZero {s : State} (hc : s.cfg.ok = true) (hs : s.paddingZero) {w : AccessWidth} {a v : Word}
    {tg : Target} (hl : locate s.cfg a.toNat = some tg) (he : targetError s (.write w a v) tg = none) :
    (writeTarget s w.bytes v tg).paddingZero := by
  cases tg with
  | register r => exact writeRegister_paddingZero hc hs v r
  | plane p o =>
    intro q x y hx hy hact
    change active s x y = false at hact
    have hbit := planeBit_planeWindowWrite hc p (vs := dataBytes v w.bytes) (by simpa using planeWrite_fits hc hl he) q hx hy
    rw [if_neg (by simp [hact]), hs q x y hx hy hact] at hbit
    exact hbit
  | frame f o =>
    intro q x y hx hy hact
    have hbit := planeBit_writeBytes_frames hc (a := frameBase f + o) (by unfold frameBase; omega) (dataBytes v w.bytes) q hx hy
    rw [hs q x y hx hy hact] at hbit
    exact hbit

/-- Every step of a legal build keeps the padding 0. -/
theorem step_paddingZero {s t : State} (hc : s.cfg.ok = true) (hs : s.paddingZero) (h : step s = .next t) : t.paddingZero :=
  (step_keeps_of_writes (P := fun s => s.cfg.ok = true ∧ s.paddingZero) (fun _ _ _ hs => hs)
    (fun _ _ ⟨hc, hs⟩ ht => ⟨ht.sameGeometry.cfg ▸ hc, ht.paddingZero hc hs⟩)
    (fun s w _ v tg ⟨hc, hs⟩ hl he => ⟨writeTarget_cfg s w.bytes v tg ▸ hc, writeTarget_paddingZero hc hs hl he⟩)
    (fun _ ⟨hc, _⟩ => ⟨hc, fun p x y _ _ _ => planeBit_of_mem_nil rfl p x y⟩) ⟨hc, hs⟩ h).2

/-! ### The pending command -/

/-- What holds of a pending command: validation accepts it, and DONE and ERR are 0. -/
structure State.pendingSound (s : State) : Prop where
  accepted : s.pendingAccepted
  alone : s.busyAlone

theorem pendingSound_of_idle {s : State} (h : s.busy = false) : s.pendingSound :=
  ⟨fun hb => absurd hb (by simp [h]), fun hb => absurd hb (by simp [h])⟩

/-- An event that leaves GEOMETRY, BUSY and PEND as they are, and raises neither DONE nor ERR. -/
theorem State.pendingSound.of_same {s t : State} (hs : s.pendingSound) (hg : SameGeometry s t) (hbusy : t.busy = s.busy)
    (hpend : t.pend = s.pend) (hdone : s.done = false → t.done = false) (herr : s.err = false → t.err = false) :
    t.pendingSound := by
  constructor <;> intro hb <;> rw [hbusy] at hb
  · rw [hpend, validate_congr hg.width hg.height hg.cfg]; exact hs.accepted hb
  · exact (hs.alone hb).imp hdone herr

theorem TurnNext.pendingSound {s t : State} (h : TurnNext s t) (hs : s.pendingSound) : t.pendingSound := by
  cases h with
  | idle => exact hs
  | rejected => exact pendingSound_of_idle rfl
  | completed => exact pendingSound_of_idle rfl

/-- A CMD write is accepted only with ERR = 0 and a word that passes validation (30_encoding.md R96). -/
theorem issue_pendingSound {s : State} (hs : s.pendingSound) (v : Word) : (issue v s).pendingSound := by
  rcases issue_cases v s with ⟨_, h⟩ | ⟨e, _, _, h⟩ | ⟨herr, hv, h⟩ <;> rw [h]
  · exact hs
  · exact pendingSound_of_idle rfl
  · exact ⟨fun _ => (validate_congr rfl rfl rfl v).trans hv, fun _ => ⟨rfl, herr⟩⟩

theorem writeTarget_pendingSound {s : State} (hs : s.pendingSound) {w : AccessWidth} {a v : Word} {tg : Target}
    (hl : locate s.cfg a.toNat = some tg) (he : targetError s (.write w a v) tg = none) :
    (writeTarget s w.bytes v tg).pendingSound := by
  cases tg with
  | plane | frame => exact hs.of_same ⟨rfl, rfl, rfl⟩ rfl rfl id id
  | register r =>
    cases r with
    | id | param | maxdim => exact hs
    | ctrl => exact hs.of_same ⟨rfl, rfl, rfl⟩ rfl rfl id id
    | status =>
      exact hs.of_same ⟨rfl, rfl, rfl⟩ rfl rfl (fun h => by simp [writeTarget, writeRegister, h])
        (fun h => by simp [writeTarget, writeRegister, h])
    | cmd => exact issue_pendingSound hs v
    | geometry =>
      obtain ⟨_, _, hidle⟩ := geometryWrite_shape hl he
      exact pendingSound_of_idle hidle

/-- Every step keeps a pending command sound. -/
theorem step_pendingSound {s t : State} (hs : s.pendingSound) (h : step s = .next t) : t.pendingSound :=
  step_keeps_of_writes (fun _ _ _ hs => hs.of_same ⟨rfl, rfl, rfl⟩ rfl rfl id id) (fun _ _ hs ht => ht.pendingSound hs)
    (fun _ _ _ _ _ hs hl he => writeTarget_pendingSound hs hl he) (fun _ _ => pendingSound_of_idle rfl) hs h

/-- A plane operator that passes its checks names two planes (60_exceptions.md R196). -/
theorem ne_of_planeError {s : State} {pd ps : PlaneIdx} (h : planeError s pd ps = none) : pd ≠ ps := by
  rintro rfl
  unfold planeError at h
  split at h <;> simp at h

/-- A COMP that passes its checks names a strength (R197). -/
theorem lt_of_compError {s : State} {str : StrengthCode} (h : compError s str = none) : str.val < 5 := by
  by_contra hstr
  unfold compError at h
  rw [if_pos (Nat.le_of_not_lt hstr)] at h
  split at h <;> simp at h

theorem wellFormed_of_issueError {s : State} {i : Instr} (h : issueError s i = none) : i.wellFormed = true := by
  cases i with
  | nop | thresh | clear => rfl
  | tdiff | dilh | dilv | eroh | erov =>
    simpa [Instr.wellFormed, Instr.planesDiffer, Instr.strengthNamed] using ne_of_planeError h
  | comp => simpa [Instr.wellFormed, Instr.planesDiffer, Instr.strengthNamed] using lt_of_compError h

theorem validate_eq_none {v : Word} {s : State} (h : validate v s = none) : ∃ i, decode v = .ok i ∧ issueError s i = none := by
  unfold validate at h
  cases hd : decode v with
  | error e => simp [hd] at h
  | ok i => exact ⟨i, rfl, by simpa [hd] using h⟩

/-! ### ERRCODE -/

theorem CmdError.code_range (e : CmdError) : 1 ≤ e.code.toNat ∧ e.code.toNat ≤ 5 := by cases e <;> decide

theorem reject_errcodeOk (e : CmdError) (s : State) : (reject e s).errcodeOk := by
  simpa [State.errcodeOk] using e.code_range

theorem writeStatus_errcodeOk {s : State} (hs : s.errcodeOk) (v : Word) : (writeStatus v s).errcodeOk := by
  unfold State.errcodeOk
  rw [writeStatus_err, writeStatus_errcode]
  cases v.getLsbD 2
  · simpa [State.errcodeOk] using hs
  · simp

theorem writeTarget_errcodeOk {s : State} (hs : s.errcodeOk) (n : Nat) (v : Word) (tg : Target) :
    (writeTarget s n v tg).errcodeOk := by
  cases tg with
  | plane | frame => exact hs
  | register r =>
    cases r with
    | id | param | maxdim | geometry | ctrl => exact hs
    | status => exact writeStatus_errcodeOk hs v
    | cmd =>
      change (issue v s).errcodeOk
      rcases issue_cases v s with ⟨_, h⟩ | ⟨e, _, _, h⟩ | ⟨_, _, h⟩ <;> rw [h]
      · exact hs
      · exact reject_errcodeOk e s
      · exact hs

theorem TurnNext.errcodeOk {s t : State} (h : TurnNext s t) (hs : s.errcodeOk) : t.errcodeOk := by
  cases h with
  | idle => exact hs
  | rejected e => exact reject_errcodeOk e s
  | completed => exact hs

/-- Every step keeps ERRCODE within the produced codes. -/
theorem step_errcodeOk {s t : State} (hs : s.errcodeOk) (h : step s = .next t) : t.errcodeOk :=
  step_keeps_of_writes (fun _ _ _ hs => hs) (fun _ _ hs ht => ht.errcodeOk hs)
    (fun _ w _ v tg hs _ _ => writeTarget_errcodeOk hs w.bytes v tg) (fun _ _ => rfl) hs h

/-! ### The first byte without a value -/

/-- The first channel of a pixel that holds no value, among channels listed in reading order. -/
theorem find_unset_channel {s : State} {f : FrameIdx} {i : Nat} {c : Channel} {cs : List Channel}
    (hcs : cs.Pairwise fun d e => d.index < e.index) (hc : c ∈ cs) (hnone : frameByte s f i c = none)
    (hbefore : ∀ d ∈ cs, d.index < c.index → (frameByte s f i d).isSome = true) :
    (cs.find? fun d => (frameByte s f i d).isNone) = some c := by
  obtain ⟨before, after, rfl⟩ := List.append_of_mem hc
  have hlt : ∀ d ∈ before, d.index < c.index := fun d hd => (List.pairwise_append.mp hcs).2.2 d hd c (List.mem_cons_self ..)
  refine List.find?_eq_some_iff_append.mpr ⟨by simp [hnone], before, after, rfl, fun d hd => ?_⟩
  simpa using hbefore d (List.mem_append_left _ hd) (hlt d hd)

/-- The first byte of a frame's pixels without a value, in reading order (log entry 9). -/
theorem firstUnset_eq_some {s : State} {f : FrameIdx} {n i : Nat} {c : Channel} {cs : List Channel}
    (hcs : cs.Pairwise fun d e => d.index < e.index) (hc : c ∈ cs) (hi : i < n) (hnone : frameByte s f i c = none)
    (hpixels : frameSet s f i cs) (hbefore : ∀ d ∈ cs, d.index < c.index → (frameByte s f i d).isSome = true) :
    firstUnset s f n cs = some (i, c) := by
  obtain ⟨k, rfl⟩ := Nat.exists_eq_add_of_lt hi
  have hpixels' : firstUnset s f i cs = none := (firstUnset_eq_none s f i cs).mpr hpixels
  unfold firstUnset at hpixels' ⊢
  rw [Nat.add_assoc, List.range_add, List.findSome?_append, hpixels', Option.none_or, List.range_succ_eq_map, List.map_cons,
    List.findSome?_cons, Nat.add_zero, find_unset_channel hcs hc hnone hbefore]
  rfl

theorem readingFrame_faults {s : State} {f : FrameIdx} {n i : Nat} {c : Channel} {cs : List Channel} (m : Memory)
    (h : firstUnset s f n cs = some (i, c)) : readingFrame s f n cs m = .error (.uninitRead f i c) := by
  unfold readingFrame
  rw [h]

/-- Codes 0 to 4 name a ratio (43_compositor.md R160). -/
theorem strengthRatio_of_lt (c : Config) : ∀ {str : StrengthCode}, str.val < 5 → ∃ ratio, strengthRatio c str = some ratio
  | 0, _ | 1, _ | 2, _ | 3, _ | 4, _ => ⟨_, rfl⟩
  | ⟨n + 5, _⟩, h => absurd h (by simp)

/-! ### Reads do not look at PEND -/

theorem frameWindowBytes_congr {s t : State} (h : t.mem = s.mem) (f : FrameIdx) (n : Nat) :
    ∀ o, frameWindowBytes t f o n = frameWindowBytes s f o n := by
  induction n with
  | zero => exact fun _ => rfl
  | succ n ih => intro o; rw [frameWindowBytes, frameWindowBytes, h, ih (o + 1)]

theorem readTarget_pend (s : State) (v : Word) (n : Nat) (tg : Target) :
    readTarget { s with pend := v } n tg = readTarget s n tg := by
  cases tg with
  | register r => cases r <;> rfl
  | plane p o => rfl
  | frame f o =>
    have hbytes := frameWindowBytes_congr (s := s) (t := { s with pend := v }) rfl f n o
    simp only [readTarget, hbytes]

/-- The same answer, its next state with another word in PEND. -/
def withPend (v : Word) : Host.Outcome State Fault Refusal → Host.Outcome State Fault Refusal
  | .next t => .next { t with pend := v }
  | .fault f => .fault f
  | .refused r => .refused r

/-- A read answers the same whatever PEND holds, and leaves PEND alone (10_state.md R35). -/
theorem hostAccess_read_pend (s : State) (v : Word) (w : AccessWidth) (a : Word) :
    hostAccess (.read w a) { s with pend := v } = withPend v (hostAccess (.read w a) s) := by
  cases hb : busError s (.read w a) with
  | some k =>
    have hb' : busError { s with pend := v } (.read w a) = some k := hb
    rw [hostAccess_busError hb, hostAccess_busError hb', withPend]
  | none =>
    obtain ⟨tg, hl, he⟩ := busError_eq_none hb
    have hl' : locate ({ s with pend := v } : State).cfg (Access.read w a).address = some tg := hl
    have he' : targetError { s with pend := v } (.read w a) tg = none := he
    rw [hostAccess_target hl he, hostAccess_target hl' he']
    simp only [accessTarget, readTarget_pend]
    cases readTarget s w.bytes tg <;> rfl

/-! ### Register accesses -/

/-- The address of each register (10_state.md R22). -/
def registerAddr : Register → Word
  | .id => 0x000#32
  | .param => 0x004#32
  | .maxdim => 0x008#32
  | .geometry => 0x010#32
  | .ctrl => 0x014#32
  | .status => 0x018#32
  | .cmd => 0x01C#32

theorem registerAddr_leads (r : Register) :
    (registerAddr r).toNat < 0x1000 ∧ registerAt (registerAddr r).toNat = some r ∧ (registerAddr r).toNat % 4 = 0 := by
  cases r <;> decide

theorem hostAccess_read_registerAddr (r : Register) {s : State} {v : Word} (hv : readRegister s r = v) :
    hostAccess (.read .w32 (registerAddr r)) s = .next { s with response := .data v } := by
  subst hv
  obtain ⟨hregion, hat, haligned⟩ := registerAddr_leads r
  exact hostAccess_read_register s hregion hat haligned

/-- Every register write is answered while BUSY = 0, and all but those of GEOMETRY and CMD while BUSY = 1 too (20_memory.md R68). -/
theorem hostAccess_write_registerAddr (r : Register) (v : Word) {s : State}
    (h : s.busy = false ∨ (r ≠ .geometry ∧ r ≠ .cmd)) :
    hostAccess (.write .w32 (registerAddr r) v) s = .next { writeRegister v s r with response := .ok } := by
  obtain ⟨hregion, hat, haligned⟩ := registerAddr_leads r
  have hanswered : (s.busy && refusedWhileBusy (.write .w32 (registerAddr r) v) (.register r)) = false := by
    rcases h with hidle | ⟨hgeometry, hcmd⟩
    · rw [hidle, Bool.false_and]
    · cases r <;> simp_all [refusedWhileBusy]
  rw [hostAccess_write_register v s hregion hat haligned, hanswered]
  rfl

theorem hostAccess_write_geometry_busy {s : State} (hb : s.busy = true) (v : Word) :
    hostAccess (.write .w32 0x010#32 v) s = .fault (.busError .busy) := by
  rw [hostAccess_write_register (r := .geometry) v s (by decide) rfl (by decide), hb]
  rfl

theorem hostAccess_write_ctrl (v : Word) (s : State) :
    hostAccess (.write .w32 0x014#32 v) s = .next { writeCtrl v s with response := .ok } :=
  hostAccess_write_registerAddr .ctrl v (.inr (by decide))

theorem hostAccess_write_status (v : Word) (s : State) :
    hostAccess (.write .w32 0x018#32 v) s = .next { writeStatus v s with response := .ok } :=
  hostAccess_write_registerAddr .status v (.inr (by decide))

/-- A CMD write that R96 accepts. -/
theorem hostAccess_write_cmd_accepted {s : State} {v : Word} (hb : s.busy = false) (herr : s.err = false)
    (hv : validate v s = none) : hostAccess (.write .w32 0x01C#32 v) s = .next { accept v s with response := .ok } := by
  have hissue : issue v s = accept v s := by
    unfold issue
    rw [herr, hv]
    rfl
  rw [← hissue]
  exact hostAccess_write_registerAddr .cmd v (.inl hb)

/-! ### Register words -/

/-- GEOMETRY reads back the word that was written (10_state.md R30). -/
theorem geometryWord_writeGeometry (v : Word) (s : State) : geometryWord (writeGeometry v s) = v := by
  rw [geometryWord, writeGeometry_width, writeGeometry_height]
  simpa using BitVec.extractLsb'_append_extractLsb'_eq_extractLsb' (x := v) (start₁ := 0) (len₁ := 16) (start₂ := 16)
    (len₂ := 16) rfl

theorem ctrlWord_getLsbD (s : State) (j : Fin 32) :
    (ctrlWord s).getLsbD j = if j = 0 then s.ieDone else if j = 1 then s.ieErr else false := by
  unfold ctrlWord
  generalize s.ieDone = d, s.ieErr = e
  revert d e j
  decide

/-- CTRL reads back the two low bits that were written, and 0 elsewhere (R32, R23). -/
theorem ctrlWord_writeCtrl (v : Word) (s : State) : ctrlWord (writeCtrl v s) = v &&& 3#32 := by
  have hmask : ∀ j : Fin 32, (3#32).getLsbD j = decide (j = 0 ∨ j = 1) := by decide
  refine BitVec.eq_of_getLsbD_eq fun j hj => ?_
  have hbit := ctrlWord_getLsbD (writeCtrl v s) ⟨j, hj⟩
  have hthree := hmask ⟨j, hj⟩
  simp only [Fin.ext_iff] at hbit hthree
  rw [hbit, BitVec.getLsbD_and, hthree]
  split_ifs <;> simp_all

/-- PARAM's fields (R28). -/
theorem paramWord_fields (c : Config) :
    ((paramWord c).extractLsb' 0 8).toNat = c.packWidth.bits ∧ ((paramWord c).extractLsb' 8 4).toNat = 4 ∧
      ((paramWord c).extractLsb' 12 4).toNat = 2 ∧ ((paramWord c).extractLsb' 16 16).toNat = 0 ∧
      (c.packWidth = .w64 → paramWord c = 0x00002440#32) := by
  unfold paramWord
  cases c.packWidth <;> decide

/-- MAXDIM's fields hold the two limits of a legal build (R29). -/
theorem maxdimWord_fields {c : Config} (hc : c.ok = true) :
    ((maxdimWord c).extractLsb' 0 16).toNat = c.maxWidth ∧ ((maxdimWord c).extractLsb' 16 16).toNat = c.maxHeight := by
  obtain ⟨_, _, hw, _, hh, _⟩ := Config.ok_facts hc
  unfold maxdimWord
  rw [BitVec.extractLsb'_append_eq_right, BitVec.extractLsb'_append_eq_left, BitVec.toNat_ofNat, BitVec.toNat_ofNat]
  exact ⟨Nat.mod_eq_of_lt (by omega), Nat.mod_eq_of_lt (by omega)⟩

theorem statusWord_fields (s : State) :
    (statusWord s).getLsbD 0 = s.busy ∧ (statusWord s).getLsbD 1 = s.done ∧ (statusWord s).getLsbD 2 = s.err ∧
      (statusWord s).getLsbD 3 = false ∧ (statusWord s).extractLsb' 4 4 = s.errcode ∧
      ((statusWord s).extractLsb' 8 24).toNat = 0 := by
  unfold statusWord
  generalize s.busy = b, s.done = d, s.err = e, s.errcode = c
  revert b d e c
  decide

/-! ### The placed command -/

theorem decode_of_decodeTableWord {n w : Nat} {i : Instr} (h : decodeTableWord n w = some i) : decode (tableWord n w) = .ok i := by
  unfold decodeTableWord at h
  split at h
  · rename_i j hj
    rw [hj, Option.some_inj.mp h]
  · simp at h

end Sys2Proof.Machine

namespace Sys2Proof.Claims

open Sys2Proof.Machine

/-- Settles O34: every operation on memory keeps the canonical form, and reset empties memory. -/
theorem stepKeepsMemoryCanonical : Obligations.StepKeepsMemoryCanonical := by
  intro s t hs h
  exact step_keeps_of_writes (P := fun s => s.mem.wf = true) (fun _ _ _ hs => hs) (fun _ _ hs ht => ht.wf hs)
    (fun s w _ v tg hs _ _ => writeTarget_wf s w.bytes v tg hs) (fun _ _ => wf_nil) hs h

/-- Settles O35: commands and window writes leave bits outside the active region alone, and a new active region comes with cleared
planes. -/
theorem stepKeepsPaddingZero : Obligations.StepKeepsPaddingZero :=
  ⟨fun p x y _ _ _ => planeBit_of_mem_nil rfl p x y, fun _ _ hc hs h => step_paddingZero hc hs h⟩

/-- Settles O36: BUSY rises only with a word that validation accepts, and GEOMETRY is held while BUSY = 1. -/
theorem stepKeepsPendingAccepted : Obligations.StepKeepsPendingAccepted := by
  intro s t hpend halone h
  obtain ⟨hpend', halone'⟩ := step_pendingSound ⟨hpend, halone⟩ h
  refine ⟨hpend', halone', fun hb => ?_⟩
  obtain ⟨i, hd, hi⟩ := validate_eq_none (hpend' hb)
  have hwf := wellFormed_of_issueError hi
  refine ⟨i, hd, hwf, fun pd => ⟨?_, ?_⟩⟩ <;> rintro rfl <;> simp [Instr.wellFormed, Instr.planesDiffer] at hwf

/-- Settles O37: only a rejection sets ERR, and it sets a produced code. -/
theorem stepKeepsErrorCodeProduced : Obligations.StepKeepsErrorCodeProduced := fun _ _ hs h => step_errcodeOk hs h

/-- Settles O33: the invariants one by one; those about planes and storage lean on the legal build, which no step changes. -/
theorem stepKeepsInvariants : Obligations.StepKeepsInvariants := by
  intro s t ⟨hcfg, hcanonical, hstorage, hpadding, hpending, halone, herrcode⟩ h
  obtain ⟨hpending', halone'⟩ := step_pendingSound ⟨hpending, halone⟩ h
  exact {
    cfg := step_cfg h ▸ hcfg
    canonical := stepKeepsMemoryCanonical s t hcanonical h
    storage := step_storageOk hcfg hstorage h
    padding := step_paddingZero hcfg hpadding h
    pending := hpending'
    alone := halone'
    errcode := step_errcodeOk herrcode h }

/-- Settles O16: the geometry passes the check, and THRESH reads R, G and B in the order the hypothesis follows. -/
theorem threshFaultsOnUnwrittenByte : Obligations.ThreshFaultsOnUnwrittenByte := by
  intro s pd fs i c ⟨hw, hwmax, hh, hhmax⟩ hi hc hnone hbefore
  have hnotAlpha : ∀ d ∈ [Channel.r, .g, .b], d ≠ .a := by decide
  have hmem : c ∈ [Channel.r, .g, .b] := by cases c <;> simp at hc ⊢
  have hunset : firstUnset s fs (framePixels s) [.r, .g, .b] = some (i, c) :=
    firstUnset_eq_some (by decide) hmem hi hnone (fun j d hj hd => hbefore j d (hnotAlpha d hd) (.inl hj))
      fun d hd hlt => hbefore i d (hnotAlpha d hd) (.inr ⟨rfl, hlt⟩)
  exact runCommand_faulted (dimError_eq_none ((dimsOk_iff s).mpr ⟨hw, hh, hwmax, hhmax⟩)) (readingFrame_faults _ hunset) s

/-- Settles O23: as for THRESH, with a named strength and alpha read too. -/
theorem compFaultsOnUnwrittenByte : Obligations.CompFaultsOnUnwrittenByte := by
  intro s fd fs pm str i c ⟨hw, hwmax, hh, hhmax⟩ hstr hi hnone hbefore
  have hunset : firstUnset s fs (framePixels s) [.r, .g, .b, .a] = some (i, c) :=
    firstUnset_eq_some (by decide) (by cases c <;> decide) hi hnone (fun j d hj _ => hbefore j d (.inl hj))
      fun d _ hlt => hbefore i d (.inr ⟨rfl, hlt⟩)
  obtain ⟨ratio, hratio⟩ := strengthRatio_of_lt s.cfg hstr
  have hresult : compResult fd fs pm str s = .error (.uninitRead fs i c) := by
    simp only [compResult, hratio]
    exact readingFrame_faults _ hunset
  exact runCommand_faulted (compError_eq_none ((dimsOk_iff s).mpr ⟨hw, hh, hwmax, hhmax⟩) hstr) hresult s

/-- Settles O43: the write is `writeGeometry`, whose `clearPlanes` empties exactly the plane windows. -/
theorem geometryWriteClearsPlanes : Obligations.GeometryWriteClearsPlanes := by
  intro s v
  refine ⟨fun hb => hostAccess_write_geometry_busy hb v,
    fun hb => ⟨_, hostAccess_write_registerAddr .geometry v (.inl hb), rfl, rfl, rfl, ?_, ?_, ?_⟩⟩
  · exact fun hc p x y hx hy => planeBit_clearPlanes (t := { writeGeometry v s with response := .ok }) hc rfl rfl p hx hy
  · intro a ha
    have hout : ¬ (planesBase ≤ a ∧ a < planesBase + 4 * 0x00100000) := by unfold planesBase; omega
    exact (readByte_clearRange _ _ s.mem a).trans (if_neg hout)
  · exact hostAccess_read_registerAddr .geometry (geometryWord_writeGeometry v s)

/-- Settles O53: a read commutes with changing PEND. -/
theorem pendingLatchIsUnreadable : Obligations.PendingLatchIsUnreadable := by
  intro s v w a
  constructor <;> intro o h <;> rw [hostAccess_read_pend, h] <;> rfl

/-- Settles O10: the engine's turn is the first event, and it meets the word in PEND with BUSY = 1. -/
theorem placedCommandIsExecutedNext : Obligations.PlacedCommandIsExecutedNext := by
  intro s w i hw hi
  have hword : tableWord 32 w = BitVec.ofNat 32 w := by rw [tableWord, Nat.mod_eq_of_lt hw]
  have hd := decode_of_decodeTableWord hi
  have hturn : step (s.withFetchWord 32 w) = performPending (accept (tableWord 32 w) s) := rfl
  rw [hturn, performPending, accept_pend, hd, hword]
  rfl

/-- Settles O42: the three writes are answered and ignored, and each word is read apart into its fields. -/
theorem constantRegistersReadTheirFields : Obligations.ConstantRegistersReadTheirFields := by
  intro s v hc
  obtain ⟨hwidth, hplanes, hframes, hreserved, hsixtyFour⟩ := paramWord_fields s.cfg
  obtain ⟨hmaxWidth, hmaxHeight⟩ := maxdimWord_fields hc
  refine ⟨fun a ha => ?_, hostAccess_read_registerAddr .id rfl, hostAccess_read_registerAddr .cmd rfl, paramWord s.cfg,
    maxdimWord s.cfg, hostAccess_read_registerAddr .param rfl, hostAccess_read_registerAddr .maxdim rfl, hwidth, hplanes, hframes,
    hreserved, hsixtyFour, hmaxWidth, hmaxHeight⟩
  simp only [List.mem_cons, List.not_mem_nil, or_false] at ha
  rcases ha with rfl | rfl | rfl
  · exact hostAccess_write_registerAddr .id v (.inr (by decide))
  · exact hostAccess_write_registerAddr .param v (.inr (by decide))
  · exact hostAccess_write_registerAddr .maxdim v (.inr (by decide))

/-- Settles O44: the write is `writeCtrl`, whose word reads back masked. -/
theorem ctrlWriteStoresEnables : Obligations.CtrlWriteStoresEnables := by
  intro s v
  exact ⟨_, hostAccess_write_ctrl v s, rfl, hostAccess_read_registerAddr .ctrl (ctrlWord_writeCtrl v s)⟩

/-- Settles O45: the word read is `statusWord`. -/
theorem statusReadsItsFields : Obligations.StatusReadsItsFields := fun s =>
  ⟨statusWord s, hostAccess_read_registerAddr .status rfl, statusWord_fields s⟩

/-- Settles O46: the write is `writeStatus`; it keeps BUSY and GEOMETRY, so that a valid word is accepted once ERR is 0. -/
theorem statusWriteClearsOnlyOnes : Obligations.StatusWriteClearsOnlyOnes := by
  intro s v
  refine ⟨_, hostAccess_write_status v s, ?_, fun hv hb w hw => ?_⟩
  · unfold writeStatus
    cases v.getLsbD 1 <;> cases v.getLsbD 2 <;> simp
  · have herr : (writeStatus v s).err = false := by rw [writeStatus_err, hv, Bool.not_true, Bool.and_false]
    exact ⟨_, hostAccess_write_cmd_accepted hb herr ((validate_congr rfl rfl rfl w).trans hw), rfl, rfl⟩

/-- Settles O47: irq is a function of the pending bits and the enables, which the two writes set at once. -/
theorem irqFollowsPendingAndEnables : Obligations.IrqFollowsPendingAndEnables := by
  refine ⟨rfl, fun s t v => ⟨by simp [irq], ?status, ?ctrlLow, ?ctrlDone, ?ctrlErr⟩⟩
  case status =>
    rw [hostAccess_write_status]
    rintro ⟨⟩ hdone herr
    simp only [irq, writeStatus_done, writeStatus_err, hdone, herr]
    simp
  all_goals
    rw [hostAccess_write_ctrl]
    rintro ⟨⟩ hleft hright
    simp only [irq, writeCtrl_done, writeCtrl_err, writeCtrl_ieDone, writeCtrl_ieErr, hleft, hright]
    simp

end Sys2Proof.Claims
end

section
/-! Proofs for 20_memory.md: where a window access leads, what it reads and writes there, and which event can change a byte of the
buffers. A byte changes only by a host write that covers it, by a GEOMETRY write, by reset, or by a command whose destination holds
it; the statements about frames and about planes are this one fact read at a frame's byte and at a plane's. -/

namespace Sys2Proof.Machine

/-! ### Where a window access leads -/

theorem locate_planeBase {c : Config} (hc : c.ok = true) (p : PlaneIdx) {o : Nat} (ho : o < c.maxHeight * c.stride) :
    locate c (planeBase p + o) = some (.plane p o) := by
  have hwindow := Config.planeBytes_le hc
  have hp := p.isLt
  have hin : inPlanes (planeBase p + o) = true := by rw [inPlanes_iff]; unfold planeBase; omega
  have hoff : (planeBase p + o - planesBase) % 0x00100000 = o := by unfold planeBase; omega
  have hidx : Fin.ofNat 4 ((planeBase p + o - planesBase) / 0x00100000) = p := by
    apply Fin.ext
    rw [Fin.val_ofNat]
    unfold planeBase
    omega
  have hregion : ¬ planeBase p + o < 0x1000 := by unfold planeBase planesBase; omega
  unfold locate
  simp only [hregion, hin, hoff, hidx, ho, if_true, if_false]

theorem locate_frameBase {c : Config} (hc : c.ok = true) (f : FrameIdx) {o : Nat} (ho : o < 4 * c.maxPixels) :
    locate c (frameBase f + o) = some (.frame f o) := by
  have hwindow := Config.frameBytes_le hc
  have hf := f.isLt
  have hout : inPlanes (frameBase f + o) = false := by
    rw [Bool.eq_false_iff, Ne, inPlanes_iff]
    unfold frameBase framesBase planesBase
    omega
  have hin : framesBase ≤ frameBase f + o ∧ frameBase f + o < framesBase + 2 * 0x04000000 := by unfold frameBase; omega
  have hoff : (frameBase f + o - framesBase) % 0x04000000 = o := by unfold frameBase; omega
  have hidx : Fin.ofNat 2 ((frameBase f + o - framesBase) / 0x04000000) = f := by
    apply Fin.ext
    rw [Fin.val_ofNat]
    unfold frameBase
    omega
  have hregion : ¬ frameBase f + o < 0x1000 := by unfold frameBase framesBase; omega
  unfold locate
  simp only [hregion, hout, hin, hoff, hidx, ho, if_true, if_false, and_self, Bool.false_eq_true]

/-- The answer to an aligned window access turns on BUSY alone (20_memory.md R64, R68). -/
theorem targetError_window {s : State} {acc : Access} {tg : Target} (htg : ∀ r, tg ≠ .register r)
    (haligned : acc.address % acc.accessWidth.bytes = 0) :
    targetError s acc tg = if s.busy then some .busy else none := by
  cases tg with
  | register r => exact absurd rfl (htg r)
  | plane p o => simp [targetError, haligned, refusedWhileBusy]
  | frame f o => simp [targetError, haligned, refusedWhileBusy]

theorem hostAccess_window_busy {s : State} {acc : Access} {tg : Target} (hb : s.busy = true)
    (hl : locate s.cfg acc.address = some tg) (htg : ∀ r, tg ≠ .register r)
    (haligned : acc.address % acc.accessWidth.bytes = 0) : hostAccess acc s = .fault (.busError .busy) := by
  have hbusy : busError s acc = some .busy := by simp [busError, hl, targetError_window htg haligned, hb]
  exact hostAccess_busError hbusy

theorem hostAccess_plane {s : State} (hc : s.cfg.ok = true) (hidle : s.busy = false) {acc : Access} {p : PlaneIdx} {o : Nat}
    (ha : acc.address = planeBase p + o) (ho : o < s.cfg.maxHeight * s.cfg.stride)
    (haligned : acc.address % acc.accessWidth.bytes = 0) : hostAccess acc s = accessTarget s acc (.plane p o) :=
  hostAccess_target (ha ▸ locate_planeBase hc p ho) (by simp [targetError_window _ haligned, hidle])

theorem hostAccess_frame {s : State} (hc : s.cfg.ok = true) (hidle : s.busy = false) {acc : Access} {f : FrameIdx} {o : Nat}
    (ha : acc.address = frameBase f + o) (ho : o < 4 * s.cfg.maxPixels)
    (haligned : acc.address % acc.accessWidth.bytes = 0) : hostAccess acc s = accessTarget s acc (.frame f o) :=
  hostAccess_target (ha ▸ locate_frameBase hc f ho) (by simp [targetError_window _ haligned, hidle])

/-! ### The row an aligned plane access stays in -/

theorem AccessWidth.bytes_pos (w : AccessWidth) : 0 < w.bytes := by cases w <;> decide

theorem AccessWidth.bytes_le (w : AccessWidth) : w.bytes ≤ 4 := by cases w <;> decide

theorem four_dvd_planeBase (p : PlaneIdx) : 4 ∣ planeBase p := by unfold planeBase planesBase; omega

/-- Each byte of an aligned plane access lies in the row of the first (20_memory.md R65). -/
theorem plane_access_in_row {c : Config} (hc : c.ok = true) {p : PlaneIdx} {o k : Nat} {w : AccessWidth}
    (haligned : (planeBase p + o) % w.bytes = 0) (hk : k < w.bytes) :
    (o + k) / c.stride = o / c.stride ∧ (o + k) % c.stride = o % c.stride + k := by
  have hoff : w.bytes ∣ o :=
    (Nat.dvd_add_right (w.bytes_dvd.trans (four_dvd_planeBase p))).mp (Nat.dvd_of_mod_eq_zero haligned)
  have hrow : w.bytes ∣ c.stride := w.bytes_dvd.trans (Config.stride_dvd hc)
  have hpos : 0 < c.stride := by have := Config.ok_facts hc; omega
  exact offset_in_row w.bytes_pos (Nat.mod_eq_zero_of_dvd hoff) (Nat.mod_eq_zero_of_dvd hrow) hpos hk

/-- The bytes of an aligned plane access, by row and by pixel: byte `x / 8` of row `y` is one of them exactly if the row is the
access's and the pixel one of its pixels. -/
theorem plane_access_covers_iff {c : Config} (hc : c.ok = true) {p : PlaneIdx} {o x y : Nat} {w : AccessWidth}
    (haligned : (planeBase p + o) % w.bytes = 0) (hx : x < c.maxWidth) :
    (o ≤ y * c.stride + x / 8 ∧ y * c.stride + x / 8 < o + w.bytes) ↔
      (y = o / c.stride ∧ 8 * (o % c.stride) ≤ x ∧ x < 8 * (o % c.stride) + 8 * w.bytes) := by
  have hstride := (Config.ok_facts hc).1
  have hsplit : o / c.stride * c.stride + o % c.stride = o := Nat.div_add_mod' o c.stride
  constructor
  · rintro ⟨hlo, hhi⟩
    obtain ⟨k, hk⟩ := Nat.exists_eq_add_of_le hlo
    obtain ⟨hrow, hbyte⟩ := plane_access_in_row hc haligned (k := k) (by omega)
    obtain ⟨hy, hxk⟩ : (o + k) / c.stride = y ∧ (o + k) % c.stride = x / 8 :=
      (Nat.div_mod_unique (by omega)).mpr ⟨by rw [← hk]; ring, by omega⟩
    exact ⟨by omega, by omega, by omega⟩
  · rintro ⟨rfl, hlo, hhi⟩
    omega

/-! ### Words of bytes -/

/-- Bit `j` of the number whose bytes are given is a bit of its byte `j / 8` (20_memory.md R61). -/
theorem littleEndian_testBit (bs : List Byte) :
    ∀ j, (littleEndian bs).testBit j = (bs.getD (j / 8) 0#8).getLsbD (j % 8) := by
  induction bs with
  | nil => simp [littleEndian]
  | cons b bs ih =>
    intro j
    have hsum : littleEndian (b :: bs) = 2 ^ 8 * littleEndian bs + b.toNat := by simp [littleEndian, Nat.add_comm]
    rw [hsum, Nat.testBit_two_pow_mul_add _ b.isLt]
    split
    · rename_i hj
      simp [Nat.div_eq_of_lt hj, Nat.mod_eq_of_lt hj, BitVec.testBit_toNat]
    · rename_i hj
      have hnext : j / 8 = (j - 8) / 8 + 1 := by omega
      have hbit : j % 8 = (j - 8) % 8 := by omega
      rw [ih, hnext, hbit, List.getD_cons_succ]

theorem wordOfBytes_getLsbD (bs : List Byte) {j : Nat} (hj : j < 32) :
    (BitVec.ofNat 32 (littleEndian bs)).getLsbD j = (bs.getD (j / 8) 0#8).getLsbD (j % 8) := by
  rw [BitVec.getLsbD_ofNat, littleEndian_testBit]
  simp [hj]

/-- The bytes of the word made of some bytes are these bytes, and 0 above. -/
theorem wordOfBytes_byte (bs : List Byte) {k : Nat} (hk : k < 4) :
    (BitVec.ofNat 32 (littleEndian bs)).extractLsb' (8 * k) 8 = bs.getD k 0#8 := by
  refine BitVec.eq_of_getLsbD_eq fun i hi => ?_
  have hbyte : (8 * k + i) / 8 = k := by omega
  have hbit : (8 * k + i) % 8 = i := by omega
  rw [BitVec.getLsbD_extractLsb', wordOfBytes_getLsbD bs (by omega), hbyte, hbit]
  simp [hi]

/-- A word is its four bytes, the highest first. -/
theorem word_eq_bytes (v : Word) :
    v = v.extractLsb' 24 8 ++ v.extractLsb' 16 8 ++ v.extractLsb' 8 8 ++ v.extractLsb' 0 8 := by
  rw [BitVec.extractLsb'_append_extractLsb'_eq_extractLsb' (start₂ := 24) (start₁ := 16) (len₁ := 8) rfl,
    BitVec.extractLsb'_append_extractLsb'_eq_extractLsb' (start₂ := 16) (start₁ := 8) rfl,
    BitVec.extractLsb'_append_extractLsb'_eq_extractLsb' (start₂ := 8) (start₁ := 0) rfl]
  exact BitVec.extractLsb'_eq_self.symm

theorem dataBytes_getElem? (v : Word) {n k : Nat} (hk : k < n) : (dataBytes v n)[k]? = some (v.extractLsb' (8 * k) 8) := by
  simp [dataBytes, hk]

theorem dataBytes_getLsbD (v : Word) {n k i : Nat} (hk : k < n) (hi : i < 8) :
    ((dataBytes v n).getD k 0#8).getLsbD i = v.getLsbD (8 * k + i) := by
  rw [List.getD_eq_getElem?_getD, dataBytes_getElem? v hk, Option.getD_some, BitVec.getLsbD_extractLsb']
  simp [hi]

/-! ### Reading a window -/

/-- Bit `j` of a byte a host reads from a plane window is the pixel there, 0 outside the active region (20_memory.md R65). -/
theorem planeWindowByte_getLsbD (s : State) (p : PlaneIdx) (o : Nat) {j : Nat} (hj : j < 8) :
    (planeWindowByte s p o).getLsbD j = (active s (8 * (o % s.cfg.stride) + j) (o / s.cfg.stride) &&
      planeBit s p (8 * (o % s.cfg.stride) + j) (o / s.cfg.stride)) := by
  rw [planeWindowByte, packBits_getLsbD _ hj, guarded_here]

/-- Bit `j` of an aligned plane window read is bit `j % 8` of window byte `o + j / 8`, which lies in the row of byte `o`. -/
theorem planeAccessRead_getLsbD {s : State} (hc : s.cfg.ok = true) {p : PlaneIdx} {o : Nat} {w : AccessWidth}
    (haligned : (planeBase p + o) % w.bytes = 0) (j : Nat) :
    (BitVec.ofNat 32 (littleEndian ((List.range w.bytes).map fun k => planeWindowByte s p (o + k)))).getLsbD j =
      (decide (j < 8 * w.bytes) && active s (8 * (o % s.cfg.stride) + j) (o / s.cfg.stride) &&
        planeBit s p (8 * (o % s.cfg.stride) + j) (o / s.cfg.stride)) := by
  have hw := w.bytes_le
  by_cases hj : j < 8 * w.bytes
  · have hk : j / 8 < w.bytes := by omega
    obtain ⟨hrow, hbyte⟩ := plane_access_in_row hc haligned hk
    have hpixel : 8 * (o % s.cfg.stride + j / 8) + j % 8 = 8 * (o % s.cfg.stride) + j := by omega
    have hget : ((List.range w.bytes).map fun k => planeWindowByte s p (o + k)).getD (j / 8) 0#8 =
        planeWindowByte s p (o + j / 8) := by simp [hk]
    rw [wordOfBytes_getLsbD _ (by omega), hget, planeWindowByte_getLsbD s p _ (Nat.mod_lt _ (by omega)), hrow, hbyte, hpixel]
    simp [hj]
  · rw [BitVec.getLsbD_ofNat, littleEndian_testBit, List.getD_eq_default _ _ (by simp; omega)]
    simp [hj]

/-- The bytes of a frame window, where each holds a value. -/
theorem frameWindowBytes_ok {s : State} {f : FrameIdx} (n : Nat) :
    ∀ o, (∀ k, k < n → (readByte s.mem (frameBase f + o + k)).isSome = true) →
      ∃ vs, frameWindowBytes s f o n = .ok vs ∧ vs.length = n ∧
        ∀ k, k < n → vs[k]? = readByte s.mem (frameBase f + o + k) := by
  induction n with
  | zero => exact fun _ _ => ⟨[], rfl, rfl, by simp⟩
  | succ n ih =>
    intro o hset
    obtain ⟨v, hv⟩ : ∃ v, readByte s.mem (frameBase f + o) = some v := Option.isSome_iff_exists.mp (hset 0 (by omega))
    have hshift : ∀ k, frameBase f + (o + 1) + k = frameBase f + o + (k + 1) := by omega
    obtain ⟨vs, hvs, hlen, hget⟩ := ih (o + 1) fun k hk => hshift k ▸ hset (k + 1) (by omega)
    refine ⟨v :: vs, by simp only [frameWindowBytes, hv, hvs], by simp [hlen], ?_⟩
    rintro (_ | k) hk
    · exact hv.symm
    · rw [List.getElem?_cons_succ, hget k (by omega), hshift]

/-- Reading a frame window stops at the first byte that holds no value (log entry 9). -/
theorem frameWindowBytes_error {s : State} {f : FrameIdx} {n : Nat} :
    ∀ {o k}, k < n → readByte s.mem (frameBase f + o + k) = none →
      (∀ l, l < k → (readByte s.mem (frameBase f + o + l)).isSome = true) →
      frameWindowBytes s f o n = .error (o + k) := by
  induction n with
  | zero => exact fun hk => absurd hk (by omega)
  | succ n ih =>
    rintro o (_ | k) hk hnone hbefore
    · have hfirst : readByte s.mem (frameBase f + o) = none := hnone
      rw [frameWindowBytes, hfirst]
      rfl
    · obtain ⟨v, hv⟩ : ∃ v, readByte s.mem (frameBase f + o) = some v := Option.isSome_iff_exists.mp (hbefore 0 (by omega))
      have hshift : ∀ l, frameBase f + (o + 1) + l = frameBase f + o + (l + 1) := by omega
      have hrest : frameWindowBytes s f (o + 1) n = .error (o + 1 + k) :=
        ih (by omega) (hshift k ▸ hnone) fun l hl => hshift l ▸ hbefore (l + 1) (by omega)
      simp only [frameWindowBytes, hv, hrest]
      congr 1
      omega

/-- A frame window whose bytes all hold a value answers them, lowest first, with 0 above (20_memory.md R66, R61). -/
theorem readTarget_frame_ok {s : State} {f : FrameIdx} {o n : Nat}
    (hset : ∀ k, k < n → (readByte s.mem (frameBase f + o + k)).isSome = true) :
    ∃ v, readTarget s n (.frame f o) = .ok v ∧ ∀ k, k < 4 →
      some (v.extractLsb' (8 * k) 8) = if k < n then readByte s.mem (frameBase f + o + k) else some 0#8 := by
  obtain ⟨vs, hvs, hlen, hget⟩ := frameWindowBytes_ok n o hset
  refine ⟨BitVec.ofNat 32 (littleEndian vs), by simp only [readTarget, hvs], fun k hk => ?_⟩
  rw [wordOfBytes_byte vs hk, List.getD_eq_getElem?_getD]
  split
  · rename_i hkn
    obtain ⟨b, hb⟩ := Option.isSome_iff_exists.mp (hset k hkn)
    rw [hget k hkn, hb, Option.getD_some]
  · rw [List.getElem?_eq_none (by omega), Option.getD_none]

/-- The fault names the pixel and the channel of the first byte without a value (R66, log entry 9). -/
theorem readTarget_frame_error {s : State} {f : FrameIdx} {o n k : Nat} (hk : k < n)
    (hnone : readByte s.mem (frameBase f + o + k) = none)
    (hbefore : ∀ l, l < k → (readByte s.mem (frameBase f + o + l)).isSome = true) :
    readTarget s n (.frame f o) = .error (.uninitRead f ((o + k) / 4) (channelAt ((o + k) % 4))) := by
  simp only [readTarget, frameWindowBytes_error hk hnone hbefore]

/-- A word whose bytes are a pixel's is A, B, G, R from the top byte down (R66). -/
theorem eq_pixelWord {s : State} {f : FrameIdx} {i : Nat} {v : Word}
    (h : ∀ c : Channel, some (v.extractLsb' (8 * c.index) 8) = frameByte s f i c) :
    v = frameVal s f i .a ++ frameVal s f i .b ++ frameVal s f i .g ++ frameVal s f i .r := by
  have hval : ∀ c : Channel, frameVal s f i c = v.extractLsb' (8 * c.index) 8 := by
    intro c
    rw [frameVal, ← h, Option.getD_some]
  rw [hval, hval, hval, hval]
  exact word_eq_bytes v

/-- What a read answers does not depend on the record of the last answer. -/
theorem readTarget_response (s : State) (r : Response) (n : Nat) (tg : Target) :
    readTarget { s with response := r } n tg = readTarget s n tg := by
  cases tg with
  | register reg => cases reg <;> rfl
  | plane p o => rfl
  | frame f o =>
    have hbytes := frameWindowBytes_congr (s := s) (t := { s with response := r }) rfl f n o
    simp only [readTarget, hbytes]

/-- A read that is answered is answered alike again (20_memory.md R70). -/
theorem hostAccess_read_again {s t : State} {w : AccessWidth} {a : Word} (h : hostAccess (.read w a) s = .next t) :
    ∃ v, t = { s with response := .data v } ∧ hostAccess (.read w a) t = .next t := by
  have ho := hostAccess_outcome (.read w a) s
  rw [h] at ho
  cases ho with
  | write _ _ _ _ hacc => cases hacc
  | read w' a' tg v hacc hl he hv =>
    cases hacc
    refine ⟨v, rfl, ?_⟩
    rw [hostAccess_target (acc := .read w a) (s := { s with response := .data v }) hl he]
    simp only [accessTarget, readTarget_response, hv]

/-! ### Writing a plane window -/

/-- The spec of an aligned plane window write, by row and by pixel: the active pixels it covers in its one row take the bits of the
data, every other bit of every plane's storage reads as before (20_memory.md R65, R69). -/
theorem planeBit_planeAccessWrite {s : State} (hc : s.cfg.ok = true) {p : PlaneIdx} {o : Nat} {w : AccessWidth}
    (ho : o < s.cfg.maxHeight * s.cfg.stride) (haligned : (planeBase p + o) % w.bytes = 0) (v : Word) {q : PlaneIdx} {x y : Nat}
    (hx : x < s.cfg.maxWidth) (hy : y < s.cfg.maxHeight) :
    planeBit (writeTarget s w.bytes v (.plane p o)) q x y =
      if q = p ∧ y = o / s.cfg.stride ∧ 8 * (o % s.cfg.stride) ≤ x ∧ x < 8 * (o % s.cfg.stride) + 8 * w.bytes ∧
        active s x y = true then v.getLsbD (x - 8 * (o % s.cfg.stride))
      else planeBit s q x y := by
  have hfit : o + (dataBytes v w.bytes).length ≤ s.cfg.maxHeight * s.cfg.stride := by
    rw [dataBytes_length]
    exact aligned_part_fits w.bytes_dvd (four_dvd_planeBase p) ((Config.stride_dvd hc).mul_left _) haligned ho
  have hcovers := plane_access_covers_iff hc (y := y) haligned hx
  refine (planeBit_planeWindowWrite hc p hfit q hx hy).trans ?_
  rw [dataBytes_length]
  by_cases hin : q = p ∧ active s x y = true ∧ o ≤ y * s.cfg.stride + x / 8 ∧ y * s.cfg.stride + x / 8 < o + w.bytes
  · obtain ⟨hqp, hact, hrange⟩ := hin
    obtain ⟨rfl, hlo, hhi⟩ := hcovers.mp hrange
    have hsplit := Nat.div_add_mod' o s.cfg.stride
    have hplace : 8 * (o / s.cfg.stride * s.cfg.stride + x / 8 - o) + x % 8 = x - 8 * (o % s.cfg.stride) := by omega
    rw [if_pos ⟨hqp, hact, hrange⟩, if_pos ⟨hqp, rfl, hlo, hhi, hact⟩, dataBytes_getLsbD v (by omega) (by omega), hplace]
  · rw [if_neg hin, if_neg fun ⟨hqp, hrow, hlo, hhi, hact⟩ => hin ⟨hqp, hact, hcovers.mpr ⟨hrow, hlo, hhi⟩⟩]

/-! ### Which writes change a byte -/

/-- The byte a write changes is one it covers, or the write is GEOMETRY's. -/
theorem writeTarget_changes_byte {s : State} {w : AccessWidth} {a v : Word} {tg : Target} {b : Nat}
    (hl : locate s.cfg a.toNat = some tg) (hb : readByte (writeTarget s w.bytes v tg).mem b ≠ readByte s.mem b) :
    tg = .register .geometry ∨ ((∀ r, tg ≠ .register r) ∧ a.toNat ≤ b ∧ b < a.toNat + w.bytes) := by
  cases tg with
  | register r =>
    refine .inl (congrArg _ ?_)
    by_contra hr
    exact hb (by rw [writeTarget, writeRegister_mem v s hr])
  | plane p o =>
    refine .inr ⟨by simp, ?_⟩
    by_contra hout
    rw [(locate_plane hl).1] at hout
    exact hb (readByte_writeBytes_outside _ _ _ _ (by rw [planeWindowWrite_length, dataBytes_length]; omega))
  | frame f o =>
    refine .inr ⟨by simp, ?_⟩
    by_contra hout
    rw [(locate_frame hl).1] at hout
    exact hb (readByte_writeBytes_outside _ _ _ _ (by rw [dataBytes_length]; omega))

/-- A host access that changes a byte of the buffers is a write with BUSY = 0, to GEOMETRY or over that byte. -/
theorem hostAccess_changes_byte {acc : Access} {s t : State} {b : Nat} (h : hostAccess acc s = .next t)
    (hb : readByte t.mem b ≠ readByte s.mem b) :
    ∃ w a v, acc = .write w a v ∧ s.busy = false ∧
      ((a = 0x010#32 ∧ t.mem = clearPlanes s.mem) ∨ (a.toNat ≤ b ∧ b < a.toNat + w.bytes)) := by
  rcases hostAccess_next h with ⟨_, _, _, _, rfl⟩ | ⟨w, a, v, tg, rfl, hl, he, rfl⟩
  · exact absurd rfl hb
  · rcases writeTarget_changes_byte hl hb with rfl | ⟨htg, hrange⟩
    · obtain ⟨_, rfl, hidle⟩ := geometryWrite_shape hl he
      exact ⟨w, _, v, rfl, hidle, .inl ⟨rfl, rfl⟩⟩
    · have haligned := targetError_window_aligned htg he
      rw [targetError_window htg haligned] at he
      exact ⟨w, a, v, rfl, by simpa using he, .inr hrange⟩

/-! ### Which commands change a byte -/

/-- The commands whose destination is plane `p` (30_encoding.md R93). -/
inductive PlaneWriter (p : PlaneIdx) : Instr → Prop where
  | thresh (fs : FrameIdx) : PlaneWriter p (.thresh p fs)
  | clear : PlaneWriter p (.clear p)
  | tdiff (ps : PlaneIdx) : PlaneWriter p (.tdiff p ps)
  | dilh (ps : PlaneIdx) : PlaneWriter p (.dilh p ps)
  | dilv (ps : PlaneIdx) : PlaneWriter p (.dilv p ps)
  | eroh (ps : PlaneIdx) : PlaneWriter p (.eroh p ps)
  | erov (ps : PlaneIdx) : PlaneWriter p (.erov p ps)

/-- The byte lies in the destination of the command: in the window of its plane, or among the active pixels of its frame. -/
inductive InDestination (s : State) (b : Nat) (i : Instr) : Prop where
  | plane (p : PlaneIdx) (hi : PlaneWriter p i) (hb : planeBase p ≤ b ∧ b < planeBase p + 0x00100000)
  | frame (f fs : FrameIdx) (pm : PlaneIdx) (str : StrengthCode) (hi : i = .comp f fs pm str) (k : Nat) (c : Channel)
      (hfits : geometryFits s) (hk : k < framePixels s) (hb : b = frameByteAddr f k c)

/-- A command that changes the buffers passed its checks and wrote its result. -/
theorem runCommand_changes_mem {check : Option CmdError} {r : Except Fault Memory} {s t : State}
    (h : runCommand check r s = .next t) (hm : t.mem ≠ s.mem) : check = none ∧ r = .ok t.mem := by
  rcases runCommand_cases check r s with ⟨e, _, hrun⟩ | ⟨m, hcheck, hr, hrun⟩ | ⟨f, _, _, hrun⟩
  · rw [hrun] at h; cases h; exact absurd rfl hm
  · rw [hrun] at h; cases h; exact ⟨hcheck, hr⟩
  · rw [hrun] at h; cases h

theorem eq_of_readingFrame_ok {s : State} {f : FrameIdx} {n : Nat} {cs : List Channel} {m m' : Memory}
    (h : readingFrame s f n cs m = .ok m') : m' = m := by
  rcases readingFrame_cases s f n cs m with ⟨_, hr⟩ | ⟨_, _, _, _, _, hr⟩
  · rw [hr] at h; exact (Except.ok.inj h).symm
  · rw [hr] at h; cases h

/-- What COMP answers is the buffers as they are, where the code names no ratio, or a written destination frame. -/
theorem compResult_ok {s : State} {fd fs : FrameIdx} {pm : PlaneIdx} {str : StrengthCode} {m : Memory}
    (h : compResult fd fs pm str s = .ok m) : m = s.mem ∨ ∃ out, m = writeFrame s fd out := by
  unfold compResult at h
  split at h
  · exact .inl (Except.ok.inj h).symm
  · exact .inr ⟨_, eq_of_readingFrame_ok h⟩

theorem clearPlane_changes_byte {p : PlaneIdx} {m : Memory} {b : Nat} (hb : readByte (clearPlane p m) b ≠ readByte m b) :
    planeBase p ≤ b ∧ b < planeBase p + 0x00100000 := by
  by_contra hout
  exact hb ((readByte_clearRange _ _ m b).trans (if_neg hout))

theorem writeFrame_changes_byte {s : State} {f : FrameIdx} {out : Nat → Pixel} {b : Nat}
    (hb : readByte (writeFrame s f out) b ≠ readByte s.mem b) : ∃ k c, k < framePixels s ∧ b = frameByteAddr f k c := by
  by_contra hout
  exact hb (readByte_writeFrame_outside s f out fun k c hk haddr => hout ⟨k, c, hk, haddr⟩)

theorem writePlane_changes_byte {s : State} (hc : s.cfg.ok = true) (hg : geometryFits s) {p : PlaneIdx}
    {out : Nat → Nat → Bool} {b : Nat} (hb : readByte (writePlane s p out) b ≠ readByte s.mem b) :
    planeBase p ≤ b ∧ b < planeBase p + 0x00100000 := by
  have hstride := (Config.ok_facts hc).1
  by_contra hout
  refine hb (readByte_writePlane_outside s p out ?_)
  rintro ⟨x, y, hact, rfl⟩
  obtain ⟨hx, hy⟩ := (active_iff s x y).mp hact
  exact hout (planeByteAddr_bounds hc p (hy.trans_le hg.2) (by have := hg.1; omega))

/-- What a command's pseudocode makes of the buffers. -/
def commandResult (s : State) : Instr → Except Fault Memory
  | .nop => .ok s.mem
  | .thresh pd fs =>
    readingFrame s fs (framePixels s) [.r, .g, .b] (writePlane s pd fun x y => pixelLit s fs (y * s.width.toNat + x))
  | .tdiff pd ps => .ok (writePlane s pd (rowDiff s ps))
  | .dilh pd ps => .ok (writePlane s pd (dilateRow s ps))
  | .dilv pd ps => .ok (writePlane s pd (dilateCol s ps))
  | .eroh pd ps => .ok (writePlane s pd (erodeRow s ps))
  | .erov pd ps => .ok (writePlane s pd (erodeCol s ps))
  | .comp fd fs pm str => compResult fd fs pm str s
  | .clear pd => .ok (clearPlane pd s.mem)

/-- Every command runs in one way: its issue checks, then its result. -/
theorem exec_eq_runCommand (i : Instr) (s : State) : exec i s = runCommand (issueError s i) (commandResult s i) s := by
  cases i <;> rfl

/-- A command changes bytes of its destination only (20_memory.md R78). -/
theorem exec_changes_byte {i : Instr} {s t : State} {b : Nat} (hc : s.cfg.ok = true) (h : exec i s = .next t)
    (hb : readByte t.mem b ≠ readByte s.mem b) : InDestination s b i := by
  have hm : t.mem ≠ s.mem := fun hsame => hb (by rw [hsame])
  rw [exec_eq_runCommand] at h
  obtain ⟨hi, hr⟩ := runCommand_changes_mem h hm
  have fits : i ≠ .nop → (∀ pd, i ≠ .clear pd) → geometryFits s :=
    fun hnop hclear => geometryFits_of_dimsOk (dimsOk_of_issueError hnop hclear hi)
  cases i with
  | nop => exact absurd (Except.ok.inj hr).symm hm
  | clear pd =>
    rw [← Except.ok.inj hr] at hb
    exact .plane pd .clear (clearPlane_changes_byte hb)
  | thresh pd fs =>
    rw [eq_of_readingFrame_ok hr] at hb
    exact .plane pd (.thresh fs) (writePlane_changes_byte hc (fits (by simp) (by simp)) hb)
  | tdiff pd ps | dilh pd ps | dilv pd ps | eroh pd ps | erov pd ps =>
    rw [← Except.ok.inj hr] at hb
    exact .plane pd (by constructor) (writePlane_changes_byte hc (fits (by simp) (by simp)) hb)
  | comp fd fs pm str =>
    have hg := fits (by simp) (by simp)
    rcases compResult_ok hr with hsame | ⟨out, hframe⟩
    · exact absurd hsame hm
    · rw [hframe] at hb
      obtain ⟨k, c, hk, haddr⟩ := writeFrame_changes_byte hb
      exact .frame fd fs pm str rfl k c hg hk haddr

theorem InDestination.of_inputs {s : State} {is : List Input} {b : Nat} {i : Instr}
    (h : InDestination { s with inputs := is } b i) : InDestination s b i := by
  cases h with
  | plane p hi hb => exact .plane p hi hb
  | frame f fs pm str hi k c hfits hk hb => exact .frame f fs pm str hi k c hfits hk hb

/-- The engine's turn changes bytes of the pending command's destination only. -/
theorem engineTurn_changes_byte {s t : State} {b : Nat} (hc : s.cfg.ok = true) (h : engineTurn s = .next t)
    (hb : readByte t.mem b ≠ readByte s.mem b) : s.busy = true ∧ ∃ i, decode s.pend = .ok i ∧ InDestination s b i := by
  unfold engineTurn at h
  split at h
  · rename_i hbusy
    refine ⟨hbusy, ?_⟩
    unfold performPending at h
    split at h
    · rename_i i hd
      exact ⟨i, hd, exec_changes_byte hc h hb⟩
    · cases h; exact absurd rfl hb
  · cases h; exact absurd rfl hb

/-! ### The buffers' addresses apart -/

theorem readByte_ne_of_planeBit_ne {s t : State} {p : PlaneIdx} {x y : Nat} (hcfg : t.cfg = s.cfg)
    (h : planeBit t p x y ≠ planeBit s p x y) :
    readByte t.mem (planeByteAddr s.cfg p y (x / 8)) ≠ readByte s.mem (planeByteAddr s.cfg p y (x / 8)) := by
  intro hsame
  exact h (by unfold planeBit; rw [hcfg, hsame])

/-- A byte of a plane's storage lies in the destination of that plane's commands only. -/
theorem InDestination.planeWriter {s : State} (hc : s.cfg.ok = true) {p : PlaneIdx} {y n : Nat} {i : Instr}
    (hy : y < s.cfg.maxHeight) (hn : n < s.cfg.stride) (h : InDestination s (planeByteAddr s.cfg p y n) i) :
    PlaneWriter p i := by
  cases h with
  | plane q hi hb =>
    obtain ⟨hlo, hhi⟩ := planeByteAddr_bounds hc p hy hn
    have hpq : p = q := Fin.ext (by unfold planeBase at *; omega)
    exact hpq ▸ hi
  | frame f fs pm str hi k c hfits hk hb =>
    have hin := planeByteAddr_inPlanes hc p hy hn
    rw [hb, frameByteAddr_not_inPlanes] at hin
    cases hin

theorem Config.maxPixels_le {c : Config} (hc : c.ok = true) : c.maxPixels ≤ 0x01000000 := by
  have := Config.frameBytes_le hc
  omega

/-- A byte of a frame's storage lies in the destination of a COMP to that frame only, within its active pixels. -/
theorem InDestination.comp {s : State} (hc : s.cfg.ok = true) {f : FrameIdx} {k : Nat} {c : Channel} {i : Instr}
    (hk : k < s.cfg.maxPixels) (h : InDestination s (frameByteAddr f k c) i) :
    k < framePixels s ∧ ∃ fs pm str, i = .comp f fs pm str := by
  have hmax := Config.maxPixels_le hc
  cases h with
  | plane p hi hb =>
    have hout := frameByteAddr_not_inPlanes f k c
    have hp := p.isLt
    rw [Bool.eq_false_iff, Ne, inPlanes_iff] at hout
    unfold planeBase at hb
    omega
  | frame g fs pm str hi j d hfits hj hb =>
    have hactive : framePixels s ≤ s.cfg.maxPixels := Nat.mul_le_mul hfits.1 hfits.2
    obtain ⟨rfl, rfl, _⟩ := frameByteAddr_inj (by omega) (by omega) hb
    exact ⟨hj, fs, pm, str, hi⟩

theorem PlaneWriter.cases_mnemonic {p : PlaneIdx} {i : Instr} (h : PlaneWriter p i) :
    (∃ fs, i = .thresh p fs) ∨ i = .clear p ∨
      ∃ ps, i = .tdiff p ps ∨ i = .dilh p ps ∨ i = .dilv p ps ∨ i = .eroh p ps ∨ i = .erov p ps := by
  cases h <;> simp

end Sys2Proof.Machine

namespace Sys2Proof.Claims

open Sys2Proof.Machine

/-- A mapped address above the registers leads to a window (20_memory.md R62, R67). -/
theorem locate_of_mapped {c : Config} (hc : c.ok = true) {a : Nat} (hregion : 0x1000 ≤ a) (hm : mapped c a = true) :
    ∃ tg, locate c a = some tg ∧ ∀ r, tg ≠ .register r := by
  have plane : ∀ p : PlaneIdx, planeBase p ≤ a ∧ a < planeBase p + c.maxHeight * (c.maxWidth / 8) →
      ∃ tg, locate c a = some tg ∧ ∀ r, tg ≠ .register r := by
    rintro p ⟨hlo, hhi⟩
    obtain ⟨o, rfl⟩ := Nat.exists_eq_add_of_le hlo
    exact ⟨_, locate_planeBase hc p (Nat.add_lt_add_iff_left.mp hhi), by simp⟩
  have frame : ∀ f : FrameIdx, frameBase f ≤ a ∧ a < frameBase f + 4 * (c.maxWidth * c.maxHeight) →
      ∃ tg, locate c a = some tg ∧ ∀ r, tg ≠ .register r := by
    rintro f ⟨hlo, hhi⟩
    obtain ⟨o, rfl⟩ := Nat.exists_eq_add_of_le hlo
    exact ⟨_, locate_frameBase hc f (Nat.add_lt_add_iff_left.mp hhi), by simp⟩
  simp only [mapped, Bool.or_eq_true, Bool.and_eq_true, decide_eq_true_eq, or_assoc] at hm
  rcases hm with hreg | hreg | h | h | h | h | h | h
  · omega
  · omega
  · exact plane 0 h
  · exact plane 1 h
  · exact plane 2 h
  · exact plane 3 h
  · exact frame 0 h
  · exact frame 1 h

/-- Which step changes a byte of the buffers: a reset, a host write with BUSY = 0 to GEOMETRY or over the byte, or the engine's turn
on a command whose destination holds the byte (20_memory.md R78). -/
theorem step_changes_byte {s t : State} {b : Nat} (hc : s.cfg.ok = true) (h : step s = .next t)
    (hb : readByte t.mem b ≠ readByte s.mem b) :
    (∃ rest, s.inputs = .reset :: rest) ∨
    (∃ w a v rest, s.inputs = .access (.write w a v) :: rest ∧ s.busy = false ∧
      ((a = 0x010#32 ∧ t.mem = clearPlanes s.mem) ∨ (a.toNat ≤ b ∧ b < a.toNat + w.bytes))) ∨
    (engineHasTurn s ∧ s.busy = true ∧ ∃ i, decode s.pend = .ok i ∧ InDestination s b i) := by
  unfold step stepNext at h
  split at h
  · rename_i hin
    obtain ⟨hbusy, i, hd, hdest⟩ := engineTurn_changes_byte hc h hb
    exact .inr (.inr ⟨.inl hin, hbusy, i, hd, hdest⟩)
  · rename_i event rest hin
    cases event with
    | reset => exact .inl ⟨rest, hin⟩
    | access acc =>
      obtain ⟨w, a, v, rfl, hidle, hcause⟩ := hostAccess_changes_byte (s := { s with inputs := rest }) h hb
      exact .inr (.inl ⟨w, a, v, rest, hin, hidle, hcause⟩)
    | engine =>
      obtain ⟨hbusy, i, hd, hdest⟩ := engineTurn_changes_byte (s := { s with inputs := rest }) hc h hb
      exact .inr (.inr ⟨.inr ⟨rest, hin⟩, hbusy, i, hd, hdest.of_inputs⟩)

/-- Settles O41: a mapped, aligned window access fails on BUSY alone; of the registers only GEOMETRY and CMD are held off. -/
theorem busyHoldsOffTheHost : Obligations.BusyHoldsOffTheHost := by
  intro s hb hc
  refine ⟨fun acc hregion hm haligned => ?_, fun v => ⟨hostAccess_write_geometry_busy hb v, ?_⟩, fun a ha => ?_,
    fun v a ha => ?_⟩
  · obtain ⟨tg, hl, htg⟩ := locate_of_mapped hc hregion hm
    exact hostAccess_window_busy hb hl htg haligned
  · rw [hostAccess_write_register (r := .cmd) v s (by decide) rfl (by decide), hb]
    rfl
  · have hreg : ∃ r, a = registerAddr r := by
      simp only [List.mem_cons, List.not_mem_nil, or_false] at ha
      rcases ha with rfl | rfl | rfl | rfl | rfl | rfl | rfl
      exacts [⟨.id, rfl⟩, ⟨.param, rfl⟩, ⟨.maxdim, rfl⟩, ⟨.geometry, rfl⟩, ⟨.ctrl, rfl⟩, ⟨.status, rfl⟩, ⟨.cmd, rfl⟩]
    obtain ⟨r, rfl⟩ := hreg
    exact ⟨_, hostAccess_read_registerAddr r rfl⟩
  · simp only [List.mem_cons, List.not_mem_nil, or_false] at ha
    rcases ha with rfl | rfl
    · exact ⟨_, hostAccess_write_ctrl v s, hb, rfl⟩
    · exact ⟨_, hostAccess_write_status v s, hb, rfl⟩

/-- Settles O48: the bytes an aligned read packs into one word are pixels of one row. -/
theorem planeWindowReadsPixels : Obligations.PlaneWindowReadsPixels := by
  intro s w a p o hc hidle ha ho haligned
  have hanswer := hostAccess_plane (acc := .read w a) hc hidle ha ho haligned
  have hbase : a.toNat = planeBase p + o := ha
  rw [hbase] at haligned
  exact ⟨_, hanswer, fun j => planeAccessRead_getLsbD hc haligned j⟩

/-- Settles O49: the write masks its bytes in one row, and the bytes it covers there are the pixels of that row it covers. -/
theorem planeWindowWritesActivePixels : Obligations.PlaneWindowWritesActivePixels := by
  intro s w a v p o hc hidle ha ho haligned
  have hanswer := hostAccess_plane (acc := .write w a v) hc hidle ha ho haligned
  have hbase : a.toNat = planeBase p + o := ha
  rw [hbase] at haligned
  refine ⟨_, hanswer, rfl, fun q x y hx hy => ?_, fun b hb => ?_⟩
  · exact planeBit_planeAccessWrite hc ho haligned v hx hy
  · rw [hbase] at hb
    exact readByte_writeBytes_outside _ _ _ _ (by rw [planeWindowWrite_length, dataBytes_length]; omega)

/-- Settles O50: the bytes written are the low bytes of the data, lowest first. -/
theorem frameWindowWritesBytes : Obligations.FrameWindowWritesBytes := by
  intro s w a v f o hc hidle ha ho haligned
  refine ⟨_, hostAccess_frame (acc := .write w a v) hc hidle ha ho haligned, rfl, fun b => ?_⟩
  have hbase : a.toNat = frameBase f + o := ha
  rw [hbase]
  refine (readByte_writeBytes _ _ _ b).trans ?_
  rw [dataBytes_length]
  split
  · rw [dataBytes_getElem? v (by omega)]
  · rfl

/-- Settles O51: the bytes of the window one after the other, up to the first that holds no value. -/
theorem frameWindowReadsBytes : Obligations.FrameWindowReadsBytes := by
  intro s w a f o hc hidle ha ho haligned
  have hbase : a.toNat = frameBase f + o := ha
  have haccess := hostAccess_frame (acc := .read w a) hc hidle ha ho haligned
  rw [hbase]
  constructor
  · intro hset
    obtain ⟨v, hv, hbyte⟩ := readTarget_frame_ok hset
    refine ⟨v, by rw [haccess, accessTarget, hv], hbyte, ?_⟩
    rintro rfl i rfl
    refine eq_pixelWord fun c => ?_
    have hcovered : c.index < AccessWidth.w32.bytes := c.index_lt
    rw [hbyte _ c.index_lt, if_pos hcovered, Nat.add_assoc]
    rfl
  · intro k hk hnone hbefore
    rw [haccess, accessTarget, readTarget_frame_error hk hnone hbefore]

/-- Settles O52: a read sets the record of the answer, which the next read does not look at. -/
theorem readsHaveNoSideEffect : Obligations.ReadsHaveNoSideEffect := by
  intro s t w a h
  obtain ⟨v, rfl, hagain⟩ := hostAccess_read_again h
  exact ⟨rfl, hagain⟩

/-- Settles O56: a GEOMETRY write clears the planes only, and no other command's destination holds a frame byte. -/
theorem framesChangeOnlyByTheirWriters : Obligations.FramesChangeOnlyByTheirWriters := by
  intro s t f i c hc hi h hne
  rcases step_changes_byte hc h hne with hreset | ⟨w, a, v, rest, hin, hidle, hcause⟩ | ⟨hturn, hbusy, j, hd, hdest⟩
  · exact .inl hreset
  · rcases hcause with ⟨_, hclear⟩ | ⟨hlo, hhi⟩
    · have hkept : readByte t.mem (frameByteAddr f i c) = frameByte s f i c := by
        rw [hclear]
        exact clearPlanes_keeps_frame s.mem f i c
      exact absurd hkept hne
    · exact .inr (.inl ⟨w, a, v, rest, hin, hidle, hlo, hhi⟩)
  · obtain ⟨hactive, fs, pm, str, rfl⟩ := hdest.comp hc hi
    exact .inr (.inr ⟨hturn, hbusy, hactive, fs, pm, str, hd⟩)

/-- Settles O57: a plane's bit changes with its byte, which lies in the destination of that plane's commands only. -/
theorem planesChangeOnlyByTheirWriters : Obligations.PlanesChangeOnlyByTheirWriters := by
  intro s t p x y hc hx hy h hne
  have hstride := (Config.ok_facts hc).1
  have hbyte := readByte_ne_of_planeBit_ne (step_cfg h) hne
  rcases step_changes_byte hc h hbyte with hreset | ⟨w, a, v, rest, hin, hidle, hcause⟩ | ⟨hturn, hbusy, i, hd, hdest⟩
  · exact .inl hreset
  · exact .inr (.inl ⟨w, a, v, rest, hin, hidle, hcause.imp_left And.left⟩)
  · exact .inr (.inr ⟨hturn, hbusy, i, hd, (hdest.planeWriter hc hy (by omega)).cases_mnemonic⟩)

end Sys2Proof.Claims
end

section
/-! Proofs for 30_encoding.md: the fields of a command word, decoding and encoding against the opcode table, issuing a command, the
engine's turn on it, the assembler and the pseudo-instructions. The fields do not overlap, so each reads back from the encoded word;
what validation does not refuse for its operands it accepts under every valid geometry. -/

namespace Sys2Proof

open Sys2Proof.Claims

/-! ### The fields of a command word -/

/-- The bits of a word from `lo` up, as quotient and remainder. -/
theorem field_eq (v : Word) (lo n : Nat) : field v lo n = v.toNat / 2 ^ lo % 2 ^ n := by
  rw [field, BitVec.extractLsb'_toNat, Nat.shiftRight_eq_div_pow]

/-- A number placed above the bits of a word is added to it. -/
theorem toNat_or_placed {v : Word} {n k : Nat} (hv : v.toNat < 2 ^ k) (hn : n * 2 ^ k < 2 ^ 32) :
    (v ||| placed n k).toNat = v.toNat + n * 2 ^ k := by
  have hle : n ≤ n * 2 ^ k := Nat.le_mul_of_pos_right n (Nat.two_pow_pos k)
  have hplaced : (placed n k).toNat = n <<< k := by
    rw [placed, BitVec.toNat_shiftLeft, BitVec.toNat_ofNat, Nat.mod_eq_of_lt (hle.trans_lt hn), Nat.shiftLeft_eq,
      Nat.mod_eq_of_lt hn]
  rw [BitVec.toNat_or, hplaced, Nat.or_comm, ← Nat.shiftLeft_add_eq_or_of_lt hv, Nat.shiftLeft_eq, Nat.add_comm]

/-- The word with the given number in each of R91's fields. -/
def commandWord (op pd ps fs fd str : Nat) : Word :=
  BitVec.ofNat 32 op ||| placed pd 4 ||| placed ps 6 ||| placed fs 8 ||| placed fd 9 ||| placed str 10

theorem commandWord_toNat {op pd ps fs fd str : Nat} (hop : op < 16) (hpd : pd < 4) (hps : ps < 4) (hfs : fs < 2)
    (hfd : fd < 2) (hstr : str < 8) :
    (commandWord op pd ps fs fd str).toNat = op + 16 * pd + 64 * ps + 256 * fs + 512 * fd + 1024 * str := by
  have base : (BitVec.ofNat 32 op).toNat = op := by rw [BitVec.toNat_ofNat, Nat.mod_eq_of_lt (by omega)]
  have withPd := toNat_or_placed (v := BitVec.ofNat 32 op) (n := pd) (k := 4) (by omega) (by omega)
  have withPs := toNat_or_placed (n := ps) (k := 6) (withPd.trans_lt (by omega)) (by omega)
  have withFs := toNat_or_placed (n := fs) (k := 8) (withPs.trans_lt (by omega)) (by omega)
  have withFd := toNat_or_placed (n := fd) (k := 9) (withFs.trans_lt (by omega)) (by omega)
  have withStr := toNat_or_placed (n := str) (k := 10) (withFd.trans_lt (by omega)) (by omega)
  unfold commandWord
  omega

/-- The fields do not overlap: each one reads back. -/
theorem fieldsOf_commandWord {op pd ps fs fd str : Nat} (hop : op < 16) (hpd : pd < 4) (hps : ps < 4) (hfs : fs < 2)
    (hfd : fd < 2) (hstr : str < 8) :
    fieldsOf (commandWord op pd ps fs fd str) = [op, pd, ps, fs, fd, str, 0] := by
  simp only [fieldsOf, field_eq, commandWord_toNat hop hpd hps hfs hfd hstr, List.cons.injEq, and_true]
  omega

/-- The fields of a command by R94 and R99, in the order of `fieldsOf`. -/
def wordFields : Instr → List Nat
  | .nop => [0, 0, 0, 0, 0, 0, 0]
  | .thresh pd fs => [1, pd, 0, fs, 0, 0, 0]
  | .tdiff pd ps => [2, pd, ps, 0, 0, 0, 0]
  | .dilh pd ps => [3, pd, ps, 0, 0, 0, 0]
  | .dilv pd ps => [4, pd, ps, 0, 0, 0, 0]
  | .eroh pd ps => [5, pd, ps, 0, 0, 0, 0]
  | .erov pd ps => [6, pd, ps, 0, 0, 0, 0]
  | .comp fd fs pm str => [7, 0, pm, fs, fd, str, 0]
  | .clear pd => [8, pd, 0, 0, 0, 0, 0]

@[simp] theorem placed_zero (k : Nat) : placed 0 k = 0#32 := by simp [placed]

theorem planeWord_eq (op : Nat) (pd ps : PlaneIdx) :
    BitVec.ofNat 32 op ||| placed pd.val 4 ||| placed ps.val 6 = commandWord op pd ps 0 0 0 := by simp [commandWord]

/-- The word of a command has the command's fields. -/
theorem fieldsOf_encode (i : Instr) : fieldsOf (encode i) = wordFields i := by
  have hplanes (op : Nat) (hop : op < 16) (pd ps : PlaneIdx) :
      fieldsOf (BitVec.ofNat 32 op ||| placed pd.val 4 ||| placed ps.val 6) = [op, pd, ps, 0, 0, 0, 0] := by
    rw [planeWord_eq]
    exact fieldsOf_commandWord hop pd.isLt ps.isLt (by decide) (by decide) (by decide)
  cases i with
  | nop => decide
  | thresh pd fs =>
    have hword : encode (.thresh pd fs) = commandWord 1 pd 0 fs 0 0 := by simp [encode, commandWord]
    rw [hword]
    exact fieldsOf_commandWord (by decide) pd.isLt (by decide) fs.isLt (by decide) (by decide)
  | tdiff pd ps | dilh pd ps | dilv pd ps | eroh pd ps | erov pd ps => exact hplanes _ (by decide) pd ps
  | comp fd fs pm str =>
    have hword : encode (.comp fd fs pm str) = commandWord 7 0 pm fs fd str := by simp [encode, commandWord]
    rw [hword]
    exact fieldsOf_commandWord (by decide) (by decide) pm.isLt fs.isLt fd.isLt str.isLt
  | clear pd =>
    have hword : encode (.clear pd) = commandWord 8 pd 0 0 0 0 := by simp [encode, commandWord]
    rw [hword]
    exact fieldsOf_commandWord (by decide) pd.isLt (by decide) (by decide) (by decide) (by decide)

/-! ### Decoding and encoding -/

theorem tableRow (i : Instr) : Laws.TableRow.Statement i := by
  cases i with
  | nop => exact Laws.TableRow.nop
  | thresh pd fs => exact Laws.TableRow.thresh pd fs
  | tdiff pd ps => exact Laws.TableRow.tdiff pd ps
  | dilh pd ps => exact Laws.TableRow.dilh pd ps
  | dilv pd ps => exact Laws.TableRow.dilv pd ps
  | eroh pd ps => exact Laws.TableRow.eroh pd ps
  | erov pd ps => exact Laws.TableRow.erov pd ps
  | comp fd fs pm str => exact Laws.TableRow.comp fd fs pm str
  | clear pd => exact Laws.TableRow.clear pd

/-- The converse of `decode_row`. -/
theorem decode_of_row {v : Word} {row : OpcodeRow} (hrow : opcodeTable[opField v]? = some row)
    (hmatch : v &&& row.mask = row.pattern) : decode v = .ok (row.operands v) := by
  unfold decode
  rw [hrow]
  exact if_pos hmatch

/-- The operands a command's own row reads from its word are the command's. -/
theorem operands_encode (i : Instr) {row : OpcodeRow} (hrow : opcodeTable[Laws.TableRow.opOf i]? = some row) :
    row.operands (encode i) = i := by
  have hfields := fieldsOf_encode i
  cases i <;> cases hrow <;> simp only [fieldsOf, wordFields, List.cons.injEq] at hfields <;>
    obtain ⟨_, hpd, hps, hfs, hfd, hstr, _⟩ := hfields
  case nop => rfl
  case thresh pd fs => exact congrArg₂ Instr.thresh (Fin.ext hpd) (Fin.ext hfs)
  case tdiff pd ps => exact congrArg₂ Instr.tdiff (Fin.ext hpd) (Fin.ext hps)
  case dilh pd ps => exact congrArg₂ Instr.dilh (Fin.ext hpd) (Fin.ext hps)
  case dilv pd ps => exact congrArg₂ Instr.dilv (Fin.ext hpd) (Fin.ext hps)
  case eroh pd ps => exact congrArg₂ Instr.eroh (Fin.ext hpd) (Fin.ext hps)
  case erov pd ps => exact congrArg₂ Instr.erov (Fin.ext hpd) (Fin.ext hps)
  case comp fd fs pm str =>
    exact (Instr.comp.injEq ..).mpr ⟨Fin.ext hfd, Fin.ext hfs, Fin.ext hps, Fin.ext hstr⟩
  case clear pd => exact congrArg Instr.clear (Fin.ext hpd)

/-- The encoder and the decoder drop no bit of any field. -/
theorem decode_encode (i : Instr) : decode (encode i) = .ok i := by
  obtain ⟨hop, hrow, _⟩ := tableRow i
  obtain ⟨row, hrow, hmatch⟩ := (Option.any_eq_true _ _).mp hrow
  rw [decode_of_row (hop ▸ hrow) (by simpa using hmatch), operands_encode i hrow]

/-- Encoding what a row reads from a word gives the row's pattern with the word's bits outside the row's mask. -/
theorem encode_operands (v : Word) : ∀ row ∈ opcodeTable, encode (row.operands v) = row.pattern ||| (v &&& ~~~row.mask) := by
  -- the fields a row uses are together the complement of its mask
  simp only [opcodeTable, List.forall_mem_cons, encode, placed_pdField, placed_psField, placed_fsField, placed_fdField,
    placed_strField, BitVec.or_assoc, ← BitVec.and_or_distrib_left]
  simp

end Sys2Proof

namespace Sys2Proof.Machine

open Sys2Proof.Claims

/-! ### Validation -/

/-- The checks read of the state only whether its geometry is valid. -/
theorem issueError_of_dimsOk {s t : State} (h : dimsOk t = dimsOk s) (i : Instr) : issueError t i = issueError s i := by
  cases i <;> simp only [issueError, dimError, planeError, compError, h]

theorem validate_of_dimsOk {s t : State} (h : dimsOk t = dimsOk s) (v : Word) : validate v t = validate v s := by
  unfold validate
  split
  · rfl
  · exact issueError_of_dimsOk h _

theorem validate_encode (i : Instr) (s : State) : validate (encode i) s = issueError s i := by
  rw [validate, decode_encode]

theorem dimsOk_of_validGeometry {s : State} (h : validGeometry s) : dimsOk s = true :=
  (dimsOk_iff s).mpr ⟨h.1, h.2.2.1, h.2.1, h.2.2.2⟩

/-- The plane-to-plane commands are well-formed between two planes (R196). -/
theorem wellFormed_planes_iff {i : Instr} {pd ps : PlaneIdx}
    (h : i ∈ [Instr.tdiff pd ps, .dilh pd ps, .dilv pd ps, .eroh pd ps, .erov pd ps]) : i.wellFormed = true ↔ pd ≠ ps := by
  simp only [List.mem_cons, List.not_mem_nil, or_false] at h
  rcases h with rfl | rfl | rfl | rfl | rfl <;> simp [Instr.wellFormed, Instr.planesDiffer, Instr.strengthNamed]

/-- A COMP is well-formed with a named strength (R197). -/
theorem wellFormed_comp_iff (fd fs : FrameIdx) (pm : PlaneIdx) (str : StrengthCode) :
    (Instr.comp fd fs pm str).wellFormed = true ↔ str.val < 5 := by
  simp [Instr.wellFormed, Instr.planesDiffer, Instr.strengthNamed]

/-- Under a valid geometry a well-formed command passes its checks (60_exceptions.md R199). -/
theorem issueError_eq_none_of_wellFormed {s : State} {i : Instr} (hs : validGeometry s) (hi : i.wellFormed = true) :
    issueError s i = none := by
  have hdims := dimsOk_of_validGeometry hs
  cases i with
  | nop | clear => rfl
  | thresh => exact dimError_eq_none hdims
  | tdiff pd ps | dilh pd ps | dilv pd ps | eroh pd ps | erov pd ps =>
    have hne : pd ≠ ps := (wellFormed_planes_iff (by simp)).mp hi
    exact planeError_eq_none hdims hne.symm
  | comp fd fs pm str => exact compError_eq_none hdims ((wellFormed_comp_iff fd fs pm str).mp hi)

/-! ### The CMD write -/

/-- While BUSY = 0 a CMD write issues its word (30_encoding.md R96). -/
theorem hostAccess_cmdWrite {s : State} (hidle : s.busy = false) (v : Word) :
    hostAccess (cmdWrite v) s = .next { issue v s with response := .ok } :=
  hostAccess_write_registerAddr .cmd v (.inl hidle)

theorem hostAccess_cmdWrite_busy {s : State} (hb : s.busy = true) (v : Word) :
    hostAccess (cmdWrite v) s = .fault (.busError .busy) := by
  rw [hostAccess_write_register (r := .cmd) v s (by decide) rfl (by decide), hb]
  rfl

theorem registerAt_slot {o : Nat} {r : Register} (h : registerAt o = some r) : o / 4 = (registerAddr r).toNat / 4 := by
  unfold registerAt at h
  split at h <;> cases h <;> assumption

/-- The one write that gets an OK response from a register is 32 bits wide and at the register's address (20_memory.md R63). -/
theorem registerWrite_shape {s : State} {w : AccessWidth} {a v : Word} {r : Register}
    (hl : locate s.cfg a.toNat = some (.register r)) (he : targetError s (.write w a v) (.register r) = none) :
    Access.write w a v = .write .w32 (registerAddr r) v := by
  obtain ⟨hw, haligned⟩ := targetError_register_shape he
  change w = .w32 at hw
  change a.toNat % 4 = 0 at haligned
  have hslot : a.toNat / 4 = (registerAddr r).toNat / 4 := registerAt_slot (locate_register hl).2
  have hregister : (registerAddr r).toNat % 4 = 0 := (registerAddr_leads r).2.2
  have ha : a = registerAddr r := BitVec.eq_of_toNat_eq (by omega)
  rw [ha, hw]

/-! ### What raises BUSY -/

/-- Of the writes only CMD's touches BUSY. -/
theorem writeTarget_busy (s : State) (n : Nat) (v : Word) {tg : Target} (htg : tg ≠ .register .cmd) :
    (writeTarget s n v tg).busy = s.busy := by
  cases tg with
  | plane | frame => rfl
  | register r =>
    cases r with
    | cmd => exact absurd rfl htg
    | id | param | maxdim | geometry | ctrl | status => rfl

theorem TurnNext.not_busy {s t : State} (h : TurnNext s t) (hidle : s.busy = false) : t.busy = false := by
  cases h with
  | idle => exact hidle
  | rejected => rfl
  | completed => rfl

/-- Issuing a word raises BUSY only by accepting it (30_encoding.md R96). -/
theorem issue_raises_busy {s : State} {v : Word} (hidle : s.busy = false) (hb : (issue v s).busy = true) :
    s.err = false ∧ validate v s = none ∧ issue v s = accept v s := by
  rcases issue_cases v s with ⟨_, h⟩ | ⟨e, _, _, h⟩ | haccepted
  · rw [h, hidle] at hb; cases hb
  · rw [h] at hb; cases hb
  · exact haccepted

/-- Of the host's accesses only an accepted CMD write raises BUSY. -/
theorem hostAccess_raises_busy {acc : Access} {s t : State} (h : hostAccess acc s = .next t) (hidle : s.busy = false)
    (hb : t.busy = true) : ∃ v, acc = cmdWrite v ∧ s.err = false ∧ validate v s = none ∧ t.pend = v := by
  rcases hostAccess_next h with ⟨w, a, v, _, rfl⟩ | ⟨w, a, v, tg, rfl, hl, he, rfl⟩
  · exact absurd hb (by simp [hidle])
  · by_cases htg : tg = .register .cmd
    · subst htg
      obtain ⟨herr, hv, hissue⟩ := issue_raises_busy hidle (v := v) hb
      exact ⟨v, registerWrite_shape hl he, herr, hv, congrArg State.pend hissue⟩
    · have hkept := writeTarget_busy s w.bytes v htg
      exact absurd hb (by simp [hkept, hidle])

/-! ### The engine's turn -/

/-- Where the engine has its turn, a step is that turn, its event being taken from the list. -/
theorem step_of_engineHasTurn {s : State} (h : engineHasTurn s) : step s = engineTurn { s with inputs := s.inputs.tail } := by
  rcases h with hnil | ⟨rest, hcons⟩
  · have hsame : { s with inputs := s.inputs.tail } = s := by rw [hnil, List.tail_nil, ← hnil]
    rw [hsame, step, stepNext, hnil]
  · rw [step, stepNext, hcons]
    rfl

theorem engineTurn_busy {s : State} {i : Instr} (hb : s.busy = true) (hd : decode s.pend = .ok i) : engineTurn s = exec i s := by
  rw [engineTurn, hb, performPending, hd]
  rfl

theorem engineTurn_idle {s : State} (h : s.busy = false) : engineTurn s = .next s := by
  rw [engineTurn, h]
  rfl

/-- A command that passes its checks completes, or reads a frame byte that holds no value. -/
theorem exec_of_issueError_none {i : Instr} {s : State} (h : issueError s i = none) :
    (∃ m, exec i s = .next (complete { s with mem := m })) ∨
    (∃ f n c, frameByte s f n c = none ∧ exec i s = .fault (.uninitRead f n c)) := by
  have ho := exec_outcome i s
  generalize exec i s = o at ho
  cases ho with
  | rejected e he => rw [h] at he; cases he
  | completed m => exact .inl ⟨m, rfl⟩
  | uninit f n c _ hn => exact .inr ⟨f, n, c, hn, rfl⟩

/-! ### The assembler -/

/-- A plane operand out of range is refused, whatever the line makes of its planes (30_encoding.md R99). -/
theorem twoPlanes_out {α : Type} (f : PlaneIdx → PlaneIdx → Except AsmError α) {a b : Nat} (h : 4 ≤ a ∨ 4 ≤ b) :
    (do f (← planeOperand a) (← planeOperand b)) = .error .operandOutOfRange := by
  rcases Nat.lt_or_ge a 4 with ha | ha
  · rw [planeOperand_of_lt ha, planeOperand_out (h.resolve_left (Nat.not_le.mpr ha))]
    rfl
  · rw [planeOperand_out ha]
    rfl

theorem threePlanes_out {α : Type} (f : PlaneIdx → PlaneIdx → PlaneIdx → Except AsmError α) {a b c : Nat}
    (h : 4 ≤ a ∨ 4 ≤ b ∨ 4 ≤ c) :
    (do f (← planeOperand a) (← planeOperand b) (← planeOperand c)) = .error .operandOutOfRange := by
  rcases Nat.lt_or_ge a 4 with ha | ha
  · rw [planeOperand_of_lt ha]
    exact twoPlanes_out (f ⟨a, ha⟩) (h.resolve_left (Nat.not_le.mpr ha))
  · rw [planeOperand_out ha]
    rfl

theorem assemble_thresh (d s : Nat) :
    assemble (.thresh d s) =
      if h : d < 4 ∧ s < 2 then .ok (.thresh ⟨d, h.1⟩ ⟨s, h.2⟩) else .error .operandOutOfRange := by
  split_ifs with h
  · rw [assemble, planeOperand_of_lt h.1, frameOperand_of_lt h.2]
    rfl
  · by_cases hd : d < 4
    · rw [assemble, planeOperand_of_lt hd, frameOperand_out (by omega)]
      rfl
    · rw [assemble, planeOperand_out (Nat.not_lt.mp hd)]
      rfl

theorem assemble_clear (d : Nat) :
    assemble (.clear d) = if h : d < 4 then .ok (.clear ⟨d, h⟩) else .error .operandOutOfRange := by
  split_ifs with h
  · rw [assemble, planeOperand_of_lt h]
    rfl
  · rw [assemble, planeOperand_out (Nat.not_lt.mp h)]
    rfl

/-- COMP takes its strength operand where its frames and its plane are in range. -/
theorem assemble_comp (d s m : Nat) (str : StrengthOperand) :
    assemble (.comp d s m str) =
      if h : d < 2 ∧ s < 2 ∧ m < 4 then (strengthOperand str).map (Instr.comp ⟨d, h.1⟩ ⟨s, h.2.1⟩ ⟨m, h.2.2⟩)
      else .error .operandOutOfRange := by
  split_ifs with h
  · obtain ⟨hd, hs, hm⟩ := h
    rw [assemble, frameOperand_of_lt hd, frameOperand_of_lt hs, planeOperand_of_lt hm]
    rfl
  · by_cases hd : d < 2
    · by_cases hs : s < 2
      · rw [assemble, frameOperand_of_lt hd, frameOperand_of_lt hs, planeOperand_out (by omega)]
        rfl
      · rw [assemble, frameOperand_of_lt hd, frameOperand_out (Nat.not_lt.mp hs)]
        rfl
    · rw [assemble, frameOperand_out (Nat.not_lt.mp hd)]
      rfl

theorem planePair_eq (d s : Nat) (build : PlaneIdx → PlaneIdx → Instr) :
    planePair d s build =
      if h : d < 4 ∧ s < 4 then if d = s then .error .samePlane else .ok (build ⟨d, h.1⟩ ⟨s, h.2⟩)
      else .error .operandOutOfRange := by
  split_ifs with h hds
  · subst hds
    rw [planePair, planeOperand_of_lt h.1]
    exact if_pos rfl
  · rw [planePair, planeOperand_of_lt h.1, planeOperand_of_lt h.2]
    exact if_neg fun heq => hds (Fin.mk.inj heq)
  · exact twoPlanes_out (fun d s => if d = s then .error .samePlane else .ok (build d s)) (by omega)

theorem planePair_ok {d s : Nat} {build : PlaneIdx → PlaneIdx → Instr} {i : Instr} (h : planePair d s build = .ok i) :
    ∃ pd ps, pd ≠ ps ∧ i = build pd ps := by
  rw [planePair_eq] at h
  split_ifs at h with hlt hds
  cases h
  exact ⟨⟨d, hlt.1⟩, ⟨s, hlt.2⟩, fun heq => hds (Fin.mk.inj heq), rfl⟩

/-- A strength operand that is taken names a strength (43_compositor.md R160). -/
theorem lt_of_strengthOperand {str : StrengthOperand} {code : StrengthCode} (h : strengthOperand str = .ok code) :
    code.val < 5 := by
  cases str with
  | name n => cases h; cases n <;> decide
  | code n =>
    rw [strengthOperand] at h
    split_ifs at h with hn
    cases h
    exact (Nat.mod_le n 8).trans_lt hn

/-- The assembler takes no line whose command validation would refuse for its operands (30_encoding.md R99). -/
theorem wellFormed_of_assemble {l : AsmLine} {i : Instr} (h : assemble l = .ok i) : i.wellFormed = true := by
  cases l with
  | nop => cases h; rfl
  | thresh d s =>
    rw [assemble_thresh] at h
    split at h <;> cases h
    rfl
  | clear d =>
    rw [assemble_clear] at h
    split at h <;> cases h
    rfl
  | tdiff d s | dilh d s | dilv d s | eroh d s | erov d s =>
    obtain ⟨pd, ps, hne, rfl⟩ := planePair_ok h
    exact (wellFormed_planes_iff (by simp)).mpr hne
  | comp d s m str =>
    rw [assemble_comp] at h
    split at h
    · cases hstr : strengthOperand str with
      | error e => rw [hstr] at h; cases h
      | ok code =>
        rw [hstr] at h
        cases h
        exact (wellFormed_comp_iff ..).mpr (lt_of_strengthOperand hstr)
    · cases h

/-- Each plane-to-plane mnemonic takes two planes, and its command's word has the mnemonic's OP and the planes in PD and PS. -/
theorem planeMnemonic_builds {op : Nat} {line : Nat → Nat → AsmLine} (h : (op, line) ∈ planeMnemonics) :
    ∃ build : PlaneIdx → PlaneIdx → Instr, (∀ d s, assemble (line d s) = planePair d s build) ∧
      ∀ pd ps : PlaneIdx, wordFields (build pd ps) = [op, pd, ps, 0, 0, 0, 0] := by
  simp only [planeMnemonics, List.mem_cons, Prod.mk.injEq, List.not_mem_nil, or_false] at h
  rcases h with ⟨rfl, rfl⟩ | ⟨rfl, rfl⟩ | ⟨rfl, rfl⟩ | ⟨rfl, rfl⟩ | ⟨rfl, rfl⟩
  · exact ⟨.tdiff, fun _ _ => rfl, fun _ _ => rfl⟩
  · exact ⟨.dilh, fun _ _ => rfl, fun _ _ => rfl⟩
  · exact ⟨.dilv, fun _ _ => rfl, fun _ _ => rfl⟩
  · exact ⟨.eroh, fun _ _ => rfl, fun _ _ => rfl⟩
  · exact ⟨.erov, fun _ _ => rfl, fun _ _ => rfl⟩

/-- Each strength operand of R99 is taken with its code. -/
theorem strengthOperand_listed {code : Nat} {str : StrengthOperand} (h : (code, str) ∈ strengthOperands) :
    ∃ c : StrengthCode, strengthOperand str = .ok c ∧ c.val = code := by
  have hall : ∀ entry ∈ strengthOperands, (strengthOperand entry.2).map Fin.val = .ok entry.1 := by decide
  have hentry := hall _ h
  cases hstr : strengthOperand str with
  | error e => rw [hstr] at hentry; cases hentry
  | ok c => rw [hstr] at hentry; cases hentry; exact ⟨c, rfl, rfl⟩

/-- A line is assembled to the fields of its command. -/
theorem assemblesTo_of_ok {l : AsmLine} {i : Instr} (h : assemble l = .ok i) : assemblesTo l (wordFields i) :=
  ⟨i, h, fieldsOf_encode i⟩

/-! ### The pseudo-instructions -/

/-- A well-formed command that reads no frame: under a valid geometry it passes its checks and completes. -/
structure AlwaysCompletes (i : Instr) : Prop where
  wellFormed : i.wellFormed = true
  result : ∀ s, ∃ m, commandResult s i = .ok m

theorem AlwaysCompletes.exec {i : Instr} (hi : AlwaysCompletes i) {s : State} (hs : validGeometry s) :
    ∃ m, exec i s = .next (complete { s with mem := m }) := by
  obtain ⟨m, hm⟩ := hi.result s
  exact ⟨m, (exec_eq_runCommand i s).trans
    (runCommand_completed (issueError_eq_none_of_wellFormed hs hi.wellFormed) hm s)⟩

theorem runs_of_alwaysCompletes {is : List Instr} (h : ∀ i ∈ is, AlwaysCompletes i) :
    ∀ s : State, validGeometry s → ∃ t, runs s is t := by
  induction is with
  | nil => exact fun s _ => ⟨s, rfl⟩
  | cons i is ih =>
    intro s hs
    obtain ⟨m, hexec⟩ := (h i (List.mem_cons_self ..)).exec hs
    obtain ⟨t, ht⟩ := ih (fun j hj => h j (List.mem_cons_of_mem _ hj)) (complete { s with mem := m }) hs
    exact ⟨t, _, hexec, ht⟩

theorem runnable_of_alwaysCompletes {is : List Instr} (h : ∀ i ∈ is, AlwaysCompletes i) : runnable is := fun s hs =>
  ⟨fun i hi => (validate_encode i s).trans (issueError_eq_none_of_wellFormed hs (h i hi).wellFormed),
    runs_of_alwaysCompletes h s hs⟩

/-- The four refiner commands complete between two different planes. -/
theorem refiner_alwaysCompletes {pd ps : PlaneIdx} (h : pd ≠ ps) :
    ∀ i ∈ [Instr.dilh pd ps, .dilv pd ps, .eroh pd ps, .erov pd ps], AlwaysCompletes i := by
  intro i hi
  refine ⟨(wellFormed_planes_iff (List.mem_cons_of_mem _ hi)).mpr h, fun s => ?_⟩
  simp only [List.mem_cons, List.not_mem_nil, or_false] at hi
  rcases hi with rfl | rfl | rfl | rfl <;> exact ⟨_, rfl⟩

theorem assemblePseudo_dil2 (pd ps pt : PlaneIdx) : assemblePseudo (.dil2 pd.val ps.val pt.val) = dil2 pd ps pt := by
  simp only [assemblePseudo, planeOperand_val]
  rfl

theorem assemblePseudo_ero2 (pd ps pt : PlaneIdx) : assemblePseudo (.ero2 pd.val ps.val pt.val) = ero2 pd ps pt := by
  simp only [assemblePseudo, planeOperand_val]
  rfl

theorem assemblePseudo_close (pa pt : PlaneIdx) : assemblePseudo (.close pa.val pt.val) = closePlane pa pt := by
  simp only [assemblePseudo, planeOperand_val]
  rfl

theorem assemblePseudo_refine (n : Nat) (pa pt : PlaneIdx) :
    assemblePseudo (.refine n pa.val pt.val) = refinePlane n pa pt := by
  simp only [assemblePseudo, planeOperand_val]
  rfl

theorem dilation_alwaysCompletes {pd ps pt : PlaneIdx} (hs : pt ≠ ps) (hd : pt ≠ pd) :
    ∀ i ∈ [Instr.dilh pt ps, .dilv pd pt], AlwaysCompletes i := by
  simp only [List.forall_mem_cons]
  exact ⟨refiner_alwaysCompletes hs _ (by simp), refiner_alwaysCompletes hd.symm _ (by simp), nofun⟩

theorem erosion_alwaysCompletes {pd ps pt : PlaneIdx} (hs : pt ≠ ps) (hd : pt ≠ pd) :
    ∀ i ∈ [Instr.eroh pt ps, .erov pd pt], AlwaysCompletes i := by
  simp only [List.forall_mem_cons]
  exact ⟨refiner_alwaysCompletes hs _ (by simp), refiner_alwaysCompletes hd.symm _ (by simp), nofun⟩

/-- REFINE's copies of CLOSE. -/
theorem runnable_passes (n : Nat) {pa pt : PlaneIdx} (h : pa ≠ pt) :
    runnable (List.replicate n [Instr.dilh pt pa, .dilv pa pt, .eroh pt pa, .erov pa pt]).flatten := by
  refine runnable_of_alwaysCompletes fun i hi => ?_
  obtain ⟨pass, hpass, hi⟩ := List.mem_flatten.mp hi
  rw [List.eq_of_mem_replicate hpass] at hi
  exact (List.mem_append (s := [Instr.dilh pt pa, .dilv pa pt]).mp hi).elim (dilation_alwaysCompletes h.symm h.symm i)
    (erosion_alwaysCompletes h.symm h.symm i)

end Sys2Proof.Machine

namespace Sys2Proof.Claims

open Sys2Proof.Machine

/-- Settles O2: the word has its command's row, and the row's fields read the operands back. -/
theorem decodeOfEncodeIsIdentity : Obligations.DecodeOfEncodeIsIdentity := decode_encode

/-- Settles O3: a decoded word is its row's pattern under the mask, and its operands are the rest of it. -/
theorem encodeOfDecodeIsIdentity : Obligations.EncodeOfDecodeIsIdentity := by
  intro v i h
  obtain ⟨row, hmem, _, hmatch, rfl⟩ := decode_row h
  rw [encode_operands v row hmem, pattern_or_rest hmatch]

/-- Settles O11: the turn runs the pending command, which passes its checks. -/
theorem engineStepCompletesCommand : Obligations.EngineStepCompletesCommand := by
  intro s hturn hb hv
  obtain ⟨i, hd, hi⟩ := validate_eq_none hv
  have hi' : issueError { s with inputs := s.inputs.tail } i = none := (issueError_congr rfl rfl rfl i).trans hi
  rw [step_of_engineHasTurn hturn, engineTurn_busy (s := { s with inputs := s.inputs.tail }) hb hd]
  exact exec_of_issueError_none hi'

/-- Settles O55: of a step's events only an answered CMD write raises BUSY, by accepting its word. -/
theorem busyRisesOnlyByAcceptedWrite : Obligations.BusyRisesOnlyByAcceptedWrite := by
  intro s t h hidle hb
  rcases step_next h with ⟨_, hturn⟩ | ⟨i, rest, hin, hi⟩
  · exact absurd (hturn.not_busy hidle) (by simp [hb])
  · rcases applyInput_next hi with ⟨acc, rfl, hacc⟩ | ⟨_, rfl⟩ | ⟨_, hturn⟩
    · obtain ⟨v, rfl, herr, hv, hpend⟩ := hostAccess_raises_busy hacc hidle hb
      exact ⟨v, rest, hin, herr, (validate_congr rfl rfl rfl v).trans hv, hpend⟩
    · cases hb
    · exact absurd (hturn.not_busy hidle) (by simp [hb])

/-- Settles O59: each mnemonic by what its operand places take; a line that is taken is well-formed, which validation accepts. -/
theorem assemblerGivesAcceptedCommands : Obligations.AssemblerGivesAcceptedCommands := by
  refine ⟨fun l i h => ⟨wellFormed_of_assemble h, decode_encode i, fun s hs =>
    (validate_encode i s).trans (issueError_eq_none_of_wellFormed hs (wellFormed_of_assemble h))⟩,
    assemblesTo_of_ok (i := .nop) rfl, fun d s => ?thresh, fun op line h d s => ?planes, fun code str h d s m => ?comp,
    fun n d s m hn => ?strength, fun d => ?clear⟩
  case thresh =>
    have hline := assemble_thresh d s
    split_ifs at hline ⊢
    · exact assemblesTo_of_ok hline
    · exact hline
  case planes =>
    obtain ⟨build, hbuild, hfields⟩ := planeMnemonic_builds h
    have hline := (hbuild d s).trans (planePair_eq d s build)
    split_ifs at hline ⊢ with hlt
    · exact hline
    · exact hfields ⟨d, hlt.1⟩ ⟨s, hlt.2⟩ ▸ assemblesTo_of_ok hline
    · exact hline
  case comp =>
    obtain ⟨c, hstr, rfl⟩ := strengthOperand_listed h
    have hline := assemble_comp d s m str
    rw [hstr] at hline
    split_ifs at hline ⊢
    · exact assemblesTo_of_ok hline
    · exact hline
  case strength =>
    rw [assemble_comp, strengthOperand_out hn]
    split <;> rfl
  case clear =>
    have hline := assemble_clear d
    split_ifs at hline ⊢
    · exact assemblesTo_of_ok hline
    · exact hline

/-- Settles O60: the expansions hold refiner commands between two planes, which always complete. -/
theorem pseudoInstructionsExpandWithinConstraints : Obligations.PseudoInstructionsExpandWithinConstraints := by
  refine ⟨fun pd ps pt => ?box, fun pa pt => ?close, fun pd ps pt h => ?boxOut, fun n pa pt h => ?closeOut⟩
  case boxOut => exact ⟨threePlanes_out dil2 h, threePlanes_out ero2 h⟩
  case closeOut => exact ⟨twoPlanes_out closePlane h, twoPlanes_out (refinePlane n) h⟩
  case box =>
    rw [assemblePseudo_dil2, assemblePseudo_ero2]
    split_ifs with h
    · obtain ⟨hs, hd⟩ := h
      have hnew : pt ∉ [ps, pd] := by simp [hs, hd]
      exact ⟨throughScratch_ok hnew _, runnable_of_alwaysCompletes (dilation_alwaysCompletes hs hd),
        throughScratch_ok hnew _, runnable_of_alwaysCompletes (erosion_alwaysCompletes hs hd)⟩
    · have hused : pt ∈ [ps, pd] := by simpa [or_iff_not_imp_left] using h
      exact ⟨throughScratch_error hused _, throughScratch_error hused _⟩
  case close =>
    simp only [assemblePseudo_close, assemblePseudo_refine]
    split_ifs with h
    · refine ⟨closePlane_ok h, refinePlane_ok 0 h, fun n => ⟨_, refinePlane_ok n h, runnable_passes n h, ?_⟩⟩
      rw [refinePlane_ok (n + 1) h, List.replicate_succ, List.flatten_cons]
    · obtain rfl := not_not.mp h
      exact ⟨closePlane_error pa, fun n => refinePlane_error n pa⟩

/-- Settles O1: eleven closed words. -/
theorem sampleWordsDecode : Obligations.SampleWordsDecode := by
  unfold Obligations.SampleWordsDecode
  decide

/-- Settles O6: the write issues its word, whose validation asks of the state whether its geometry is valid. -/
theorem cmdWriteIssuesCommand : Obligations.CmdWriteIssuesCommand := by
  refine ⟨fun v s => ?write, fun v s t hw hh hmw hmh => validate_of_dimsOk (by simp only [dimsOk, hw, hh, hmw, hmh]) v⟩
  cases hb : s.busy with
  | true => exact hostAccess_cmdWrite_busy hb v
  | false =>
    rw [hostAccess_cmdWrite hb]
    rcases issue_cases v s with ⟨herr, hissue⟩ | ⟨e, herr, hv, hissue⟩ | ⟨herr, hv, hissue⟩
    · simp [hissue, herr, hb]
    · simp [hissue, herr, hv, reject]
    · simp [hissue, herr, hv, accept]

/-- Settles O9: both forms of the turn are `exec`, and a turn with BUSY = 0 is idle. -/
theorem stepExecutesPendingCommand : Obligations.StepExecutesPendingCommand := by
  intro s i rest hd hb
  refine ⟨fun hin => ?_, fun hin => ?_, ?_⟩
  · rw [step_of_engineHasTurn (.inr ⟨rest, hin⟩), hin]
    exact engineTurn_busy hb hd
  · rw [step, stepNext, hin]
    exact engineTurn_busy hb hd
  · exact engineTurn_idle (s := { s with busy := false, inputs := rest }) rfl

end Sys2Proof.Claims
end

section
/-! Proofs for 40_thresholder.md: a command that writes a plane completes with that plane written, and the pixel THRESH writes is lit
exactly where R, G or B is non-zero. -/

namespace Sys2Proof.Machine

open Sys2Proof.Claims

/-- A completed command that wrote plane `pd` with `result` has written `out`, where the two agree on the active region. -/
theorem planeWritten_complete {s : State} (hc : s.cfg.ok = true) (hs : validGeometry s) (pd : PlaneIdx)
    {result out : Nat → Nat → Bool} (hout : ∀ x y, x < s.width.toNat → y < s.height.toNat → result x y = out x y) :
    PlaneWritten s (complete { s with mem := writePlane s pd result }) pd out where
  registers := rfl
  pixels q x y hx hy := by
    have hbit := planeBit_writePlane hc (geometryFits_of_dimsOk (dimsOk_of_validGeometry hs)) pd result (q := q) hx hy
    refine hbit.trans ?_
    simp only [active_iff]
    split_ifs with hactive
    · exact hout x y hactive.2.1 hactive.2.2
    · rfl
  bytes _ ha := readByte_writePlane_outside s pd result ha

/-- The OR of the three bytes is 0 exactly where each of them is (40_thresholder.md R111). -/
theorem pixelLit_eq (s : State) (f : FrameIdx) (i : Nat) :
    pixelLit s f i = decide (frameVal s f i .r ≠ 0 ∨ frameVal s f i .g ≠ 0 ∨ frameVal s f i .b ≠ 0) := by
  have hdark : frameVal s f i .r ||| frameVal s f i .g ||| frameVal s f i .b = 0#8 ↔
      frameVal s f i .r = 0#8 ∧ frameVal s f i .g = 0#8 ∧ frameVal s f i .b = 0#8 := by
    rw [BitVec.or_eq_zero_iff, BitVec.or_eq_zero_iff, and_assoc]
  rw [pixelLit, Bool.eq_iff_iff, bne_iff_ne, decide_eq_true_iff, ← not_and_or, ← not_and_or]
  exact not_congr hdark

end Sys2Proof.Machine

namespace Sys2Proof.Claims

open Sys2Proof.Machine

/-- Settles O15: the geometry passes the check, no byte that THRESH reads is without a value, and the plane is written with the lit
pixels. -/
theorem threshMarksLitPixels : Obligations.ThreshMarksLitPixels := by
  intro s pd fs hc hs hset
  have hcheck : issueError s (.thresh pd fs) = none := dimError_eq_none (dimsOk_of_validGeometry hs)
  exact ⟨_, runCommand_completed hcheck (readingFrame_ok _ hset) s,
    planeWritten_complete hc hs pd fun x y _ _ => pixelLit_eq s fs (y * s.width.toNat + x)⟩

end Sys2Proof.Claims
end

section
/-! Proofs for 41_temporal_differ.md: the guarded reads at an active pixel in the terms of the statements, and the completion of any
command whose result is a written plane. -/

namespace Sys2Proof.Machine

open Sys2Proof.Claims

/-- At a pixel of the active region the guarded read is the stored bit (00_scope.md R12). -/
theorem guarded_eq_planeBit {s : State} {x y : Nat} (hx : x < s.width.toNat) (hy : y < s.height.toNat) (p : PlaneIdx) :
    guarded s p x y = planeBit s p x y := by
  rw [guarded_here, (active_iff s x y).mpr ⟨hx, hy⟩, Bool.true_and]

/-- The row above an active pixel is in the active region, or it is row -1 and reads 0. -/
theorem guarded_eq_above {s : State} {x y : Nat} (hx : x < s.width.toNat) (hy : y < s.height.toNat) (p : PlaneIdx) :
    guarded s p x ((y : Int) - 1) = above s p x y := by
  have hactive : active s x (y - 1) = true := (active_iff s x (y - 1)).mpr ⟨hx, (y.sub_le 1).trans_lt hy⟩
  simp only [guarded_above, hactive, Bool.true_and, above, Nat.pos_iff_ne_zero]

theorem rowDiff_eq {s : State} {x y : Nat} (hx : x < s.width.toNat) (hy : y < s.height.toNat) (p : PlaneIdx) :
    rowDiff s p x y = (planeBit s p x y ^^ above s p x y) := by
  rw [rowDiff, guarded_eq_planeBit hx hy, guarded_eq_above hx hy]

/-- Under a valid geometry a well-formed command whose result is plane `pd` written completes, with `pd` written. -/
theorem exec_planeWritten {s : State} {i : Instr} {pd : PlaneIdx} {result out : Nat → Nat → Bool} (hc : s.cfg.ok = true)
    (hs : validGeometry s) (hi : i.wellFormed = true) (hresult : commandResult s i = .ok (writePlane s pd result))
    (hout : ∀ x y, x < s.width.toNat → y < s.height.toNat → result x y = out x y) :
    ∃ t, exec i s = .next t ∧ PlaneWritten s t pd out :=
  ⟨_, (exec_eq_runCommand i s).trans (runCommand_completed (issueError_eq_none_of_wellFormed hs hi) hresult s),
    planeWritten_complete hc hs pd hout⟩

end Sys2Proof.Machine

namespace Sys2Proof.Claims

open Sys2Proof.Machine

/-- Settles O17: between two planes TDIFF passes its checks, and what it writes at an active pixel is that pixel xor the one above. -/
theorem tdiffXorsWithRowAbove : Obligations.TdiffXorsWithRowAbove := by
  intro s pd ps hc hs hne
  have hformed : (Instr.tdiff pd ps).wellFormed = true := (wellFormed_planes_iff (by simp)).mpr hne.symm
  exact exec_planeWritten hc hs hformed rfl fun _ _ hx hy => rowDiff_eq hx hy ps

end Sys2Proof.Claims
end

section
/-! Proofs for 42_morphology.md, section 2: the four refiner commands by pixel. The guarded neighbours of an active pixel are the
neighbours the statements name, so that each command completes with its rule written. -/

namespace Sys2Proof.Machine

open Sys2Proof.Claims

/-! ### The neighbours of an active pixel in the terms of the statements -/

theorem guarded_eq_leftOf {s : State} {x y : Nat} (hx : x < s.width.toNat) (hy : y < s.height.toNat) (p : PlaneIdx) :
    guarded s p ((x : Int) - 1) y = leftOf s p x y := by
  have hactive : active s (x - 1) y = true := (active_iff s (x - 1) y).mpr ⟨(x.sub_le 1).trans_lt hx, hy⟩
  simp only [guarded_left, hactive, Bool.true_and, leftOf, Nat.pos_iff_ne_zero]

theorem guarded_eq_rightOf {s : State} {y : Nat} (hy : y < s.height.toNat) (p : PlaneIdx) (x : Nat) :
    guarded s p ((x : Int) + 1) y = rightOf s p x y := by
  simp only [guarded_right, active, rightOf, hy, decide_true, Bool.and_true]

theorem guarded_eq_below {s : State} {x : Nat} (hx : x < s.width.toNat) (p : PlaneIdx) (y : Nat) :
    guarded s p x ((y : Int) + 1) = below s p x y := by
  simp only [guarded_below, active, below, hx, decide_true, Bool.true_and]

theorem dilateRow_eq {s : State} {x y : Nat} (hx : x < s.width.toNat) (hy : y < s.height.toNat) (p : PlaneIdx) :
    dilateRow s p x y = (leftOf s p x y || planeBit s p x y || rightOf s p x y) := by
  rw [dilateRow, guarded_eq_leftOf hx hy, guarded_eq_planeBit hx hy, guarded_eq_rightOf hy]

theorem dilateCol_eq {s : State} {x y : Nat} (hx : x < s.width.toNat) (hy : y < s.height.toNat) (p : PlaneIdx) :
    dilateCol s p x y = (above s p x y || planeBit s p x y || below s p x y) := by
  rw [dilateCol, guarded_eq_above hx hy, guarded_eq_planeBit hx hy, guarded_eq_below hx]

theorem erodeRow_eq {s : State} {x y : Nat} (hx : x < s.width.toNat) (hy : y < s.height.toNat) (p : PlaneIdx) :
    erodeRow s p x y = (leftOf s p x y && planeBit s p x y && rightOf s p x y) := by
  rw [erodeRow, guarded_eq_leftOf hx hy, guarded_eq_planeBit hx hy, guarded_eq_rightOf hy]

theorem erodeCol_eq {s : State} {x y : Nat} (hx : x < s.width.toNat) (hy : y < s.height.toNat) (p : PlaneIdx) :
    erodeCol s p x y = (above s p x y && planeBit s p x y && below s p x y) := by
  rw [erodeCol, guarded_eq_above hx hy, guarded_eq_planeBit hx hy, guarded_eq_below hx]

/-! ### One command -/

/-- OP of a command's word (30_encoding.md R91, R93). -/
theorem opcode_encode (i : Instr) : field (encode i) 0 4 = (wordFields i).headD 0 := by
  rw [← fieldsOf_encode]
  rfl

/-- What a written plane reads as at an active pixel. -/
theorem planeBit_of_planeWritten {s t : State} {pd : PlaneIdx} {out : Nat → Nat → Bool} (h : PlaneWritten s t pd out)
    (hs : validGeometry s) {x y : Nat} (hx : x < s.width.toNat) (hy : y < s.height.toNat) : planeBit t pd x y = out x y := by
  obtain ⟨_, hwidth, _, hheight⟩ := hs
  rw [h.pixels pd x y (hx.trans_le hwidth) (hy.trans_le hheight), if_pos ⟨rfl, hx, hy⟩]

/-- A refiner command between two planes under a valid geometry completes with its pixel rule written. -/
theorem exec_refiner {s : State} {i : Instr} {pd ps : PlaneIdx} {result out : Nat → Nat → Bool} (hc : s.cfg.ok = true)
    (hs : validGeometry s) (hne : ps ≠ pd) (hi : i ∈ [Instr.dilh pd ps, .dilv pd ps, .eroh pd ps, .erov pd ps])
    (hresult : commandResult s i = .ok (writePlane s pd result))
    (hout : ∀ x y, x < s.width.toNat → y < s.height.toNat → result x y = out x y) :
    ∃ t, exec i s = .next t ∧ PlaneWritten s t pd out :=
  exec_planeWritten hc hs (refiner_alwaysCompletes hne.symm i hi).wellFormed hresult hout

end Sys2Proof.Machine

namespace Sys2Proof.Claims

open Sys2Proof.Machine

/-- Settles O18: DILH completes, and `dilateRow` at an active pixel is the OR the statement writes. -/
theorem dilhOrsRowNeighbours : Obligations.DilhOrsRowNeighbours := fun pd ps =>
  ⟨opcode_encode (.dilh pd ps), fun _ hc hs hne =>
    exec_refiner hc hs hne (by simp) rfl fun _ _ hx hy => dilateRow_eq hx hy ps⟩

/-- Settles O19: as DILH, with `dilateCol`. -/
theorem dilvOrsColumnNeighbours : Obligations.DilvOrsColumnNeighbours := fun pd ps =>
  ⟨opcode_encode (.dilv pd ps), fun _ hc hs hne =>
    exec_refiner hc hs hne (by simp) rfl fun _ _ hx hy => dilateCol_eq hx hy ps⟩

/-- Settles O20: as DILH, with `erodeRow`; the first and the last column have a neighbour that is 0. -/
theorem erohAndsRowNeighbours : Obligations.ErohAndsRowNeighbours := by
  refine fun pd ps => ⟨opcode_encode (.eroh pd ps), fun s hc hs hne => ?_⟩
  obtain ⟨t, hexec, hwritten⟩ := exec_refiner hc hs hne (i := .eroh pd ps) (by simp) rfl fun _ _ hx hy => erodeRow_eq hx hy ps
  refine ⟨t, hexec, hwritten, fun y hy => ⟨?first, ?last⟩⟩
  case first => rw [planeBit_of_planeWritten hwritten hs hs.1 hy]; simp [leftOf]
  case last => rw [planeBit_of_planeWritten hwritten hs (Nat.sub_one_lt_of_lt hs.1) hy]; simp [rightOf, Nat.sub_add_cancel hs.1]

/-- Settles O21: as DILH, with `erodeCol`; the first and the last row have a neighbour that is 0. -/
theorem erovAndsColumnNeighbours : Obligations.ErovAndsColumnNeighbours := by
  refine fun pd ps => ⟨opcode_encode (.erov pd ps), fun s hc hs hne => ?_⟩
  obtain ⟨t, hexec, hwritten⟩ := exec_refiner hc hs hne (i := .erov pd ps) (by simp) rfl fun _ _ hx hy => erodeCol_eq hx hy ps
  have ⟨_, _, hheight, _⟩ := hs
  refine ⟨t, hexec, hwritten, fun x hx => ⟨?first, ?last⟩⟩
  case first => rw [planeBit_of_planeWritten hwritten hs hx hheight]; simp [above]
  case last => rw [planeBit_of_planeWritten hwritten hs hx (Nat.sub_one_lt_of_lt hheight)]; simp [below, Nat.sub_add_cancel hheight]

end Sys2Proof.Claims
end

section
/-! Proofs for 42_morphology.md, section 3: the word-level form (R138, R139). The index arithmetic of the packed layout is done
once: every physical word, the padding words too, holds guarded pixels, so the carries across word and row ends are guarded reads. -/

namespace Sys2Proof.Machine

/-! ### The packed words hold guarded pixels -/

theorem guarded_of_width_le {s : State} {x : Nat} (hx : s.width.toNat ≤ x) (p : PlaneIdx) (y : Int) :
    guarded s p x y = false := by
  have hout : ¬ x < s.width.toNat := by omega
  simp [guarded, active, hout]

/-- The interior words cover the row, and no whole word is past its end (10_state.md R38). -/
theorem interiorWords_bounds {W : Nat} (hW : 0 < W) (s : State) :
    s.width.toNat ≤ W * interiorWords W s ∧ W * interiorWords W s ≤ s.width.toNat + W - 1 := by
  have hlt := Nat.lt_mul_div_succ (s.width.toNat + W - 1) hW
  rw [Nat.mul_succ] at hlt
  exact ⟨by unfold interiorWords; omega, Nat.mul_div_le _ W⟩

/-- Bit `j` of physical word (r, k) is the guarded pixel it stands for; in a padding word that pixel is past the row's end. -/
theorem physicalWord_getLsbD {W : Nat} (hW : 0 < W) (s : State) (p : PlaneIdx) (r k : Nat) {j : Nat} (hj : j < W) :
    (physicalWord W s p r k).getLsbD j = guarded s p ((W * k + j : Nat) : Int) ((r : Int) - 1) := by
  rw [physicalWord, BitVec.getLsbD_ofFnLE, dif_pos hj]
  split_ifs with hk
  · rfl
  · have hpast : W * interiorWords W s ≤ W * k := Nat.mul_le_mul_left W (not_lt.mp hk)
    obtain ⟨hrow, _⟩ := interiorWords_bounds hW s
    exact (guarded_of_width_le (by omega) p _).symm

/-- Bit `j` of the word at index r*pitch + k. -/
theorem packedWord_getLsbD {W : Nat} (hW : 0 < W) (s : State) (p : PlaneIdx) (r : Nat) {i k j : Nat} (hk : k < pitch W s)
    (hi : i = r * pitch W s + k) (hj : j < W) :
    (packedWord W s p i).getLsbD j = guarded s p ((W * k + j : Nat) : Int) ((r : Int) - 1) := by
  have hword : packedWord W s p i = physicalWord W s p r k := by
    rw [packedWord, hi, Nat.mul_comm, Nat.mul_add_div (Nat.zero_lt_of_lt hk), Nat.mul_add_mod, Nat.div_eq_of_lt hk,
      Nat.mod_eq_of_lt hk, Nat.add_zero]
  rw [hword, physicalWord_getLsbD hW s p r k hj]

theorem hereWord_getLsbD {W : Nat} (hW : 0 < W) {s : State} (p : PlaneIdx) (y : Nat) {k j : Nat} (hk : k < pitch W s)
    (hj : j < W) : (packedWord W s p (wordIndex W s y k)).getLsbD j = guarded s p ((W * k + j : Nat) : Int) y := by
  rw [wordIndex, packedWord_getLsbD hW s p (y + 1) hk rfl hj, Int.natCast_succ, Int.add_sub_cancel]

theorem aboveWord_getLsbD {W : Nat} (hW : 0 < W) {s : State} (p : PlaneIdx) (y : Nat) {k j : Nat} (hk : k < pitch W s)
    (hj : j < W) :
    (packedWord W s p (wordIndex W s y k - pitch W s)).getLsbD j = guarded s p ((W * k + j : Nat) : Int) ((y : Int) - 1) := by
  refine packedWord_getLsbD hW s p y hk ?_ hj
  rw [wordIndex, Nat.add_mul]
  omega

theorem belowWord_getLsbD {W : Nat} (hW : 0 < W) {s : State} (p : PlaneIdx) (y : Nat) {k j : Nat} (hk : k < pitch W s)
    (hj : j < W) :
    (packedWord W s p (wordIndex W s y k + pitch W s)).getLsbD j = guarded s p ((W * k + j : Nat) : Int) ((y : Int) + 1) := by
  have hindex : wordIndex W s y k + pitch W s = (y + 2) * pitch W s + k := by
    rw [wordIndex, Nat.add_mul, Nat.add_mul]
    omega
  rw [packedWord_getLsbD hW s p (y + 2) hk hindex hj]
  congr 1
  omega

/-! ### The two carries -/

/-- The carry-in from the left: the last bit of the previous word, which for k = 0 is the padding word of the row above. -/
theorem carryLeft_eq {W : Nat} (hW : 0 < W) {s : State} (p : PlaneIdx) (y : Nat) {k : Nat} (hk : k < pitch W s) :
    (packedWord W s p (wordIndex W s y k - 1)).getLsbD (W - 1) = guarded s p (((W * k : Nat) : Int) - 1) y := by
  have hlast : W - 1 < W := Nat.sub_one_lt_of_lt hW
  cases k with
  | zero =>
    have hpadding : interiorWords W s < pitch W s := Nat.lt_succ_self _
    have hindex : wordIndex W s y 0 - 1 = y * pitch W s + interiorWords W s := by
      rw [wordIndex, Nat.add_mul]
      unfold pitch
      omega
    obtain ⟨hrow, _⟩ := interiorWords_bounds hW s
    rw [packedWord_getLsbD hW s p y hpadding hindex hlast, guarded_of_width_le (by omega)]
    exact (guarded_left s p 0 y).symm
  | succ k =>
    have hindex : wordIndex W s y (k + 1) - 1 = wordIndex W s y k := rfl
    rw [hindex, hereWord_getLsbD hW p y (Nat.lt_of_succ_lt hk) hlast, Nat.mul_succ]
    congr 1
    omega

/-- The carry-in from the right: the first bit of the next word, which for the last word is the row's own padding word. -/
theorem carryRight_eq {W : Nat} (hW : 0 < W) {s : State} (p : PlaneIdx) (y : Nat) {k : Nat} (hk : k < interiorWords W s) :
    (packedWord W s p (wordIndex W s y k + 1)).getLsbD 0 = guarded s p ((W * (k + 1) : Nat) : Int) y := by
  have hindex : wordIndex W s y k + 1 = wordIndex W s y (k + 1) := rfl
  rw [hindex, hereWord_getLsbD hW p y (Nat.succ_lt_succ hk) hW, Nat.add_zero]

/-- Bit `j` of L is the pixel to the left (R139). -/
theorem leftWord_getLsbD {W : Nat} (hW : 0 < W) {s : State} (p : PlaneIdx) (y : Nat) {k j : Nat} (hk : k < pitch W s)
    (hj : j < W) : (leftWord W s p y k).getLsbD j = guarded s p (((W * k + j : Nat) : Int) - 1) y := by
  simp only [leftWord, BitVec.getLsbD_or, BitVec.getLsbD_shiftLeft, BitVec.getLsbD_ushiftRight]
  cases j with
  | zero => simpa using carryLeft_eq hW p y hk
  | succ j =>
    have hpixel : ((W * k + (j + 1) : Nat) : Int) - 1 = ((W * k + j : Nat) : Int) := by omega
    have hnocarry : (packedWord W s p (wordIndex W s y k - 1)).getLsbD (W - 1 + (j + 1)) = false :=
      BitVec.getLsbD_of_ge _ _ (by omega)
    rw [hpixel, ← hereWord_getLsbD hW p y hk (Nat.lt_of_succ_lt hj), hnocarry]
    simp [hj]

/-- Bit `j` of R is the pixel to the right (R139). -/
theorem rightWord_getLsbD {W : Nat} (hW : 0 < W) {s : State} (p : PlaneIdx) (y : Nat) {k j : Nat} (hk : k < interiorWords W s)
    (hj : j < W) : (rightWord W s p y k).getLsbD j = guarded s p (((W * k + j : Nat) : Int) + 1) y := by
  have hpitch : k < pitch W s := Nat.lt_succ_of_lt hk
  simp only [rightWord, BitVec.getLsbD_or, BitVec.getLsbD_shiftLeft, BitVec.getLsbD_ushiftRight, BitVec.getLsbD_and,
    BitVec.getLsbD_one]
  by_cases hlast : j = W - 1
  · have hpixel : ((W * k + j : Nat) : Int) + 1 = ((W * (k + 1) : Nat) : Int) := by
      rw [Nat.mul_succ]
      omega
    have hnone : (packedWord W s p (wordIndex W s y k)).getLsbD (1 + j) = false := BitVec.getLsbD_of_ge _ _ (by omega)
    rw [hpixel, ← carryRight_eq hW p y hk, hnone]
    simp [hlast, hW]
  · have hpixel : ((W * k + j : Nat) : Int) + 1 = ((W * k + (1 + j) : Nat) : Int) := by omega
    have hnocarry : j < W - 1 := by omega
    rw [hpixel, ← hereWord_getLsbD hW p y hpitch (by omega : 1 + j < W)]
    simp [hnocarry]

/-! ### Padding -/

/-- Every interior word but the last lies inside the row, and the last one ends it. -/
theorem interior_word_cases {W : Nat} (hW : 0 < W) {s : State} {k : Nat} (hk : k < interiorWords W s) :
    (k + 1 ≠ interiorWords W s ∧ W * k + W ≤ s.width.toNat) ∨
      (k + 1 = interiorWords W s ∧ ∃ d, 0 < d ∧ d ≤ W ∧ s.width.toNat = W * k + d) := by
  obtain ⟨hlo, hhi⟩ := interiorWords_bounds hW s
  by_cases hlast : k + 1 = interiorWords W s
  · rw [← hlast, Nat.mul_succ] at hlo hhi
    exact .inr ⟨hlast, s.width.toNat - W * k, by omega, by omega, by omega⟩
  · have hle : W * (k + 2) ≤ W * interiorWords W s := Nat.mul_le_mul_left W (by omega)
    rw [Nat.mul_add] at hle
    exact .inl ⟨hlast, by omega⟩

/-- The mask of R138 clears the bits past the row's end and no other (R137). -/
theorem maskLast_getLsbD {W : Nat} (hW : 0 < W) {s : State} {k j : Nat} (hk : k < interiorWords W s) (hj : j < W)
    (v : BitVec W) : (maskLast W s k v).getLsbD j = (decide (W * k + j < s.width.toNat) && v.getLsbD j) := by
  rcases interior_word_cases hW hk with ⟨hlast, hrow⟩ | ⟨hlast, d, hd, hdW, hrow⟩
  · have hinside : W * k + j < s.width.toNat := by omega
    simp [maskLast, hlast, hinside]
  · have hmod : s.width.toNat % W = d % W := by rw [hrow, Nat.mul_add_mod]
    rcases hdW.lt_or_eq with hpart | rfl
    · rw [Nat.mod_eq_of_lt hpart] at hmod
      rw [maskLast, hmod, if_pos ⟨hlast, hd.ne'⟩, BitVec.getLsbD_and, BitVec.getLsbD_ofNat, Nat.testBit_two_pow_sub_one,
        Bool.and_comm]
      simp [hj, hrow]
    · simp [maskLast, hrow, hj]

/-- A guarded pixel is 0 past the row's end. -/
theorem guarded_eq_inside (s : State) (p : PlaneIdx) (x : Nat) (y : Int) :
    guarded s p x y = (decide (x < s.width.toNat) && guarded s p x y) := by
  by_cases hx : x < s.width.toNat
  · simp [hx]
  · simp [hx, guarded_of_width_le (not_lt.mp hx)]

end Sys2Proof.Machine

namespace Sys2Proof.Claims

open Sys2Proof.Machine

/-- Settles O31: each word is taken apart into guarded pixels; the vertical words need no mask, because a guarded pixel past the row's
end is 0 already. -/
theorem wordFormsComputePixelRules : Obligations.WordFormsComputePixelRules := by
  intro w s p y k j _ hk hj
  have hW : 0 < w.bits := Nat.zero_lt_of_lt hj
  have hpitch : k < pitch w.bits s := Nat.lt_succ_of_lt hk
  have hleft := leftWord_getLsbD hW p y hpitch hj
  have hright := rightWord_getLsbD hW p y hk hj
  have hhere := hereWord_getLsbD hW p y hpitch hj
  have habove := aboveWord_getLsbD hW p y hpitch hj
  have hbelow := belowWord_getLsbD hW p y hpitch hj
  have hinside := guarded_eq_inside s p (w.bits * k + j)
  refine ⟨hleft, hright, ?dilh, ?eroh, ?dilv, ?erov, ?tdiff⟩
  case dilh => rw [dilhWord, maskLast_getLsbD hW hk hj, BitVec.getLsbD_or, BitVec.getLsbD_or, hleft, hhere, hright, dilateRow]
  case eroh => rw [erohWord, maskLast_getLsbD hW hk hj, BitVec.getLsbD_and, BitVec.getLsbD_and, hleft, hhere, hright, erodeRow]
  case dilv =>
    rw [dilvWord, BitVec.getLsbD_or, BitVec.getLsbD_or, habove, hhere, hbelow, dilateCol, Bool.and_or_distrib_left,
      Bool.and_or_distrib_left, ← hinside, ← hinside, ← hinside]
  case erov =>
    rw [erovWord, BitVec.getLsbD_and, BitVec.getLsbD_and, habove, hhere, hbelow, erodeCol, ← Bool.and_assoc, ← Bool.and_assoc,
      ← hinside]
  case tdiff =>
    rw [tdiffWord, BitVec.getLsbD_xor, habove, hhere, rowDiff, Bool.and_xor_distrib_left, ← hinside, ← hinside]

end Sys2Proof.Claims
end

section
/-! Proofs for 42_morphology.md, section 4: the laws of the refiner commands. A plane is seen as an image over all integer points, 0
outside the active region, and a command as a dilation or an erosion along one axis followed by a cut to the region. Along one axis the
two are adjoint, and R140 to R142 follow from the adjunction and from what the cut loses. -/

namespace Sys2Proof.Machine

open Sys2Proof.Claims

/-! ### Images -/

/-- A bit at each integer point; images are ordered bit by bit. -/
abbrev Image := Int → Int → Bool

/-- The OR of a point and its two neighbours at distance (dx, dy). -/
def dilate (dx dy : Int) (f : Image) : Image := fun x y => f (x - dx) (y - dy) || f x y || f (x + dx) (y + dy)

theorem dilate_apply (dx dy : Int) (f : Image) (x y : Int) :
    dilate dx dy f x y = (f (x - dx) (y - dy) || f x y || f (x + dx) (y + dy)) := rfl

/-- The AND of a point and its two neighbours at distance (dx, dy). -/
def erode (dx dy : Int) (f : Image) : Image := fun x y => f (x - dx) (y - dy) && f x y && f (x + dx) (y + dy)

theorem image_le_iff {f g : Image} : f ≤ g ↔ ∀ x y, f x y = true → g x y = true :=
  forall₂_congr fun _ _ => Bool.le_iff_imp

/-- A dilation lies below an image exactly where the dilated image lies below its erosion. -/
theorem dilate_erode_gc (dx dy : Int) : GaloisConnection (dilate dx dy) (erode dx dy) := by
  intro f g
  simp only [image_le_iff, dilate, erode, Bool.or_eq_true, Bool.and_eq_true]
  constructor
  · refine fun h x y hf => ⟨⟨h _ _ (.inr ?_), h x y (.inl (.inr hf))⟩, h _ _ (.inl (.inl ?_))⟩
    · simpa only [sub_add_cancel] using hf
    · simpa only [add_sub_cancel_right] using hf
  · rintro h x y ((hf | hf) | hf)
    · simpa only [sub_add_cancel] using (h _ _ hf).2
    · exact (h x y hf).1.2
    · simpa only [add_sub_cancel_right] using (h _ _ hf).1.1

theorem le_dilate (dx dy : Int) (f : Image) : f ≤ dilate dx dy f :=
  image_le_iff.mpr fun x y hf => by simp [dilate, hf]

theorem erode_le (dx dy : Int) (f : Image) : erode dx dy f ≤ f := by
  refine image_le_iff.mpr fun x y hf => ?_
  simp only [erode, Bool.and_eq_true] at hf
  exact hf.1.2

theorem erode_comm (dx dy dx' dy' : Int) (f : Image) : erode dx dy (erode dx' dy' f) = erode dx' dy' (erode dx dy f) := by
  funext x y
  simp only [erode, sub_eq_add_neg, add_right_comm, Bool.and_assoc, Bool.and_comm, Bool.and_left_comm]

theorem dilate_comm (dx dy dx' dy' : Int) (f : Image) : dilate dx dy (dilate dx' dy' f) = dilate dx' dy' (dilate dx dy f) :=
  (dilate_erode_gc dx dy).l_comm_of_u_comm (dilate_erode_gc dx dy) (dilate_erode_gc dx' dy') (dilate_erode_gc dx' dy')
    (erode_comm dx' dy' dx dy)

/-! ### The active region, and a plane as an image -/

/-- The active region (00_scope.md R10). -/
def region (s : State) : Image := fun x y =>
  decide (0 ≤ x ∧ x < s.width.toNat ∧ 0 ≤ y ∧ y < s.height.toNat)

theorem region_iff (s : State) (x y : Int) :
    region s x y = true ↔ 0 ≤ x ∧ x < s.width.toNat ∧ 0 ≤ y ∧ y < s.height.toNat := decide_eq_true_iff

theorem guarded_le_region (s : State) (p : PlaneIdx) : guarded s p ≤ region s := by
  refine image_le_iff.mpr fun x y h => (region_iff s x y).mpr ?_
  unfold guarded at h
  split_ifs at h with hpos
  simp only [Bool.and_eq_true, active_iff] at h
  omega

/-- A plane whose active pixels are `out`, as an image. -/
theorem guarded_eq_region_inf {t : State} {p : PlaneIdx} {f : Image}
    (h : ∀ x y : Nat, x < t.width.toNat → y < t.height.toNat → planeBit t p x y = f x y) : guarded t p = region t ⊓ f := by
  funext x y
  by_cases hin : region t x y = true
  · obtain ⟨hx, hxw, hy, hyh⟩ := (region_iff t x y).mp hin
    lift x to Nat using hx
    lift y to Nat using hy
    rw [guarded_eq_planeBit (by omega) (by omega), h x y (by omega) (by omega)]
    simp [hin]
  · have hout : guarded t p x y = false := by
      by_contra hset
      exact hin (image_le_iff.mp (guarded_le_region t p) x y (by simpa using hset))
    simp [hin, hout]

theorem region_natCast {s : State} {x y : Nat} (hx : x < s.width.toNat) (hy : y < s.height.toNat) :
    region s x y = true := (region_iff s x y).mpr (by omega)

/-- A written image is the stored bit at an active pixel. -/
theorem planeBit_eq_of_guarded {s t : State} {p : PlaneIdx} {f : Image} (hst : SameGeometry s t)
    (h : guarded t p = region s ⊓ f) {x y : Nat} (hx : x < s.width.toNat) (hy : y < s.height.toNat) :
    planeBit t p x y = f x y := by
  rw [← guarded_eq_planeBit (hst.width ▸ hx) (hst.height ▸ hy), h]
  simp [region_natCast hx hy]

/-! ### One pass, and a sequence of passes -/

/-- The command between two planes writes the image `F` makes of the source. -/
structure Pass (op : PlaneIdx → PlaneIdx → Instr) (F : Image → Image) : Prop where
  wellFormed : ∀ {pd ps}, pd ≠ ps → (op pd ps).wellFormed = true
  result : ∀ s pd ps, commandResult s (op pd ps) = .ok (writePlane s pd fun x y => F (guarded s ps) x y)

theorem dilh_pass : Pass .dilh (dilate 1 0) where
  wellFormed h := (wellFormed_planes_iff (by simp)).mpr h
  result s pd ps := by simp only [dilate, sub_zero, add_zero]; rfl

theorem dilv_pass : Pass .dilv (dilate 0 1) where
  wellFormed h := (wellFormed_planes_iff (by simp)).mpr h
  result s pd ps := by simp only [dilate, sub_zero, add_zero]; rfl

theorem eroh_pass : Pass .eroh (erode 1 0) where
  wellFormed h := (wellFormed_planes_iff (by simp)).mpr h
  result s pd ps := by simp only [erode, sub_zero, add_zero]; rfl

theorem erov_pass : Pass .erov (erode 0 1) where
  wellFormed h := (wellFormed_planes_iff (by simp)).mpr h
  result s pd ps := by simp only [erode, sub_zero, add_zero]; rfl

theorem dilation_pass {op : PlaneIdx → PlaneIdx → Instr} (h : op ∈ [Instr.dilh, .dilv]) : ∃ dx dy, Pass op (dilate dx dy) := by
  simp only [List.mem_cons, List.not_mem_nil, or_false] at h
  rcases h with rfl | rfl
  · exact ⟨1, 0, dilh_pass⟩
  · exact ⟨0, 1, dilv_pass⟩

theorem erosion_pass {op : PlaneIdx → PlaneIdx → Instr} (h : op ∈ [Instr.eroh, .erov]) : ∃ dx dy, Pass op (erode dx dy) := by
  simp only [List.mem_cons, List.not_mem_nil, or_false] at h
  rcases h with rfl | rfl
  · exact ⟨1, 0, eroh_pass⟩
  · exact ⟨0, 1, erov_pass⟩

/-- All four are monotone, as the two sides of an adjunction are (42_morphology.md R140). -/
theorem refiner_pass {op : PlaneIdx → PlaneIdx → Instr} (h : op ∈ [Instr.dilh, .dilv, .eroh, .erov]) :
    ∃ F, Monotone F ∧ Pass op F := by
  rcases List.mem_append.mp (show op ∈ [Instr.dilh, .dilv] ++ [Instr.eroh, .erov] from h) with h | h
  · obtain ⟨dx, dy, hpass⟩ := dilation_pass h
    exact ⟨_, (dilate_erode_gc dx dy).monotone_l, hpass⟩
  · obtain ⟨dx, dy, hpass⟩ := erosion_pass h
    exact ⟨_, (dilate_erode_gc dx dy).monotone_u, hpass⟩

theorem sameGeometry_of_planeWritten {s t : State} {pd : PlaneIdx} {out : Nat → Nat → Bool} (h : PlaneWritten s t pd out) :
    SameGeometry s t := by
  rw [h.registers]
  exact ⟨rfl, rfl, rfl⟩

theorem SameGeometry.region {s t : State} (h : SameGeometry s t) : region t = region s := by
  funext x y
  simp only [Machine.region, h.width, h.height]

theorem SameGeometry.validGeometry {s t : State} (h : SameGeometry s t) (hs : validGeometry s) : validGeometry t := by
  simpa only [Claims.validGeometry, h.cfg, h.width, h.height] using hs

/-- A pass completes with its image, cut to the active region, in the destination. -/
theorem Pass.exec {op : PlaneIdx → PlaneIdx → Instr} {F : Image → Image} (h : Pass op F) {s : State} (hc : s.cfg.ok = true)
    (hs : validGeometry s) {pd ps : PlaneIdx} (hne : pd ≠ ps) :
    ∃ t, exec (op pd ps) s = .next t ∧ SameGeometry s t ∧ guarded t pd = region s ⊓ F (guarded s ps) := by
  obtain ⟨t, hexec, hwritten⟩ := exec_planeWritten hc hs (h.wellFormed hne) (h.result s pd ps) fun _ _ _ _ => rfl
  have hst := sameGeometry_of_planeWritten hwritten
  refine ⟨t, hexec, hst, hst.region ▸ guarded_eq_region_inf fun x y hx hy => ?_⟩
  exact planeBit_of_planeWritten hwritten hs (hst.width ▸ hx) (hst.height ▸ hy)

/-- The commands run from `s` to the end, keep the build and the geometry, and leave the image `f`, cut to the active region, in `p`. -/
def LeavesImage (s : State) (is : List Instr) (p : PlaneIdx) (f : Image) : Prop :=
  ∃ t, runs s is t ∧ SameGeometry s t ∧ guarded t p = region s ⊓ f

theorem runs_append {s t u : State} {is js : List Instr} (hs : runs s is t) (ht : runs t js u) : runs s (is ++ js) u := by
  induction is generalizing s with
  | nil => exact (show t = s from hs) ▸ ht
  | cons i is ih =>
    obtain ⟨v, hexec, hrest⟩ := hs
    exact ⟨v, hexec, ih hrest⟩

theorem Pass.leavesImage {op : PlaneIdx → PlaneIdx → Instr} {F : Image → Image} (h : Pass op F) {s : State}
    (hc : s.cfg.ok = true) (hs : validGeometry s) {pd ps : PlaneIdx} (hne : pd ≠ ps) :
    LeavesImage s [op pd ps] pd (F (guarded s ps)) := by
  obtain ⟨t, hexec, hst, himage⟩ := h.exec hc hs hne
  exact ⟨t, ⟨t, hexec, rfl⟩, hst, himage⟩

/-- One more pass, from the plane the commands before it left. -/
theorem LeavesImage.pass {s : State} {is : List Instr} {p : PlaneIdx} {f : Image} (hleaves : LeavesImage s is p f)
    {op : PlaneIdx → PlaneIdx → Instr} {F : Image → Image} (h : Pass op F) (hc : s.cfg.ok = true) (hs : validGeometry s)
    {pd : PlaneIdx} (hne : pd ≠ p) : LeavesImage s (is ++ [op pd p]) pd (F (region s ⊓ f)) := by
  obtain ⟨t, hruns, hst, himage⟩ := hleaves
  obtain ⟨u, hexec, htu, himage'⟩ := h.exec (hst.cfg ▸ hc) (hst.validGeometry hs) hne
  refine ⟨u, runs_append hruns ⟨u, hexec, rfl⟩, ?_, ?_⟩
  · exact ⟨htu.cfg.trans hst.cfg, htu.width.trans hst.width, htu.height.trans hst.height⟩
  · rw [himage', hst.region, himage]

theorem LeavesImage.leaves {s : State} {is : List Instr} {p : PlaneIdx} {f : Image} (h : LeavesImage s is p f)
    {out : Nat → Nat → Bool} (hout : ∀ x y : Nat, x < s.width.toNat → y < s.height.toNat → f x y = out x y) :
    leaves s is p out := by
  obtain ⟨t, hruns, hst, himage⟩ := h
  exact ⟨t, hruns, hst.width, hst.height, hst.cfg, fun x y hx hy =>
    (planeBit_eq_of_guarded hst himage hx hy).trans (hout x y hx hy)⟩

/-! ### Two passes are a box operator (R141) -/

theorem boxDilate_eq (s : State) (p : PlaneIdx) (x y : Nat) :
    boxDilate s p x y = dilate 1 0 (dilate 0 1 (guarded s p)) x y := by
  simp [boxDilate, dilate, sub_eq_add_neg, Bool.or_assoc]

theorem boxErode_eq (s : State) (p : PlaneIdx) (x y : Nat) :
    boxErode s p x y = erode 1 0 (erode 0 1 (guarded s p)) x y := by
  simp [boxErode, erode, sub_eq_add_neg, Bool.and_assoc]

/-- The cut loses nothing of a dilated image where the dilated region does not leave the region. -/
theorem cut_dilate {s : State} {f : Image} (hf : f ≤ region s) {dx dy x y : Int}
    (hin : dilate dx dy (region s) x y = true → region s x y = true) :
    (region s ⊓ dilate dx dy f) x y = dilate dx dy f x y :=
  inf_eq_right.mpr (((dilate_erode_gc dx dy).monotone_l hf x y).trans (Bool.le_iff_imp.mpr hin))

/-- Within the region's columns a row dilation cut before the column dilation loses nothing. -/
theorem dilateCol_cut_dilateRow {s : State} {f : Image} (hf : f ≤ region s) {x : Int} (hx : 0 ≤ x ∧ x < s.width.toNat) (y : Int) :
    dilate 0 1 (region s ⊓ dilate 1 0 f) x y = dilate 0 1 (dilate 1 0 f) x y := by
  have hcut (y' : Int) : (region s ⊓ dilate 1 0 f) x y' = dilate 1 0 f x y' :=
    cut_dilate hf (by simp only [dilate, Bool.or_eq_true, region_iff]; omega)
  simp only [dilate_apply 0 1, sub_zero, add_zero, hcut]

/-- Within the region's rows a column dilation cut before the row dilation loses nothing. -/
theorem dilateRow_cut_dilateCol {s : State} {f : Image} (hf : f ≤ region s) {y : Int} (hy : 0 ≤ y ∧ y < s.height.toNat) (x : Int) :
    dilate 1 0 (region s ⊓ dilate 0 1 f) x y = dilate 1 0 (dilate 0 1 f) x y := by
  have hcut (x' : Int) : (region s ⊓ dilate 0 1 f) x' y = dilate 0 1 f x' y :=
    cut_dilate hf (by simp only [dilate, Bool.or_eq_true, region_iff]; omega)
  simp only [dilate_apply 1 0, sub_zero, add_zero, hcut]

/-- An erosion does not leave the region. -/
theorem cut_erode {s : State} {f : Image} (hf : f ≤ region s) (dx dy : Int) : region s ⊓ erode dx dy f = erode dx dy f :=
  inf_eq_right.mpr ((erode_le dx dy f).trans hf)

/-! ### The opening and the closing (R142) -/

theorem dilate_cut_erode_le (s : State) (dx dy : Int) (f : Image) : dilate dx dy (region s ⊓ erode dx dy f) ≤ f :=
  (dilate_erode_gc dx dy).l_le inf_le_right

theorem boxOpening_le (s : State) (f : Image) :
    dilate 0 1 (region s ⊓ dilate 1 0 (region s ⊓ erode 0 1 (region s ⊓ erode 1 0 f))) ≤ f := by
  have herosion : erode 0 1 (region s ⊓ erode 1 0 f) ≤ erode 1 0 (erode 0 1 f) := by
    rw [erode_comm 1 0 0 1]
    exact (dilate_erode_gc 0 1).monotone_u inf_le_right
  have hrow : dilate 1 0 (region s ⊓ erode 0 1 (region s ⊓ erode 1 0 f)) ≤ erode 0 1 f :=
    (dilate_erode_gc 1 0).l_le (inf_le_right.trans herosion)
  exact (dilate_erode_gc 0 1).l_le (inf_le_right.trans hrow)

/-- An erosion of a cut image, as in a closing, is confined to the eroded region. -/
theorem erode_cut_le (s : State) (dx dy : Int) (f : Image) : erode dx dy (region s ⊓ f) ≤ erode dx dy (region s) :=
  (dilate_erode_gc dx dy).monotone_u inf_le_left

/-- A closing along one axis keeps every pixel set in the eroded region. -/
theorem le_erode_cut_dilate (s : State) (dx dy : Int) (f : Image) :
    erode dx dy (region s) ⊓ f ≤ erode dx dy (region s ⊓ dilate dx dy f) := by
  rw [(dilate_erode_gc dx dy).u_inf]
  exact inf_le_inf_left _ ((dilate_erode_gc dx dy).le_u_l f)

theorem boxClosing_le (s : State) (f : Image) :
    erode 0 1 (region s ⊓ erode 1 0 (region s ⊓ f)) ≤ erode 0 1 (erode 1 0 (region s)) :=
  (dilate_erode_gc 0 1).monotone_u (inf_le_right.trans (erode_cut_le s 1 0 f))

theorem le_boxClosing (s : State) (f : Image) :
    erode 0 1 (erode 1 0 (region s)) ⊓ f ≤
      erode 0 1 (region s ⊓ erode 1 0 (region s ⊓ dilate 0 1 (region s ⊓ dilate 1 0 f))) := by
  rw [cut_erode inf_le_left, (dilate_erode_gc 1 0).u_inf, (dilate_erode_gc 0 1).u_inf]
  refine le_inf inf_le_left ?_
  calc erode 0 1 (erode 1 0 (region s)) ⊓ f
      ≤ erode 1 0 (region s) ⊓ f := inf_le_inf_right f (erode_le 0 1 _)
    _ ≤ erode 1 0 (region s ⊓ dilate 1 0 f) := le_erode_cut_dilate s 1 0 f
    _ ≤ erode 1 0 (erode 0 1 (dilate 0 1 (region s ⊓ dilate 1 0 f))) :=
        (dilate_erode_gc 1 0).monotone_u ((dilate_erode_gc 0 1).le_u_l _)
    _ = erode 0 1 (erode 1 0 (dilate 0 1 (region s ⊓ dilate 1 0 f))) := erode_comm 1 0 0 1 _

/-! ### Images read back as pixels -/

theorem guarded_mono {s s' : State} (hst : SameGeometry s s') {p : PlaneIdx}
    (h : ∀ x y, x < s.width.toNat → y < s.height.toNat → planeBit s p x y = true → planeBit s' p x y = true) :
    guarded s p ≤ guarded s' p := by
  refine image_le_iff.mpr fun x y hset => ?_
  obtain ⟨hx, hxw, hy, hyh⟩ := (region_iff s x y).mp (image_le_iff.mp (guarded_le_region s p) x y hset)
  lift x to Nat using hx
  lift y to Nat using hy
  rw [Nat.cast_lt] at hxw hyh
  rw [guarded_eq_planeBit hxw hyh] at hset
  rw [guarded_eq_planeBit (hst.width ▸ hxw) (hst.height ▸ hyh)]
  exact h x y hxw hyh hset

section
variable {s t : State} {pd ps : PlaneIdx} {f : Image} (hst : SameGeometry s t) (himage : guarded t pd = region s ⊓ f)
  {x y : Nat} (hx : x < s.width.toNat) (hy : y < s.height.toNat)
include hst himage hx hy

theorem planeBit_source_of_le (hf : f ≤ guarded s ps) (h : planeBit t pd x y = true) : planeBit s ps x y = true := by
  rw [planeBit_eq_of_guarded hst himage hx hy] at h
  rw [← guarded_eq_planeBit hx hy]
  exact image_le_iff.mp hf x y h

theorem planeBit_of_le_image {g : Image} (hf : g ⊓ guarded s ps ≤ f) (hg : g x y = true) (h : planeBit s ps x y = true) :
    planeBit t pd x y = true := by
  rw [← guarded_eq_planeBit hx hy] at h
  rw [planeBit_eq_of_guarded hst himage hx hy]
  exact image_le_iff.mp hf x y (by simp [hg, h])

/-- A closing that keeps the source within `interior` and is confined to it. -/
theorem planeBit_closing {interior : Image} (hlo : interior ⊓ guarded s ps ≤ f) (hhi : f ≤ interior) {inside : Prop}
    [Decidable inside] (hinside : interior x y = true ↔ inside) :
    if inside then planeBit s ps x y = true → planeBit t pd x y = true else planeBit t pd x y = false := by
  split_ifs with hin
  · exact planeBit_of_le_image hst himage hx hy hlo (hinside.mpr hin)
  · rw [planeBit_eq_of_guarded hst himage hx hy, Bool.eq_false_iff]
    exact fun hset => hin (hinside.mp (image_le_iff.mp hhi x y hset))

end

end Sys2Proof.Machine

namespace Sys2Proof.Claims

open Sys2Proof.Machine

/-- Settles O27: the four commands are passes, an image lies below its dilation and above its erosion, and both are monotone. -/
theorem refinerOperatorsAreExtensiveAndMonotone : Obligations.RefinerOperatorsAreExtensiveAndMonotone := by
  intro s s' pd ps hc hs hne hcfg hwidth hheight hgrows
  have hgeometry : SameGeometry s s' := ⟨hcfg, hwidth, hheight⟩
  refine ⟨fun op hop => ?monotone, fun op hop => ?extensive, fun op hop => ?antiExtensive⟩
  case monotone =>
    obtain ⟨F, hmono, hpass⟩ := refiner_pass hop
    obtain ⟨t, hexec, hst, himage⟩ := hpass.exec hc hs hne.symm
    obtain ⟨t', hexec', hst', himage'⟩ := hpass.exec (hcfg ▸ hc) (hgeometry.validGeometry hs) hne.symm
    refine ⟨t, t', hexec, hexec', fun x y hx hy hset => ?_⟩
    rw [planeBit_eq_of_guarded hst himage hx hy] at hset
    rw [planeBit_eq_of_guarded hst' himage' (hwidth ▸ hx) (hheight ▸ hy)]
    exact image_le_iff.mp (hmono (guarded_mono hgeometry hgrows)) x y hset
  case extensive =>
    obtain ⟨dx, dy, hpass⟩ := dilation_pass hop
    obtain ⟨t, hexec, hst, himage⟩ := hpass.exec hc hs hne.symm
    exact ⟨t, hexec, fun x y hx hy =>
      planeBit_of_le_image hst himage hx hy (inf_le_right.trans (le_dilate dx dy _)) (region_natCast hx hy)⟩
  case antiExtensive =>
    obtain ⟨dx, dy, hpass⟩ := erosion_pass hop
    obtain ⟨t, hexec, hst, himage⟩ := hpass.exec hc hs hne.symm
    exact ⟨t, hexec, fun x y hx hy => planeBit_source_of_le hst himage hx hy (erode_le dx dy _)⟩

/-- Settles O28: each sequence leaves two passes with a cut between them; the cut loses nothing, and the passes commute. -/
theorem passesCommuteToBoxOperators : Obligations.PassesCommuteToBoxOperators := by
  intro s pd ps pt hc hs hps hpd
  have hregion := guarded_le_region s ps
  refine ⟨((dilh_pass.leavesImage hc hs hps).pass dilv_pass hc hs hpd.symm).leaves fun x y hx hy => ?_,
    ((dilv_pass.leavesImage hc hs hps).pass dilh_pass hc hs hpd.symm).leaves fun x y hx hy => ?_,
    ((eroh_pass.leavesImage hc hs hps).pass erov_pass hc hs hpd.symm).leaves fun x y hx hy => ?_,
    ((erov_pass.leavesImage hc hs hps).pass eroh_pass hc hs hpd.symm).leaves fun x y hx hy => ?_⟩
  · rw [dilateCol_cut_dilateRow hregion (by omega), dilate_comm, boxDilate_eq]
  · rw [dilateRow_cut_dilateCol hregion (by omega), boxDilate_eq]
  · rw [cut_erode hregion, erode_comm, boxErode_eq]
  · rw [cut_erode hregion, boxErode_eq]

/-- Settles O29: each sequence leaves an opening, which by the adjunction lies below the source. -/
theorem openingIsBelowTheMask : Obligations.OpeningIsBelowTheMask := by
  intro s pd ps pt pu pv hc hs hpt hpd hpu hpv hpdv
  obtain ⟨a, harun, hsa, ha⟩ := (eroh_pass.leavesImage hc hs hpt).pass dilh_pass hc hs hpd
  obtain ⟨b, hbrun, hsb, hb⟩ := (erov_pass.leavesImage hc hs hpt).pass dilv_pass hc hs hpd
  obtain ⟨c, hcrun, hsc, hcimage⟩ := (((eroh_pass.leavesImage hc hs hpt).pass erov_pass hc hs hpu).pass dilh_pass hc hs hpv).pass
    dilv_pass hc hs hpdv
  refine ⟨a, b, c, harun, hbrun, hcrun, fun x y hx hy => ?_⟩
  rintro (hset | hset | hset)
  · exact planeBit_source_of_le hsa ha hx hy (dilate_cut_erode_le s 1 0 _) hset
  · exact planeBit_source_of_le hsb hb hx hy (dilate_cut_erode_le s 0 1 _) hset
  · exact planeBit_source_of_le hsc hcimage hx hy (boxOpening_le s _) hset

/-- Settles O30: each sequence leaves a closing, which is confined to the eroded region and keeps the source there; a pixel is in the
eroded region exactly where it has both its neighbours in the region. -/
theorem closingHoldsAwayFromBorder : Obligations.ClosingHoldsAwayFromBorder := by
  intro s pd ps pt pu pv hc hs hpt hpd hpu hpv hpdv
  obtain ⟨a, harun, hsa, ha⟩ := (dilh_pass.leavesImage hc hs hpt).pass eroh_pass hc hs hpd
  obtain ⟨b, hbrun, hsb, hb⟩ := (dilv_pass.leavesImage hc hs hpt).pass erov_pass hc hs hpd
  obtain ⟨c, hcrun, hsc, hcimage⟩ := (((dilh_pass.leavesImage hc hs hpt).pass dilv_pass hc hs hpu).pass eroh_pass hc hs hpv).pass
    erov_pass hc hs hpdv
  refine ⟨a, b, c, harun, hbrun, hcrun, fun x y hx hy => ⟨?_, ?_, ?_⟩⟩
  · refine planeBit_closing hsa ha hx hy (le_erode_cut_dilate s 1 0 _) (erode_cut_le s 1 0 _) ?_
    simp only [erode, Bool.and_eq_true, region_iff]
    omega
  · refine planeBit_closing hsb hb hx hy (le_erode_cut_dilate s 0 1 _) (erode_cut_le s 0 1 _) ?_
    simp only [erode, Bool.and_eq_true, region_iff]
    omega
  · refine planeBit_closing hsc hcimage hx hy (le_boxClosing s _) (boxClosing_le s _) ?_
    simp only [erode, Bool.and_eq_true, region_iff]
    omega

end Sys2Proof.Claims
end

section
/-! Proofs for 43_compositor.md: the ratio of each strength code and what it makes of a byte, and COMP by byte of the destination. -/

namespace Sys2Proof.Machine

open Sys2Proof.Claims

/-! ### Strengths -/

/-- Codes 0 to 4 name the ratios of R160's table, codes 5 to 7 none. -/
theorem strengthRatio_eq (c : Config) : ∀ str : StrengthCode,
    strengthRatio c str = if str.val < 5 then some (ratioOf c.fullNum c.fullDen str.val) else none
  | 0 | 1 | 2 | 3 | 4 | 5 | 6 | 7 => rfl

theorem strengthRatio_eq_some {c : Config} {str : StrengthCode} {ratio : Nat × Nat} (h : strengthRatio c str = some ratio) :
    str.val < 5 ∧ ratio = ratioOf c.fullNum c.fullDen str.val := by
  rw [strengthRatio_eq, Option.ite_none_right_eq_some, Option.some_inj] at h
  exact ⟨h.1, h.2.symm⟩

/-- Every ratio of a legal build scales by at most 1, and its denominator fits a byte (R160, 00_scope.md R7). -/
theorem ratioOf_bounds {c : Config} (hc : c.ok = true) (code : Nat) :
    (ratioOf c.fullNum c.fullDen code).1 ≤ (ratioOf c.fullNum c.fullDen code).2 ∧
      1 ≤ (ratioOf c.fullNum c.fullDen code).2 ∧ (ratioOf c.fullNum c.fullDen code).2 ≤ 255 := by
  obtain ⟨_, _, _, _, _, _, hfull⟩ := Config.ok_facts hc
  match code with
  | 0 | 1 | 2 | 3 => simp [ratioOf]
  | _ + 4 => exact hfull

/-- Only strength full can have `num = den` (R164). -/
theorem full_of_ratioOf_eq {n d code : Nat} (hcode : code < 5) (h : (ratioOf n d code).1 = (ratioOf n d code).2) :
    code = 4 ∧ n = d := by
  match code with
  | 0 | 1 | 2 | 3 => cases h
  | 4 => exact ⟨rfl, h⟩

theorem compError_eq_strength {s : State} {str : StrengthCode} (h : dimsOk s = true) (hstr : 5 ≤ str.val) :
    compError s str = some .strength := by rw [compError, if_pos h, if_pos hstr]

/-! ### Attenuation -/

theorem attenuate_quotient_le {ratio : Nat × Nat} (h : ratio.1 ≤ ratio.2) (v : Byte) :
    v.toNat * ratio.1 / ratio.2 ≤ v.toNat :=
  Nat.div_le_of_le_mul (Nat.mul_comm ratio.2 v.toNat ▸ Nat.mul_le_mul_left v.toNat h)

/-- The quotient fits a byte, so that nothing is cut off (R163). -/
theorem attenuate_toNat {ratio : Nat × Nat} (h : ratio.1 ≤ ratio.2) (v : Byte) :
    (attenuate ratio v).toNat = v.toNat * ratio.1 / ratio.2 := by
  rw [attenuate, BitVec.toNat_ofNat, Nat.mod_eq_of_lt ((attenuate_quotient_le h v).trans_lt v.isLt)]

theorem attenuate_le {ratio : Nat × Nat} (h : ratio.1 ≤ ratio.2) (v : Byte) : attenuate ratio v ≤ v := by
  rw [BitVec.le_def, attenuate_toNat h]
  exact attenuate_quotient_le h v

theorem attenuate_self {n : Nat} (hn : 1 ≤ n) (v : Byte) : attenuate (n, n) v = v := by
  rw [attenuate, Nat.mul_div_cancel _ hn, BitVec.ofNat_toNat, BitVec.setWidth_eq]

/-- A byte times a ratio's numerator fits 16 bits (R163). -/
theorem mul_le_of_numerator_le {ratio : Nat × Nat} (h : ratio.1 ≤ 255) (v : Byte) : v.toNat * ratio.1 ≤ 65025 :=
  calc v.toNat * ratio.1 ≤ 255 * 255 := Nat.mul_le_mul (Nat.le_of_lt_succ v.isLt) h

/-! ### Pixels by channel -/

theorem Pixel.eq_of_get_eq {p q : Pixel} (h : ∀ c, p.get c = q.get c) : p = q :=
  (Pixel.mk.injEq ..).mpr ⟨h .r, h .g, h .b, h .a⟩

@[simp] theorem Pixel.get_attenuated (ratio : Nat × Nat) (p : Pixel) (c : Channel) :
    (p.attenuated ratio).get c = attenuate ratio (p.get c) := by cases c <;> rfl

@[simp] theorem get_framePixel (s : State) (f : FrameIdx) (i : Nat) (c : Channel) :
    (framePixel s f i).get c = frameVal s f i c := by cases c <;> rfl

theorem frameVal_of_frameByte {s : State} {f : FrameIdx} {i : Nat} {c : Channel} {v : Byte} (h : frameByte s f i c = some v) :
    frameVal s f i c = v := by rw [frameVal, h, Option.getD_some]

theorem frameByte_eq_frameVal {s : State} {f : FrameIdx} {i : Nat} {c : Channel} (h : (frameByte s f i c).isSome = true) :
    frameByte s f i c = some (frameVal s f i c) := by
  obtain ⟨v, hv⟩ := Option.isSome_iff_exists.mp h
  rw [hv, frameVal_of_frameByte hv]

/-- The number of the pixel at (x, y) is in the active region, and (x, y) is read back from it. -/
theorem pixelIndex_divMod {w h x y : Nat} (hx : x < w) (hy : y < h) :
    y * w + x < w * h ∧ (y * w + x) % w = x ∧ (y * w + x) / w = y := by
  refine ⟨?_, ?_, ?_⟩
  · calc y * w + x < (y + 1) * w := by rw [Nat.succ_mul]; omega
      _ ≤ w * h := by rw [Nat.mul_comm]; exact Nat.mul_le_mul_left w hy
  · rw [Nat.mul_add_mod', Nat.mod_eq_of_lt hx]
  · rw [Nat.mul_comm, Nat.mul_add_div (Nat.zero_lt_of_lt hx), Nat.div_eq_of_lt hx, Nat.add_zero]

/-! ### COMP -/

section
variable {s : State} {fs : FrameIdx} {pm : PlaneIdx} {str : StrengthCode} {i : Nat}

theorem compByte_unmasked (h : planeBit s pm (i % s.width.toNat) (i / s.width.toNat) = false) (c : Channel) :
    compByte s fs pm str i c = frameVal s fs i c := by simp only [compByte, h, Bool.false_eq_true, if_false]

theorem get_composited (c : Channel) :
    (composited s fs pm (ratioOf s.cfg.fullNum s.cfg.fullDen str.val) i).get c = compByte s fs pm str i c := by
  unfold composited compByte
  split_ifs
  · rw [Pixel.get_attenuated, get_framePixel, attenuate]
  · exact get_framePixel s fs i c

/-- A pixel whose bytes are `compByte` is the composited pixel. -/
theorem framePixel_eq_composited {t : State} {fd : FrameIdx} (h : ∀ c, frameByte t fd i c = some (compByte s fs pm str i c)) :
    framePixel t fd i = composited s fs pm (ratioOf s.cfg.fullNum s.cfg.fullDen str.val) i :=
  Pixel.eq_of_get_eq fun c => by rw [get_framePixel, get_composited, frameVal_of_frameByte (h c)]

end

/-- A completed command that wrote frame `fd` has written each channel of `out`. -/
theorem frameWritten_complete (s : State) (fd : FrameIdx) (out : Nat → Pixel) :
    FrameWritten s (complete { s with mem := writeFrame s fd out }) fd fun i c => (out i).get c where
  registers := rfl
  pixels _ c hi := readByte_writePixels_inside fd out s.mem c _ hi
  bytes _ ha := readByte_writeFrame_outside s fd out ha

/-- The other frame is left alone (R165). -/
theorem frameByte_other_of_frameWritten {s t : State} {fd : FrameIdx} {out : Nat → Channel → Byte} (h : FrameWritten s t fd out)
    (hc : s.cfg.ok = true) (hs : validGeometry s) {f : FrameIdx} (hne : fd ≠ f) {i : Nat}
    (hi : i < s.width.toNat * s.height.toNat) (c : Channel) : frameByte t f i c = frameByte s f i c := by
  obtain ⟨_, hwidth, _, hheight⟩ := hs
  have hstored : s.width.toNat * s.height.toNat ≤ 0x01000000 :=
    (Nat.mul_le_mul hwidth hheight).trans (Config.maxPixels_le hc)
  refine h.bytes _ fun j d hj haddr => hne ?_
  exact (frameByteAddr_inj (hi.trans_le hstored) (hj.trans_le hstored) haddr).1.symm

section
variable {s : State} (fd : FrameIdx) {fs : FrameIdx} (pm : PlaneIdx) {str : StrengthCode} (hs : validGeometry s)
  (hstr : str.val < 5)
include hs hstr

/-- Under a valid geometry COMP with a named strength is the reading of its source and the writing of its destination. -/
theorem exec_comp_eq : exec (.comp fd fs pm str) s =
    runCommand none (readingFrame s fs (framePixels s) [.r, .g, .b, .a]
      (writeFrame s fd (composited s fs pm (ratioOf s.cfg.fullNum s.cfg.fullDen str.val)))) s := by
  have hcheck : issueError s (.comp fd fs pm str) = none := compError_eq_none (dimsOk_of_validGeometry hs) hstr
  have hratio := strengthRatio_eq s.cfg str
  rw [if_pos hstr] at hratio
  rw [exec_eq_runCommand, hcheck, commandResult, compResult, hratio]

/-- With its source written COMP completes with its destination written. -/
theorem exec_comp_frameWritten (hset : frameSet s fs (s.width.toNat * s.height.toNat) [.r, .g, .b, .a]) :
    ∃ t, exec (.comp fd fs pm str) s = .next t ∧ FrameWritten s t fd (compByte s fs pm str) := by
  refine ⟨_, (exec_comp_eq fd pm hs hstr).trans (runCommand_completed rfl (readingFrame_ok _ hset) s), ?_⟩
  simpa only [get_composited] using
    frameWritten_complete s fd (composited s fs pm (ratioOf s.cfg.fullNum s.cfg.fullDen str.val))

/-- COMP answers a next state only where its source is written: else it faults (10_state.md R40). -/
theorem frameSet_of_exec_comp {t : State} (h : exec (.comp fd fs pm str) s = .next t) :
    frameSet s fs (s.width.toNat * s.height.toNat) [.r, .g, .b, .a] := by
  rw [exec_comp_eq fd pm hs hstr] at h
  rcases readingFrame_cases s fs (framePixels s) [.r, .g, .b, .a] _ with ⟨hset, _⟩ | ⟨_, _, _, _, _, hfault⟩
  · exact hset
  · rw [runCommand_faulted rfl hfault] at h
    cases h

end

end Sys2Proof.Machine

namespace Sys2Proof.Claims

open Sys2Proof.Machine

/-- Settles O22: COMP passes its checks, no byte that it reads is without a value, and the frame is written with the composited
pixels. -/
theorem compAttenuatesMaskedPixels : Obligations.CompAttenuatesMaskedPixels :=
  fun _ fd _ pm _ _ hs hstr hset => exec_comp_frameWritten fd pm hs hstr hset

/-- Settles O24: every ratio of a legal build has `num <= den <= 255`, so that the quotient is at most the byte. -/
theorem strengthRatiosAttenuateExactly : Obligations.StrengthRatiosAttenuateExactly := by
  refine ⟨rfl, strengthRatio_eq, fun s fd fs pm str hs hstr => ?rejected, fun c str ratio v hc hratio => ?exact⟩
  case rejected => exact (validate_encode _ s).trans (compError_eq_strength (dimsOk_of_validGeometry hs) hstr)
  case exact =>
    obtain ⟨_, rfl⟩ := strengthRatio_eq_some hratio
    obtain ⟨hle, hpos, hbyte⟩ := ratioOf_bounds hc str.val
    exact ⟨hle, hpos, mul_le_of_numerator_le (hle.trans hbyte) v, attenuate_toNat hle v, attenuate_le hle v⟩

/-- Settles O25: both forms write `compByte`, which is the source byte where the mask bit is 0; the copy writes no byte of its
source. -/
theorem compInPlaceEqualsCopy : Obligations.CompInPlaceEqualsCopy := by
  intro s fd fs pm str hc hs hstr hne hset
  obtain ⟨t, htexec, ht⟩ := exec_comp_frameWritten fs pm hs hstr hset
  obtain ⟨u, huexec, hu⟩ := exec_comp_frameWritten fd pm hs hstr hset
  refine ⟨t, u, htexec, huexec, fun i c hi => ⟨?_, frameByte_other_of_frameWritten hu hc hs hne hi c, fun hmask => ?_⟩⟩
  · rw [ht.pixels i c hi, hu.pixels i c hi]
  · rw [ht.pixels i c hi, compByte_unmasked hmask, frameByte_eq_frameVal (hset i c hi (by cases c <;> decide))]

/-- Settles O26: a COMP that answers a next state has written `compByte`, by the mask bit of each pixel; and a ratio with `num = den`
is that of strength full, whose denominator is at least 1. -/
theorem compPartitionsPixels : Obligations.CompPartitionsPixels := by
  refine ⟨fun s t fd fs pm str ratio _ hs hratio h x y hx hy => ?partition, fun c str n d hc hratio hnd => ?coincide⟩
  case partition =>
    obtain ⟨hstr, rfl⟩ := strengthRatio_eq_some hratio
    obtain ⟨t', hexec, hwritten⟩ := exec_comp_frameWritten fd pm hs hstr (frameSet_of_exec_comp fd pm hs hstr h)
    cases hexec.symm.trans h
    obtain ⟨hi, hcolumn, hrow⟩ := pixelIndex_divMod hx hy
    have hpixel := framePixel_eq_composited fun c => hwritten.pixels _ c hi
    rw [composited, hcolumn, hrow] at hpixel
    exact ⟨fun hmask => by rw [hpixel, hmask, if_neg Bool.false_ne_true], fun hmask => by rw [hpixel, if_pos hmask]⟩
  case coincide =>
    obtain ⟨hstr, hpair⟩ := strengthRatio_eq_some hratio
    obtain ⟨hcode, hfull⟩ := full_of_ratioOf_eq hstr (by rw [← hpair]; exact hnd)
    have hpos : 1 ≤ d := (hpair ▸ ratioOf_bounds hc str.val).2.1
    refine ⟨hcode, hfull, fun p => Pixel.eq_of_get_eq fun ch => ?_⟩
    rw [Pixel.get_attenuated, hnd, attenuate_self hpos]

end Sys2Proof.Claims
end

section
/-! Proofs for 44_housekeeping.md: validation of a word that has its OP's row, as the one word its own fields encode, and NOP and CLEAR,
which pass their checks in every state. -/

namespace Sys2Proof

open Sys2Proof.Claims

/-- The fields of R91 cover the word: no two words have the same ones. -/
theorem fieldsOf_injective {v w : Word} (h : fieldsOf v = fieldsOf w) : v = w := by
  simp only [fieldsOf, field_eq, List.cons.injEq, and_true] at h
  exact BitVec.eq_of_toNat_eq (by omega)

/-- A word is the encoding of a command where its fields are the command's. -/
theorem eq_encode_iff {v : Word} {i : Instr} : v = encode i ↔ fieldsOf v = wordFields i := by
  rw [← fieldsOf_encode i]
  exact ⟨congrArg fieldsOf, fieldsOf_injective⟩

/-- Under a row's mask a word matches only where it encodes what the row reads from it (30_encoding.md R94). -/
theorem matches_iff_eq_encode {v : Word} {row : OpcodeRow} (hrow : opcodeTable[opField v]? = some row) :
    v &&& row.mask = row.pattern ↔ v = encode (row.operands v) := by
  constructor
  · intro hmatch
    rw [encode_operands v row (List.mem_of_getElem? hrow), pattern_or_rest hmatch]
  · intro hv
    have hdecode : decode v = .ok (row.operands v) := by rw [congrArg decode hv, decode_encode]
    obtain ⟨row', _, hrow', hmatch, _⟩ := decode_row hdecode
    cases hrow.symm.trans hrow'
    exact hmatch

/-- A word with CLEAR's OP encodes a CLEAR where it sets no bit that CLEAR does not use (R95). -/
theorem eq_encode_clear_iff {v : Word} (hop : field v 0 4 = 8) : v = encode (.clear (pdField v)) ↔ ¬ unusedBitSet v := by
  have hpd : (pdField v).val = field v 4 2 := rfl
  rw [eq_encode_iff]
  simp only [unusedBitSet, fieldsOf, wordFields, hop, hpd, List.cons.injEq, true_and, and_true]
  omega

end Sys2Proof

namespace Sys2Proof.Machine

open Sys2Proof.Claims

/-- A word of a valid OP is validated as the command its fields name, or it is E_RSVD (60_exceptions.md R194, R199). -/
theorem validate_of_row {v : Word} {row : OpcodeRow} (hrow : opcodeTable[opField v]? = some row) (s : State) :
    validate v s = if v = encode (row.operands v) then issueError s (row.operands v) else some .rsvd := by
  rw [validate, decode, hrow]
  simp only [← matches_iff_eq_encode hrow]
  split_ifs <;> rfl

/-- A word with no error is accepted while BUSY and ERR are 0 (30_encoding.md R96). -/
theorem hostAccess_cmdWrite_accepted {v : Word} {s : State} (hidle : s.busy = false) (herr : s.err = false)
    (hv : validate v s = none) :
    hostAccess (cmdWrite v) s = .next { s with pend := v, done := false, busy := true, response := .ok } := by
  have hissue : issue v s = accept v s := by simp [issue, herr, hv]
  rw [hostAccess_cmdWrite hidle, hissue]
  rfl

theorem exec_nop (s : State) : exec .nop s = .next (complete s) :=
  (exec_eq_runCommand .nop s).trans (runCommand_completed rfl rfl s)

theorem exec_clear (pd : PlaneIdx) (s : State) : exec (.clear pd) s = .next (complete { s with mem := clearPlane pd s.mem }) :=
  (exec_eq_runCommand (.clear pd) s).trans (runCommand_completed rfl rfl s)

/-- Clearing a plane zeroes its window and leaves every other byte alone. -/
theorem readByte_clearPlane (p : PlaneIdx) (m : Memory) (a : Nat) :
    readByte (clearPlane p m) a =
      if planeBase p ≤ a ∧ a < planeBase p + 0x00100000 then some 0#8 else readByte m a := by
  rw [clearPlane, readByte_clearRange]
  split_ifs with hwindow
  · have := p.isLt
    exact blank_of_inPlanes ((inPlanes_iff a).mpr (by unfold planeBase at hwindow; omega))
  · rfl

theorem planeWindow_iff (p : PlaneIdx) (a : Nat) :
    planeBase p ≤ a ∧ a < planeBase p + 0x00100000 ↔
      0x01000000 + 0x00100000 * p.val ≤ a ∧ a < 0x01000000 + 0x00100000 * (p.val + 1) := by
  unfold planeBase planesBase
  omega

end Sys2Proof.Machine

namespace Sys2Proof.Claims

open Sys2Proof.Machine

/-- Settles O13: NOP's row matches only the word 0, and NOP has no check to pass and no buffer to write. -/
theorem nopOnlySetsDone : Obligations.NopOnlySetsDone := by
  refine ⟨rfl, fun v s hop => validate_of_row (congrArg (opcodeTable[·]?) hop) s,
    fun s hidle herr => hostAccess_cmdWrite_accepted hidle herr (validate_encode .nop s), exec_nop, fun s t h hie => ?irq⟩
  case irq =>
    cases (exec_nop s).symm.trans h
    simp [irq, hie]

/-- Settles O14: a word with CLEAR's OP and no unused bit set is a CLEAR, which has no check to pass; the range it clears is its plane's
window. -/
theorem clearZeroesWholePlane : Obligations.ClearZeroesWholePlane := by
  refine ⟨fun v s hop => ?word, fun pd => ⟨rfl, fun s hidle herr =>
    hostAccess_cmdWrite_accepted hidle herr (validate_encode (.clear pd) s), fun s => ⟨_, exec_clear pd s, rfl, fun a => ?bytes,
    fun hc q x y hx hy => planeBit_clearPlane hc pd q hx hy⟩⟩⟩
  case word =>
    have hrow := validate_of_row (congrArg (opcodeTable[·]?) hop) s
    exact ⟨fun hset => hrow.trans (if_neg fun hv => (eq_encode_clear_iff hop).mp hv hset),
      fun hunset => hrow.trans (if_pos ((eq_encode_clear_iff hop).mpr hunset))⟩
  case bytes =>
    simp only [complete_mem, readByte_clearPlane, planeWindow_iff]

end Sys2Proof.Claims
end

section
/-! Proofs for 60_exceptions.md: validation as one chain over the fields of a command word, the rejection of a command, the first bus
error of an access, and the answers a step can give. -/

namespace Sys2Proof

open Sys2Proof.Claims

/-! ### The row of an OP -/

theorem lt_of_opcodeTable {op : Nat} {row : OpcodeRow} (hrow : opcodeTable[op]? = some row) : op < 9 :=
  (List.getElem?_eq_some_iff.mp hrow).1

theorem opcodeTable_of_lt {op : Nat} (h : op < 9) : ∃ row, opcodeTable[op]? = some row :=
  ⟨_, List.getElem?_eq_getElem h⟩

/-- The masks and matches of the table are those of R199's pseudocode. -/
theorem opcodeTable_mask_pattern {op : Nat} {row : OpcodeRow} (hrow : opcodeTable[op]? = some row) :
    row.mask = maskOf op ∧ row.pattern = BitVec.ofNat 32 op := by
  have hop := lt_of_opcodeTable hrow
  interval_cases op <;> cases hrow <;> exact ⟨rfl, rfl⟩

/-- A word encodes what its OP's row reads from it where it sets no bit that the opcode does not use (30_encoding.md R95). -/
theorem eq_encode_operands_iff {v : Word} {row : OpcodeRow} (hrow : opcodeTable[field v 0 4]? = some row) :
    v = encode (row.operands v) ↔ ¬ unusedBitSet v := by
  have hpd : (pdField v).val = field v 4 2 := rfl
  have hps : (psField v).val = field v 6 2 := rfl
  have hfs : (fsField v).val = field v 8 1 := rfl
  have hfd : (fdField v).val = field v 9 1 := rfl
  have hstr : (strField v).val = field v 10 3 := rfl
  have hop := lt_of_opcodeTable hrow
  rw [eq_encode_iff, unusedBitSet, fieldsOf]
  generalize field v 0 4 = op at hrow hop
  -- a used field of the row agrees by definition, an unused one is 0 on the left
  interval_cases op <;> cases hrow <;>
    simp only [wordFields, hpd, hps, hfs, hfd, hstr, List.cons.injEq, true_and, and_true] <;> omega

/-- Comparing under the row's mask finds the unused bits. -/
theorem masked_eq_iff {v : Word} (hop : field v 0 4 < 9) :
    v &&& maskOf (field v 0 4) = BitVec.ofNat 32 (field v 0 4) ↔ ¬ unusedBitSet v := by
  obtain ⟨row, hrow⟩ := opcodeTable_of_lt hop
  obtain ⟨hmask, hpattern⟩ := opcodeTable_mask_pattern hrow
  rw [← hmask, ← hpattern, matches_iff_eq_encode hrow, eq_encode_operands_iff hrow]

end Sys2Proof

namespace Sys2Proof.Machine

open Sys2Proof.Claims

/-! ### Validation by the fields of the word -/

theorem dimsOk_iff_validGeometry (s : State) : dimsOk s = true ↔ validGeometry s := by
  rw [dimsOk_iff]
  tauto

/-- The geometries that E_DIM is for (60_exceptions.md R195). -/
theorem dimsOk_eq_false_iff (s : State) :
    dimsOk s = false ↔
      s.width = 0 ∨ s.height = 0 ∨ s.cfg.maxWidth < s.width.toNat ∨ s.cfg.maxHeight < s.height.toNat := by
  have hzero : ∀ n : BitVec 16, n = 0 ↔ ¬ 1 ≤ n.toNat := fun n => by rw [BitVec.toNat_eq]; simp
  rw [Bool.eq_false_iff, Ne, dimsOk_iff, hzero, hzero]
  omega

/-- The lines of R199 that follow the masks, on the fields of the word. -/
def operandError (v : Word) (s : State) : Option CmdError :=
  if (1 ≤ field v 0 4 ∧ field v 0 4 ≤ 7) ∧ dimsOk s = false then some .dim
  else if (2 ≤ field v 0 4 ∧ field v 0 4 ≤ 6) ∧ field v 6 2 = field v 4 2 then some .aliasing
  else if field v 0 4 = 7 ∧ 5 ≤ field v 10 3 then some .strength
  else none

/-- The issue checks of the command that its OP's row reads from a word are the lines of R199 on the word's fields. -/
theorem issueError_operands {v : Word} {row : OpcodeRow} (hrow : opcodeTable[field v 0 4]? = some row) (s : State) :
    issueError s (row.operands v) = operandError v s := by
  have halias : psField v = pdField v ↔ field v 6 2 = field v 4 2 := Fin.ext_iff
  have hstr : (strField v).val = field v 10 3 := rfl
  have hop := lt_of_opcodeTable hrow
  unfold operandError
  generalize field v 0 4 = op at hrow hop
  interval_cases op <;> cases hrow <;> cases hdims : dimsOk s <;>
    simp [issueError, dimError, planeError, compError, hdims, halias, hstr]

theorem validate_reservedOpcode {v : Word} (h : 9 ≤ field v 0 4) (s : State) : validate v s = some .opcode := by
  have hrow : opcodeTable[opField v]? = none := List.getElem?_eq_none h
  rw [validate, decode, hrow]
  rfl

theorem validate_unusedBitSet {v : Word} (h : field v 0 4 < 9) (hset : unusedBitSet v) (s : State) :
    validate v s = some .rsvd := by
  obtain ⟨row, hrow⟩ := opcodeTable_of_lt h
  rw [validate_of_row hrow, if_neg fun hv => (eq_encode_operands_iff hrow).mp hv hset]

theorem validate_usedBits {v : Word} (h : field v 0 4 < 9) (hunset : ¬ unusedBitSet v) (s : State) :
    validate v s = operandError v s := by
  obtain ⟨row, hrow⟩ := opcodeTable_of_lt h
  rw [validate_of_row hrow, if_pos ((eq_encode_operands_iff hrow).mpr hunset), issueError_operands hrow]

/-- The three ways validation of a word goes: by its OP, by its unused bits, and by its operands (60_exceptions.md R199). -/
theorem validate_cases (v : Word) (s : State) :
    (9 ≤ field v 0 4 ∧ validate v s = some .opcode) ∨
    (field v 0 4 < 9 ∧ unusedBitSet v ∧ validate v s = some .rsvd) ∨
    (field v 0 4 < 9 ∧ ¬ unusedBitSet v ∧ validate v s = operandError v s) := by
  rcases Nat.lt_or_ge (field v 0 4) 9 with hop | hop
  · by_cases hset : unusedBitSet v
    · exact .inr (.inl ⟨hop, hset, validate_unusedBitSet hop hset s⟩)
    · exact .inr (.inr ⟨hop, hset, validate_usedBits hop hset s⟩)
  · exact .inl ⟨hop, validate_reservedOpcode hop s⟩

section
variable (v : Word) (s : State)

theorem operandError_ne_opcode : operandError v s ≠ some .opcode := by
  unfold operandError
  split_ifs <;> simp

theorem operandError_ne_rsvd : operandError v s ≠ some .rsvd := by
  unfold operandError
  split_ifs <;> simp

theorem operandError_eq_dim_iff :
    operandError v s = some .dim ↔ (1 ≤ field v 0 4 ∧ field v 0 4 ≤ 7) ∧ dimsOk s = false := by
  unfold operandError
  split_ifs <;> grind

theorem operandError_eq_aliasing_iff :
    operandError v s = some .aliasing ↔
      (2 ≤ field v 0 4 ∧ field v 0 4 ≤ 6) ∧ dimsOk s = true ∧ field v 6 2 = field v 4 2 := by
  unfold operandError
  split_ifs <;> grind

theorem operandError_eq_strength_iff :
    operandError v s = some .strength ↔ field v 0 4 = 7 ∧ dimsOk s = true ∧ 5 ≤ field v 10 3 := by
  unfold operandError
  split_ifs <;> grind

end

/-! ### Rejection -/

theorem hostAccess_cmdWrite_rejected {v : Word} {s : State} {e : CmdError} (hidle : s.busy = false) (herr : s.err = false)
    (hv : validate v s = some e) : hostAccess (cmdWrite v) s = .next { reject e s with response := .ok } := by
  have hissue : issue v s = reject e s := by simp [issue, herr, hv]
  rw [hostAccess_cmdWrite hidle, hissue]

/-- While ERR = 1 a CMD write is answered and discarded (60_exceptions.md R200). -/
theorem hostAccess_cmdWrite_discarded {s : State} (hidle : s.busy = false) (herr : s.err = true) (v : Word) :
    hostAccess (cmdWrite v) s = .next { s with response := .ok } := by
  have hissue : issue v s = s := by simp [issue, herr]
  rw [hostAccess_cmdWrite hidle, hissue]

/-- With BUSY = 0 a rejection is undone by putting ERR and ERRCODE back (60_exceptions.md R191). -/
theorem reject_undone (e : CmdError) {s : State} (hidle : s.busy = false) :
    { reject e s with err := s.err, errcode := s.errcode } = s := by
  cases s
  cases hidle
  rfl

/-! ### The first bus error (60_exceptions.md R198) -/

theorem mapped_of_plane {c : Config} {p : PlaneIdx} {o : Nat} (ho : o < c.maxHeight * c.stride) :
    mapped c (planeBase p + o) = true := by
  unfold Config.stride at ho
  simp only [mapped, planeBase, planesBase, Bool.or_eq_true]
  fin_cases p <;> simp <;> omega

theorem mapped_of_frame {c : Config} {f : FrameIdx} {o : Nat} (ho : o < 4 * c.maxPixels) :
    mapped c (frameBase f + o) = true := by
  unfold Config.maxPixels at ho
  simp only [mapped, frameBase, framesBase, Bool.or_eq_true]
  fin_cases f <;> simp <;> omega

theorem mapped_of_register {c : Config} {a : Nat} {r : Register} (h : registerAt a = some r) : mapped c a = true := by
  have hslot := registerAt_slot h
  simp only [mapped, Bool.or_eq_true, Bool.and_eq_true, decide_eq_true_eq]
  cases r <;> simp [registerAddr] at hslot <;> omega

theorem mapped_of_locate {c : Config} {a : Nat} {tg : Target} (h : locate c a = some tg) : mapped c a = true := by
  cases tg with
  | register r => exact mapped_of_register (locate_register h).2
  | plane p o =>
    obtain ⟨rfl, ho⟩ := locate_plane h
    exact mapped_of_plane ho
  | frame f o =>
    obtain ⟨rfl, ho⟩ := locate_frame h
    exact mapped_of_frame ho

/-- Below the windows only the words of 10_state.md R22 are mapped. -/
theorem registerAt_of_mapped {c : Config} {a : Nat} (ha : a < 0x1000) (h : mapped c a = true) : ∃ r, registerAt a = some r := by
  have hslot : a / 4 = 0 ∨ a / 4 = 1 ∨ a / 4 = 2 ∨ a / 4 = 4 ∨ a / 4 = 5 ∨ a / 4 = 6 ∨ a / 4 = 7 := by
    simp only [mapped, Bool.or_eq_true, Bool.and_eq_true, decide_eq_true_eq] at h
    omega
  unfold registerAt
  rcases hslot with h | h | h | h | h | h | h <;> rw [h] <;> exact ⟨_, rfl⟩

theorem locate_window_region {c : Config} {a : Nat} {tg : Target} (h : locate c a = some tg) (htg : ∀ r, tg ≠ .register r) :
    0x1000 ≤ a := by
  cases tg with
  | register r => exact absurd rfl (htg r)
  | plane p o =>
    rw [(locate_plane h).1]
    unfold planeBase planesBase
    omega
  | frame f o =>
    rw [(locate_frame h).1]
    unfold frameBase framesBase
    omega

/-- The address map of the statements is the block's (20_memory.md R62, R67, 10_state.md R26). -/
theorem locate_isSome {c : Config} (hc : c.ok = true) (a : Nat) : (locate c a).isSome = mapped c a := by
  rw [Bool.eq_iff_iff, Option.isSome_iff_exists]
  refine ⟨fun ⟨_, h⟩ => mapped_of_locate h, fun h => ?_⟩
  rcases Nat.lt_or_ge a 0x1000 with ha | ha
  · obtain ⟨r, hr⟩ := registerAt_of_mapped ha h
    exact ⟨.register r, by simp [locate, ha, hr]⟩
  · obtain ⟨tg, htg, _⟩ := locate_of_mapped hc ha h
    exact ⟨tg, htg⟩

/-- An aligned address in a register's word is the register's own. -/
theorem eq_registerAddr {a : Word} {r : Register} (hr : registerAt a.toNat = some r) (haligned : a.toNat % 4 = 0) :
    a = registerAddr r := by
  have hslot := registerAt_slot hr
  have hregister := (registerAddr_leads r).2.2
  exact BitVec.eq_of_toNat_eq (by omega)

/-- At a register BUSY = 1 holds off the writes to GEOMETRY and CMD (20_memory.md R68). -/
theorem refusedWhileBusy_register {acc : Access} {r : Register} (hr : registerAt acc.address = some r)
    (ha : acc.address < 0x1000) (haligned : acc.address % 4 = 0) :
    refusedWhileBusy acc (.register r) = heldOffWhileBusy acc := by
  have hbelow : decide (0x1000 ≤ acc.address) = false := decide_eq_false (Nat.not_le.mpr ha)
  simp only [heldOffWhileBusy, hbelow, Bool.false_or]
  cases acc with
  | read w a => cases r <;> rfl
  | write w a v =>
    obtain rfl := eq_registerAddr hr haligned
    cases r <;> rfl

/-- Of the access's own causes a register knows `Width` and `Busy` (20_memory.md R63, R68). -/
theorem targetError_register {s : State} {acc : Access} {r : Register} (hr : registerAt acc.address = some r)
    (ha : acc.address < 0x1000) :
    targetError s acc (.register r) =
      if acc.accessWidth ≠ .w32 ∨ acc.address % 4 ≠ 0 then some .width
      else if s.busy ∧ heldOffWhileBusy acc then some .busy else none := by
  by_cases hshape : acc.accessWidth = .w32 ∧ acc.address % 4 = 0
  · rw [if_neg (by tauto)]
    simp [targetError, hshape, refusedWhileBusy_register hr ha hshape.2]
  · rw [if_pos (by tauto)]
    simp [targetError, hshape]

/-- At a window a misaligned access is `Misaligned`, and any other is held off (20_memory.md R64, R68). -/
theorem targetError_window_causes {s : State} {acc : Access} {tg : Target} (htg : ∀ r, tg ≠ .register r)
    (ha : 0x1000 ≤ acc.address) :
    targetError s acc tg =
      if acc.address % acc.accessWidth.bytes ≠ 0 then some .misaligned
      else if s.busy ∧ heldOffWhileBusy acc then some .busy else none := by
  have hheld : heldOffWhileBusy acc = true := by simp [heldOffWhileBusy, ha]
  by_cases haligned : acc.address % acc.accessWidth.bytes = 0
  · simp [targetError_window htg haligned, haligned, hheld]
  · cases tg with
    | register r => exact absurd rfl (htg r)
    | plane | frame => simp [targetError, haligned]

theorem busError_eq_firstCause {s : State} (hc : s.cfg.ok = true) (acc : Access) : busError s acc = firstCause s acc := by
  have hmapped := locate_isSome hc acc.address
  unfold busError firstCause
  cases hl : locate s.cfg acc.address with
  | none =>
    rw [hl] at hmapped
    simp [← hmapped]
  | some tg =>
    rw [hl] at hmapped
    by_cases hreg : ∃ r, tg = .register r
    · obtain ⟨r, rfl⟩ := hreg
      obtain ⟨ha, hr⟩ := locate_register hl
      simp [← hmapped, targetError_register hr ha, ha, Nat.not_le.mpr ha]
    · have htg : ∀ r, tg ≠ .register r := fun r hr => hreg ⟨r, hr⟩
      have ha := locate_window_region hl htg
      simp [← hmapped, targetError_window_causes htg ha, ha, Nat.not_lt.mpr ha]

/-! ### What can fail, and where it comes from -/

theorem frameByteAddr_offset (f : FrameIdx) (o : Nat) : frameByteAddr f (o / 4) (channelAt (o % 4)) = frameBase f + o := by
  have hindex : (channelAt (o % 4)).index = o % 4 := by
    have hlt := Nat.mod_lt o (show 4 > 0 by decide)
    generalize o % 4 = k at hlt
    interval_cases k <;> rfl
  rw [frameByteAddr, hindex, Nat.div_add_mod]

/-- The offset at which reading a frame window stops holds no value. -/
theorem unset_of_frameWindowBytes_error {s : State} {f : FrameIdx} {n e : Nat} :
    ∀ {o}, frameWindowBytes s f o n = .error e → readByte s.mem (frameBase f + e) = none := by
  induction n with
  | zero => exact fun h => by cases h
  | succ n ih =>
    intro o h
    rw [frameWindowBytes] at h
    split at h
    · rename_i hnone
      cases h
      exact hnone
    · split at h
      · cases h
      · rename_i hrest
        cases h
        exact ih hrest

/-- A read of a target fails only on a frame byte that holds no value (20_memory.md R66). -/
theorem unset_of_readTarget_error {s : State} {n : Nat} {tg : Target} {fault : Fault} (h : readTarget s n tg = .error fault) :
    ∃ f i c, fault = .uninitRead f i c ∧ frameByte s f i c = none := by
  cases tg with
  | register | plane => cases h
  | frame f o =>
    cases he : frameWindowBytes s f o n with
    | ok vs => simp [readTarget, he] at h
    | error e =>
      simp only [readTarget, he, Except.error.injEq] at h
      subst h
      refine ⟨f, _, _, rfl, ?_⟩
      rw [frameByte, frameByteAddr_offset]
      exact unset_of_frameWindowBytes_error he

/-- An answer with a next state, or the fault on a frame byte that holds no value. -/
def NextOrUnset (s : State) (o : Host.Outcome State Fault Refusal) : Prop :=
  (∃ t, o = .next t) ∨ ∃ f i c, o = .fault (.uninitRead f i c) ∧ frameByte s f i c = none

theorem exec_nextOrUnset (i : Instr) (s : State) : NextOrUnset s (exec i s) := by
  have ho := exec_outcome i s
  generalize exec i s = o at ho
  cases ho with
  | rejected => exact .inl ⟨_, rfl⟩
  | completed => exact .inl ⟨_, rfl⟩
  | uninit f n c _ hn => exact .inr ⟨f, n, c, rfl, hn⟩

theorem engineTurn_nextOrUnset (s : State) : NextOrUnset s (engineTurn s) := by
  unfold engineTurn performPending
  split
  · split
    · exact exec_nextOrUnset _ s
    · exact .inl ⟨_, rfl⟩
  · exact .inl ⟨_, rfl⟩

theorem accessTarget_nextOrUnset (s : State) (acc : Access) (tg : Target) : NextOrUnset s (accessTarget s acc tg) := by
  cases acc with
  | write => exact .inl ⟨_, rfl⟩
  | read w a =>
    cases hread : readTarget s w.bytes tg with
    | ok v => exact .inl ⟨_, by rw [accessTarget, hread]⟩
    | error fault =>
      obtain ⟨f, i, c, rfl, hnone⟩ := unset_of_readTarget_error hread
      exact .inr ⟨f, i, c, by rw [accessTarget, hread], hnone⟩

theorem hostAccess_nextOrUnset {s : State} {acc : Access} (h : busError s acc = none) : NextOrUnset s (hostAccess acc s) := by
  obtain ⟨tg, hl, he⟩ := busError_eq_none h
  rw [hostAccess_target hl he]
  exact accessTarget_nextOrUnset s acc tg

/-- An access is answered by bus error `k` exactly where `k` is its bus error. -/
theorem hostAccess_eq_busError_iff {s : State} {acc : Access} {k : BusErrorKind} :
    hostAccess acc s = .fault (.busError k) ↔ busError s acc = some k := by
  refine ⟨fun h => ?_, hostAccess_busError⟩
  cases hb : busError s acc with
  | some j =>
    rw [hostAccess_busError hb] at h
    cases h
    rfl
  | none =>
    rcases hostAccess_nextOrUnset hb with ⟨t, ht⟩ | ⟨f, i, c, hf, _⟩
    · rw [ht] at h; cases h
    · rw [hf] at h; cases h

end Sys2Proof.Machine

namespace Sys2Proof.Claims

open Sys2Proof.Machine

/-- Settles O4: the masks find the unused bits, and the lines that follow them are `operandError`. -/
theorem validationReportsFirstCode : Obligations.ValidationReportsFirstCode := by
  intro v s
  have hdims : ¬ validGeometry s ↔ dimsOk s = false := by rw [← dimsOk_iff_validGeometry, Bool.not_eq_true]
  simp only [validateByMask, hdims]
  rcases validate_cases v s with ⟨hop, hv⟩ | ⟨hop, hset, hv⟩ | ⟨hop, hunset, hv⟩
  · rw [hv, if_pos hop]
    rfl
  · rw [hv, if_neg (Nat.not_le.mpr hop), if_pos fun hmask => (masked_eq_iff hop).mp hmask hset]
    rfl
  · rw [hv, if_neg (Nat.not_le.mpr hop), if_neg (not_not.mpr ((masked_eq_iff hop).mpr hunset)), operandError]
    split_ifs <;> rfl

/-- Settles O5: validation goes one of three ways, and each error belongs to one of them. -/
theorem commandErrorCausesByField : Obligations.CommandErrorCausesByField := by
  intro v s
  simp only [← dimsOk_iff_validGeometry, ← dimsOk_eq_false_iff]
  rcases validate_cases v s with ⟨hop, hv⟩ | ⟨hop, hset, hv⟩ | ⟨hop, hunset, hv⟩ <;> rw [hv]
  · have hreserved : ¬ field v 0 4 ≤ 8 ∧ ¬ field v 0 4 ≤ 7 ∧ ¬ field v 0 4 ≤ 6 ∧ field v 0 4 ≠ 7 := by omega
    simp [hop, hreserved]
  · simp [hset, Nat.not_le.mpr hop, Nat.le_of_lt_succ hop]
  · simp [operandError_ne_opcode, operandError_ne_rsvd, operandError_eq_dim_iff, operandError_eq_aliasing_iff,
      operandError_eq_strength_iff, hunset, Nat.not_le.mpr hop]

/-- Settles O7: the write rejects, and a rejection while BUSY = 0 is undone by putting ERR and ERRCODE back. -/
theorem rejectedCommandIsPrecise : Obligations.RejectedCommandIsPrecise := fun _ _ e hidle herr hv =>
  ⟨_, hostAccess_cmdWrite_rejected hidle herr hv, rfl, rfl, reject_undone e hidle⟩

/-- Settles O8: the CMD write is discarded; the STATUS write clears ERR and keeps BUSY and GEOMETRY, so that the next CMD write is
validated as it would have been before. -/
theorem errorIsStickyUntilCleared : Obligations.ErrorIsStickyUntilCleared := by
  intro v w s hidle herr hw
  have hcleared : (writeStatus w s).err = false := by rw [writeStatus_err, hw, Bool.not_true, Bool.and_false]
  have hvalidate : validate v { writeStatus w s with response := .ok } = validate v s := validate_congr rfl rfl rfl v
  refine ⟨hostAccess_cmdWrite_discarded hidle herr v, _, hostAccess_write_status w s, hcleared, ?_, fun hv => ?_, fun e hv => ?_⟩
  · exact (writeStatus_errcode w s).trans (if_pos hw)
  · exact ⟨_, hostAccess_cmdWrite_accepted hidle hcleared (hvalidate.trans hv), rfl, rfl, rfl, rfl⟩
  · exact ⟨_, hostAccess_cmdWrite_rejected hidle hcleared (hvalidate.trans hv), rfl, rfl⟩

/-- Settles O12: running a command makes the checks that validation makes of its word. -/
theorem refusedCommandTakesItsRejection : Obligations.RefusedCommandTakesItsRejection := by
  intro i s e hv
  rw [validate_encode] at hv
  exact (exec_eq_runCommand i s).trans (runCommand_rejected hv _ s)

/-- Settles O40: the bus's checks are the causes in their order; rows and pixels are whole numbers of words. -/
theorem busErrorIsFirstCause : Obligations.BusErrorIsFirstCause := by
  refine ⟨fun s acc hc k => ?_, fun c w o k hc haligned hk => ⟨?_, ?_⟩⟩
  · rw [hostAccess_eq_busError_iff, busError_eq_firstCause hc]
  · have hrow : c.stride % w.bytes = 0 := Nat.mod_eq_zero_of_dvd (w.bytes_dvd.trans (Config.stride_dvd hc))
    have hpos : 0 < c.stride := by have := Config.ok_facts hc; omega
    exact (offset_in_row w.bytes_pos haligned hrow hpos hk).1
  · exact (offset_in_row w.bytes_pos haligned (Nat.mod_eq_zero_of_dvd w.bytes_dvd) (by decide) hk).1

/-- Settles O58: the engine's turn runs a command or rejects, an access gets its bus error or is performed, and reset always has a next
state. -/
theorem everyStepHasDefinedResponse : Obligations.EveryStepHasDefinedResponse := by
  intro s
  cases hin : s.inputs with
  | nil =>
    have hstep : step s = engineTurn s := by rw [step, stepNext, hin]
    exact hstep ▸ (engineTurn_nextOrUnset s).imp_right .inr
  | cons event rest =>
    have hstep : step s = applyInput event { s with inputs := rest } := by rw [step, stepNext, hin]
    rw [hstep]
    cases event with
    | reset => exact .inl ⟨_, rfl⟩
    | engine => exact (engineTurn_nextOrUnset { s with inputs := rest }).imp_right .inr
    | access acc =>
      cases hb : busError { s with inputs := rest } acc with
      | some k => exact .inr (.inl ⟨k, acc, rest, rfl, hostAccess_busError hb⟩)
      | none => exact (hostAccess_nextOrUnset hb).imp_right .inr

end Sys2Proof.Claims
end

section
/-! Proofs for 70_reset_and_hazards.md. A reset reads nothing of the state but the build and the events still to come, and the engine's
turn keeps both; so what the turn did before a reset does not show after it. -/

namespace Sys2Proof.Machine

/-! ### What a reset leaves -/

/-- The machine's first state is one that a reset leaves. -/
theorem applyReset_reset : applyReset State.reset = State.reset := rfl

theorem applyReset_congr {s t : State} (hcfg : s.cfg = t.cfg) (hinputs : s.inputs = t.inputs) : applyReset s = applyReset t := by
  rw [applyReset, applyReset, hcfg, hinputs]

/-- Empty buffers hold no value at any byte of a frame (10_state.md R40). -/
theorem frameByte_of_mem_nil {s : State} (h : s.mem = []) (f : FrameIdx) (i : Nat) (c : Channel) : frameByte s f i c = none := by
  rw [frameByte, h, readByte_nil, blank_of_not_inPlanes (frameByteAddr_not_inPlanes f i c)]

/-- Every invariant of the state but the build's own is one that a reset sets up. -/
theorem applyReset_inv {s : State} (hc : s.cfg.ok = true) : (applyReset s).Inv where
  cfg := hc
  canonical := wf_nil
  storage := rfl
  padding := fun p x y _ _ _ => planeBit_of_mem_nil rfl p x y
  pending := fun hbusy => absurd hbusy Bool.false_ne_true
  alone := fun _ => ⟨rfl, rfl⟩
  errcode := rfl

/-! ### The reset event, and the engine's turn before it -/

theorem step_reset {s : State} {rest : List Input} (h : s.inputs = .reset :: rest) :
    step s = .next (applyReset { s with inputs := rest }) := by
  rw [step, stepNext, h]
  rfl

theorem TurnNext.inputs {s t : State} (h : TurnNext s t) : t.inputs = s.inputs := by
  cases h with
  | idle => rfl
  | rejected => rfl
  | completed => rfl

end Sys2Proof.Machine

namespace Sys2Proof.Claims

open Sys2Proof.Machine

/-- Settles O39: the engine's turn keeps the build and takes only its own event from the list, and a reset reads nothing else. -/
theorem resetAbandonsPendingCommand : Obligations.ResetAbandonsPendingCommand := by
  intro s t rest _ hin h
  rw [step_of_engineHasTurn (.inr ⟨_, hin⟩), hin] at h
  have hturn := engineTurn_next h
  have hsame : applyReset { s with inputs := rest } = applyReset { t with inputs := rest } :=
    applyReset_congr hturn.sameGeometry.cfg.symm rfl
  exact ⟨_, step_reset hturn.inputs, (step_reset rfl).trans (congrArg _ hsame), rfl⟩

/-- Settles O32: the build is legal, and the rest is what a reset sets up. -/
theorem invariantsHoldAtReset : Obligations.InvariantsHoldAtReset := by
  rw [Obligations.InvariantsHoldAtReset, ← applyReset_reset]
  exact applyReset_inv Config.build_ok

/-- Settles O38: both states are left by a reset, which sets each register and empties the buffers. -/
theorem resetLeavesGivenValues : Obligations.ResetLeavesGivenValues := by
  intro s rest hin
  refine ⟨_, step_reset hin, rfl, rfl, fun u hu => ?_⟩
  obtain ⟨v, rfl⟩ : ∃ v, u = applyReset v := by
    simp only [List.mem_cons, List.not_mem_nil, or_false] at hu
    exact hu.elim (fun h => ⟨_, h⟩) (fun h => ⟨State.reset, h.trans applyReset_reset.symm⟩)
  exact ⟨rfl, rfl, rfl, rfl, rfl, rfl, rfl, rfl, rfl, fun _ p x y _ _ => planeBit_of_mem_nil rfl p x y,
    frameByte_of_mem_nil rfl, rfl, rfl, rfl⟩

end Sys2Proof.Claims
end
